-- ==== Sys2Proof/Word.lean ====
section
/-! DEFINITION. The three widths of the unit's data: buffer bytes, the 16-bit wire fields, and the 32-bit
registers and command words (00_scope.md rules R3, R4). -/

namespace Sys2Proof

/-- A buffer byte. -/
abbrev Byte := BitVec 8

/-- A 16-bit wire field: a port, a length, a parameter type. -/
abbrev Half := BitVec 16

/-- A 32-bit register or command word. -/
abbrev Word := BitVec 32

end Sys2Proof
end

