-- ==== Sys2Proof/Syntax.lean ====
section
/-! DEFINITION. The 22 commands of 30_encoding.md rule R47, one constructor per row of spec/opcode_table.json, with the
operands of rule R46; and the pseudo-instructions of rule R49 as lists of commands. -/

namespace Sys2Proof

/-- 00_scope.md rule R8: the chunk level (`lv = 0`) and the parameter level (`lv = 1`). -/
inductive Level where
  | chunk
  | param
  deriving DecidableEq, Repr

/-- One command of the unit. Every operand has exactly the width of its field (rule R46), so every term is a command. -/
inductive Instr where
  /-- `NOP` (R53) -/
  | nop
  /-- `START` (R54) -/
  | start
  /-- `CRC.INIT` (R65) -/
  | crcInit
  /-- `CRC.BYTE byte` (R66) -/
  | crcByte (byte : Byte)
  /-- `CRC.FIN` (R67) -/
  | crcFin
  /-- `HDR.DEC` (R70) -/
  | hdrDec
  /-- `HDR.ENC` (R71) -/
  | hdrEnc
  /-- `CSUM.VERIFY` (R72) -/
  | csumVerify
  /-- `CSUM.PATCH` (R73) -/
  | csumPatch
  /-- `CHK.NEXT` (R88) -/
  | chkNext
  /-- `PRM.ENTER k` (R89) -/
  | prmEnter (k : Half)
  /-- `PRM.NEXT` (R90) -/
  | prmNext
  /-- `VAL.U8 lv, off` (R91) -/
  | valU8 (lv : Level) (off : Half)
  /-- `VAL.U16 lv, off` (R92) -/
  | valU16 (lv : Level) (off : Half)
  /-- `VAL.U32 lv, off` (R93) -/
  | valU32 (lv : Level) (off : Half)
  /-- `VAL.REJECT lv` (R94) -/
  | valReject (lv : Level)
  /-- `VAL.BADLEN lv` (R103) -/
  | valBadlen (lv : Level)
  /-- `BUF.PUT byte` (R96) -/
  | bufPut (byte : Byte)
  /-- `CHK.OPEN type, flags` (R97) -/
  | chkOpen (type flags : Byte)
  /-- `CHK.CLOSE` (R98) -/
  | chkClose
  /-- `PRM.OPEN type` (R99) -/
  | prmOpen (type : Half)
  /-- `PRM.CLOSE` (R100) -/
  | prmClose
  deriving DecidableEq, Repr

/-- R47, R49: the mnemonic. -/
def Instr.mnemonic : Instr → String
  | .nop => "NOP"
  | .start => "START"
  | .crcInit => "CRC.INIT"
  | .crcByte _ => "CRC.BYTE"
  | .crcFin => "CRC.FIN"
  | .hdrDec => "HDR.DEC"
  | .hdrEnc => "HDR.ENC"
  | .csumVerify => "CSUM.VERIFY"
  | .csumPatch => "CSUM.PATCH"
  | .chkNext => "CHK.NEXT"
  | .prmEnter _ => "PRM.ENTER"
  | .prmNext => "PRM.NEXT"
  | .valU8 _ _ => "VAL.U8"
  | .valU16 _ _ => "VAL.U16"
  | .valU32 _ _ => "VAL.U32"
  | .valReject _ => "VAL.REJECT"
  | .valBadlen _ => "VAL.BADLEN"
  | .bufPut _ => "BUF.PUT"
  | .chkOpen _ _ => "CHK.OPEN"
  | .chkClose => "CHK.CLOSE"
  | .prmOpen _ => "PRM.OPEN"
  | .prmClose => "PRM.CLOSE"

/-- R49: `PUT16 v`, big-endian. -/
def put16 (v : Half) : List Instr :=
  [.bufPut (v.extractLsb' 8 8), .bufPut (v.extractLsb' 0 8)]

/-- R49: `PUT32 v`, big-endian. -/
def put32 (v : Word) : List Instr :=
  [.bufPut (v.extractLsb' 24 8), .bufPut (v.extractLsb' 16 8), .bufPut (v.extractLsb' 8 8), .bufPut (v.extractLsb' 0 8)]

/-- R49: `CRC.STR b0 b1 ... bn`. -/
def crcStr (bytes : List Byte) : List Instr :=
  bytes.map .crcByte

end Sys2Proof
end

