-- ==== Sys2Proof/WellFormed.lean ====
section
/-! DEFINITION. Which command words are well formed. A term of `Instr` is well formed by its type (every operand has its
field's width), so the checks are on words: the match and mask of each row of the opcode map (30_encoding.md rules R45,
R47), one check per row, in the table's own form. The decoder reads the fields instead; a statement says that the two
agree. -/

namespace Sys2Proof

/-- The six formats of rule R45. -/
inductive Format where
  | n | b | h | l | v | t
  deriving DecidableEq, Repr

/-- R45: the operand bits of a format (the complement of its rows' masks). -/
def Format.operandBits : Format → Word
  | .n => 0x00000000
  | .b => 0x000000FF
  | .h => 0x0000FFFF
  | .l => 0x00010000
  | .v => 0x0001FFFF
  | .t => 0x00FF00FF

/-- One row of the opcode map of rule R47. -/
structure Row where
  mnemonic : String
  op : Byte
  format : Format
  deriving DecidableEq, Repr

/-- The row's `match`: `op` in bits 31:24, all other bits 0. -/
def Row.matchWord (r : Row) : Word := r.op ++ (0 : BitVec 24)

/-- The row's `mask`: the complement of the format's operand bits. -/
def Row.mask (r : Row) : Word := ~~~ r.format.operandBits

/-- R47: a word encodes the row's command exactly when `(w and mask) = match`. -/
def Row.accepts (r : Row) (w : Word) : Bool := w &&& r.mask == r.matchWord

/-- R47: the 22 commands by `op`. -/
def opcodeMap : List Row :=
  [⟨"NOP", 0x00, .n⟩, ⟨"START", 0x01, .n⟩,
   ⟨"CRC.INIT", 0x10, .n⟩, ⟨"CRC.BYTE", 0x11, .b⟩, ⟨"CRC.FIN", 0x12, .n⟩,
   ⟨"HDR.DEC", 0x20, .n⟩, ⟨"HDR.ENC", 0x21, .n⟩, ⟨"CSUM.VERIFY", 0x22, .n⟩, ⟨"CSUM.PATCH", 0x23, .n⟩,
   ⟨"CHK.NEXT", 0x30, .n⟩, ⟨"PRM.ENTER", 0x31, .h⟩, ⟨"PRM.NEXT", 0x32, .n⟩,
   ⟨"VAL.U8", 0x33, .v⟩, ⟨"VAL.U16", 0x34, .v⟩, ⟨"VAL.U32", 0x35, .v⟩,
   ⟨"VAL.REJECT", 0x36, .l⟩, ⟨"VAL.BADLEN", 0x37, .l⟩,
   ⟨"BUF.PUT", 0x40, .b⟩, ⟨"CHK.OPEN", 0x41, .t⟩, ⟨"CHK.CLOSE", 0x42, .n⟩,
   ⟨"PRM.OPEN", 0x43, .h⟩, ⟨"PRM.CLOSE", 0x44, .n⟩]

/-- R48 step 1: the word matches a row. -/
def legalWord (w : Word) : Bool := opcodeMap.any (Row.accepts · w)

end Sys2Proof
end

