-- ==== Sys2Proof/Decode.lean ====
section
/-! DEFINITION. The command word: its fields, the decoder (total, rejecting by name) and the encoder, all from
30_encoding.md rules R45 to R48. -/

namespace Sys2Proof

/-- R45: `op = w[31:24]`. -/
def opField (w : Word) : Byte := w.extractLsb' 24 8

/-- R45: `a8 = w[23:16]`; the `flags` operand of `CHK.OPEN` (R46). -/
def a8Field (w : Word) : Byte := w.extractLsb' 16 8

/-- R45: `imm16 = w[15:0]`; the operands `imm`, `off`, `k` and the type of `PRM.OPEN` (R46). -/
def imm16Field (w : Word) : Half := w.extractLsb' 0 16

/-- R46: `byte = w[7:0]`; the type of `CHK.OPEN`. -/
def byteField (w : Word) : Byte := w.extractLsb' 0 8

/-- R46: `lv = w[16]`. -/
def levelField (w : Word) : Level := if w.getLsbD 16 then .param else .chunk

/-- The value of `a8` that stands for a level (R46: 0 chunk, 1 parameter). -/
def levelA8 : Level → Byte
  | .chunk => 0
  | .param => 1

/-- Why a word is illegal (R48 makes no difference between the two). -/
inductive Illegal where
  /-- `op` is one of the 234 unused values: raised by `decode`, safe (the unit then faults ILLEGAL_ENCODING). -/
  | unusedOp
  /-- `op` is listed and a must-be-zero bit of its format is 1: raised by `decode`, safe (same fault). -/
  | mustBeZero
  deriving DecidableEq, Repr

/-- R45: every bit below `op` that carries no operand of the format is 0. -/
def reservedZero (f : Format) (w : Word) : Bool :=
  match f with
  | .n => a8Field w == 0 && imm16Field w == 0
  | .b => a8Field w == 0 && w.extractLsb' 8 8 == 0
  | .h => a8Field w == 0
  | .l => w.extractLsb' 17 7 == 0 && imm16Field w == 0
  | .v => w.extractLsb' 17 7 == 0
  | .t => w.extractLsb' 8 8 == 0

/-- The command `i` if the must-be-zero bits of format `f` are 0. -/
def accept (f : Format) (w : Word) (i : Instr) : Except Illegal Instr :=
  if reservedZero f w then .ok i else .error .mustBeZero

/-- R47, R48 step 1: the command a word encodes, or why it encodes none. -/
def decode (w : Word) : Except Illegal Instr :=
  if opField w = 0x00 then accept .n w .nop
  else if opField w = 0x01 then accept .n w .start
  else if opField w = 0x10 then accept .n w .crcInit
  else if opField w = 0x11 then accept .b w (.crcByte (byteField w))
  else if opField w = 0x12 then accept .n w .crcFin
  else if opField w = 0x20 then accept .n w .hdrDec
  else if opField w = 0x21 then accept .n w .hdrEnc
  else if opField w = 0x22 then accept .n w .csumVerify
  else if opField w = 0x23 then accept .n w .csumPatch
  else if opField w = 0x30 then accept .n w .chkNext
  else if opField w = 0x31 then accept .h w (.prmEnter (imm16Field w))
  else if opField w = 0x32 then accept .n w .prmNext
  else if opField w = 0x33 then accept .v w (.valU8 (levelField w) (imm16Field w))
  else if opField w = 0x34 then accept .v w (.valU16 (levelField w) (imm16Field w))
  else if opField w = 0x35 then accept .v w (.valU32 (levelField w) (imm16Field w))
  else if opField w = 0x36 then accept .l w (.valReject (levelField w))
  else if opField w = 0x37 then accept .l w (.valBadlen (levelField w))
  else if opField w = 0x40 then accept .b w (.bufPut (byteField w))
  else if opField w = 0x41 then accept .t w (.chkOpen (byteField w) (a8Field w))
  else if opField w = 0x42 then accept .n w .chkClose
  else if opField w = 0x43 then accept .h w (.prmOpen (imm16Field w))
  else if opField w = 0x44 then accept .n w .prmClose
  else .error .unusedOp

/-- R45: the word with the given three fields. -/
def commandWord (op a8 : Byte) (imm16 : Half) : Word := op ++ a8 ++ imm16

/-- A byte operand as the low byte of `imm16` (formats B and T of R45). -/
def byteImm (b : Byte) : Half := (0 : Byte) ++ b

/-- R45 to R47: the word that encodes a command; it is the `w` that `BAD_SEQUENCE` reports (00_scope.md rule R5). -/
def encode : Instr → Word
  | .nop => commandWord 0x00 0 0
  | .start => commandWord 0x01 0 0
  | .crcInit => commandWord 0x10 0 0
  | .crcByte b => commandWord 0x11 0 (byteImm b)
  | .crcFin => commandWord 0x12 0 0
  | .hdrDec => commandWord 0x20 0 0
  | .hdrEnc => commandWord 0x21 0 0
  | .csumVerify => commandWord 0x22 0 0
  | .csumPatch => commandWord 0x23 0 0
  | .chkNext => commandWord 0x30 0 0
  | .prmEnter k => commandWord 0x31 0 k
  | .prmNext => commandWord 0x32 0 0
  | .valU8 lv off => commandWord 0x33 (levelA8 lv) off
  | .valU16 lv off => commandWord 0x34 (levelA8 lv) off
  | .valU32 lv off => commandWord 0x35 (levelA8 lv) off
  | .valReject lv => commandWord 0x36 (levelA8 lv) 0
  | .valBadlen lv => commandWord 0x37 (levelA8 lv) 0
  | .bufPut b => commandWord 0x40 0 (byteImm b)
  | .chkOpen t f => commandWord 0x41 f (byteImm t)
  | .chkClose => commandWord 0x42 0 0
  | .prmOpen t => commandWord 0x43 0 t
  | .prmClose => commandWord 0x44 0 0

/-- The command of a table row's bits. A command word is one 32-bit register value with no byte order of its own
(20_memory.md rule R33), so the row's bits are the word. -/
def decodeTableWord (nbits w : Nat) : Option Instr :=
  match decode (BitVec.ofNat 32 (w % 2 ^ nbits)) with
  | .ok i => some i
  | .error _ => none

end Sys2Proof
end

