-- ==== Sys2Proof/Config.lean ====
section
/-! DEFINITION. What an implementation fixes and the spec leaves open: the two parameters of 00_scope.md rule R3 and
the free values of unwritten buffer bytes (93_implementation_defined.md U1). -/

namespace Sys2Proof.Config

/-- DESIGN CHOICE (log 1), safe: a number nothing is known of, from which `maxPacket` is taken. -/
opaque capacity : Nat

/-- `MAX_PACKET`, left OPEN by rule R3 under the constraint `12 <= MAX_PACKET <= 2^31 - 1`: every value of that range is a
value of this expression for some `capacity`, and no other value is. -/
def maxPacket : Nat := capacity % (2 ^ 31 - 12) + 12

/-- DESIGN CHOICE (log 2), safe: a number nothing is known of, from which `nPreg` is taken. -/
opaque registrySize : Nat

/-- `N_PREG`, the number of entries of `PKNOWN`, which rule R3 makes a parameter under the constraint `1 <= N_PREG <= 16`: every value
of that range, 16 among them, is a value of this expression for some `registrySize`, and no other value is. -/
def nPreg : Nat := registrySize % 16 + 1

/-- U1, rule R137: what the byte at an offset reads as while nothing has written it since the `epoch`-th reset: any value,
and the same at every reading. DESIGN CHOICE (log 3), safe: a free value. -/
opaque unwrittenByte : (epoch offset : Nat) → Byte

theorem maxPacket_ge : 12 ≤ maxPacket := Nat.le_add_left _ _

theorem maxPacket_le : maxPacket ≤ 2 ^ 31 - 1 := by
  have := Nat.mod_lt capacity (show 0 < 2 ^ 31 - 12 by decide)
  simp only [maxPacket]; omega

theorem nPreg_ge : 1 ≤ nPreg := Nat.le_add_left _ _

theorem nPreg_le : nPreg ≤ 16 := by
  have := Nat.mod_lt registrySize (show 0 < 16 by decide)
  simp only [nPreg]; omega

end Sys2Proof.Config
end

