-- ==== Sys2Proof/Machine/State.lean ====
section
/-! DEFINITION. The machine's state as plain data: the tuple of 10_state.md rule R10, the model's own fields (the
parameter `MAX_PACKET`, the host's accesses, the count of resets), the outcomes' reasons, and the state after reset. -/

namespace Sys2Proof.Machine

open Sys2Proof

/-- The error kinds of 60_exceptions.md rule R110, in the order of their codes 0 to 7. -/
inductive ErrKind where
  | none
  | truncated
  | invalidLength
  /-- Code 3 is reserved and never written to `ERR.KIND` (R110, R27(g)). -/
  | checksumMismatch
  | unrecognizedType
  | malformedValue
  | bufferFull
  | illegalCommand
  deriving DecidableEq, Repr

/-- The causes of 60_exceptions.md rule R111, in the order of their codes 0 to 15. -/
inductive ErrCause where
  | none
  | hdrShort
  | frameHdrShort
  | lenLt4
  | lenGtRemain
  | padAbsent
  | padNonzero
  | unkStopReport
  | valueRejected
  | valOob
  | bufFull
  | frameTooLong
  | illegalEncoding
  | badSequence
  | badLen
  | recRemainder
  deriving DecidableEq, Repr

/-- The outcome of the last `NEXT` of a level, `STATUS.RES0` and `STATUS.RES1` (10_state.md rule R16), codes 0 to 3. -/
inductive Res where
  | none
  | frame
  | notice
  | finished
  deriving DecidableEq, Repr

/-- The error registers `ERR`, `ERR_INFO`, `ERR_TYPE` (10_state.md rule R23). `etype` holds the 19 assigned bits of
`ERR_TYPE`: level (18), action (17:16), type (15:0). -/
structure ErrRegs where
  kind : ErrKind
  cause : ErrCause
  info : Word
  etype : BitVec 19
  deriving DecidableEq, Repr

/-- The chunk frame register group `CF_*` with `CF_VALID` and `CF_KNOWN` (10_state.md rules R16, R21). -/
structure ChunkFrame where
  type : Byte
  flags : Byte
  length : Half
  voff : Word
  vlen : Half
  valid : Bool
  known : Bool
  deriving DecidableEq, Repr

/-- The parameter frame register group `PF_*` with `PF_VALID` and `PF_KNOWN` (10_state.md rules R16, R21); a parameter has
no flags (R90). -/
structure ParamFrame where
  type : Half
  length : Half
  voff : Word
  vlen : Half
  valid : Bool
  known : Bool
  deriving DecidableEq, Repr

/-- The contents of `BUF`: the bytes written since the last reset, by offset, in strictly rising order (log 4). A byte that
is not listed has no value of its own: it reads as a free value (`bufRead`). -/
abbrev Memory := List Host.Cell

/-- One access of the host (10_state.md rule R10, 20_memory.md rules R31, R32, 70_reset_and_hazards.md rule R130). A
register access names the register at byte offset `4 * slot`: no other register access can be constructed (rule R31,
93_implementation_defined.md U4). -/
inductive HostAccess where
  | regRead (slot : BitVec 6)
  | regWrite (slot : BitVec 6) (v : Word)
  | bufRead (offset : Nat)
  | bufWrite (offset : Nat) (b : Byte)
  | reset
  deriving DecidableEq, Repr

/-- The whole state. Fields down to `pknown` are the tuple of 10_state.md rule R10; the last four are the model's own. -/
structure State where
  /-- `BUF` (R11) -/
  buf : Memory
  /-- `LEN` (R17) -/
  len : Word
  /-- `POS0` (R18) -/
  pos0 : Word
  /-- `END0` (R18) -/
  end0 : Word
  /-- `POS1` (R18) -/
  pos1 : Word
  /-- `END1` (R18) -/
  end1 : Word
  /-- `SRC_PORT` (R19) -/
  srcPort : Half
  /-- `DST_PORT` (R19) -/
  dstPort : Half
  /-- `VTAG` (R19) -/
  vtag : Word
  /-- `CKSUM` (R19) -/
  cksum : Word
  /-- `CRC_ACC` (R20) -/
  crcAcc : Word
  /-- `CRC_OUT` (R20) -/
  crcOut : Word
  /-- `CF_*`, `CF_VALID`, `CF_KNOWN` (R16, R21) -/
  cf : ChunkFrame
  /-- `PF_*`, `PF_VALID`, `PF_KNOWN` (R16, R21) -/
  pf : ParamFrame
  /-- `VAL` (R22) -/
  val : Word
  /-- `CSTART` (R26) -/
  cstart : Word
  /-- `PSTART` (R26) -/
  pstart : Word
  /-- `STATUS.HDR_VALID` (R16) -/
  hdrValid : Bool
  /-- `STATUS.CK_DONE` (R16) -/
  ckDone : Bool
  /-- `STATUS.CK_BAD` (R16) -/
  ckBad : Bool
  /-- `STATUS.STOP0` (R16) -/
  stop0 : Bool
  /-- `STATUS.STOP1` (R16) -/
  stop1 : Bool
  /-- `STATUS.COPEN` (R16) -/
  copen : Bool
  /-- `STATUS.POPEN` (R16) -/
  popen : Bool
  /-- `STATUS.RES0` (R16) -/
  res0 : Res
  /-- `STATUS.RES1` (R16) -/
  res1 : Res
  /-- `ERR`, `ERR_INFO`, `ERR_TYPE` (R23) -/
  err : ErrRegs
  /-- `CTRL.PAD_TOL` (R15) -/
  padTol : Bool
  /-- `CKNOWN[0..7]` (R24) -/
  cknown : Vector Word 8
  /-- `PKNOWN[0..N_PREG-1]` (R25): `VALID` in bit 16, `TYPE` in bits 15:0. Its length is the parameter `N_PREG` (00_scope.md rule R3),
  which no step changes (log 2). -/
  pknown : List (BitVec 17)
  /-- MODEL: the parameter `MAX_PACKET` (00_scope.md rule R3), which no step changes (log 1). -/
  maxPacket : Nat
  /-- MODEL: how many resets the host has applied (log 3). -/
  epoch : Nat
  /-- MODEL: the host's accesses not yet taken, oldest first (log 5). -/
  pending : List HostAccess
  /-- MODEL: what the last read access returned to the host (log 6). -/
  hostRead : Option Word
  deriving DecidableEq, Repr

/-- The reasons a step can stop with a fault: none. The spec's faults are entered (`fatal`, 60_exceptions.md rule R114) and
the machine goes on; nothing in the spec stops it (00_scope.md rule R9). -/
inductive Fault where
  deriving DecidableEq, Repr

/-- The reasons a step can be refused. -/
inductive Refusal where
  /-- Raised only by an arm of `exec` whose command has no meaning yet; no arm is left so. Safe: the model stops. -/
  | notModelled (mnemonic : String)
  deriving DecidableEq, Repr

/-- No error: `ERR`, `ERR_INFO`, `ERR_TYPE` read 0 (R23). -/
def ErrRegs.clear : ErrRegs := ⟨.none, .none, 0, 0⟩

/-- What `ClearFrame(0)` leaves (R21). -/
def ChunkFrame.clear : ChunkFrame := ⟨0, 0, 0, 0, 0, false, false⟩

/-- What `ClearFrame(1)` leaves (R21). -/
def ParamFrame.clear : ParamFrame := ⟨0, 0, 0, 0, false, false⟩

/-- The state right after reset: the table of 10_state.md rule R28, `BUF` unspecified; the model's own fields as logs 1, 3,
5 and 6 say. -/
def State.reset : State where
  buf := []
  len := 0
  pos0 := 0
  end0 := 0
  pos1 := 0
  end1 := 0
  srcPort := 0
  dstPort := 0
  vtag := 0
  cksum := 0
  crcAcc := 0
  crcOut := 0
  cf := ChunkFrame.clear
  pf := ParamFrame.clear
  val := 0
  cstart := 0
  pstart := 0
  hdrValid := false
  ckDone := false
  ckBad := false
  stop0 := false
  stop1 := false
  copen := false
  popen := false
  res0 := .none
  res1 := .none
  err := ErrRegs.clear
  padTol := false
  cknown := Vector.replicate 8 0
  pknown := List.replicate Config.nPreg 0
  maxPacket := Config.maxPacket
  epoch := 0
  pending := []
  hostRead := none

end Sys2Proof.Machine
end

