-- ==== Sys2Proof/Machine/Ops.lean ====
section
/-! DEFINITION. The named operations over memory and registers: the buffer, the big-endian memory primitives of
00_scope.md rule R5, the Bounds Cursor (40_control_cursor.md rules R50 to R52), the frame register primitives
(10_state.md rule R21), the fault entry (60_exceptions.md rule R114) and the start of a call, which is also the return
from a fault (40_control_cursor.md rule R54, 60_exceptions.md rule R116). -/

namespace Sys2Proof.Machine

open Sys2Proof

/-! ## The buffer as data -/

/-- The byte listed at an offset, if a write since the last reset put one there. -/
def Memory.lookup : Memory → Nat → Option Byte
  | [], _ => none
  | c :: m, a => if c.1 = a then some c.2 else Memory.lookup m a

/-- Writes one byte, keeping the offsets strictly rising. -/
def Memory.insert : Memory → Nat → Byte → Memory
  | [], a, b => [(a, b)]
  | c :: m, a, b =>
    if a < c.1 then (a, b) :: c :: m
    else if a = c.1 then (a, b) :: m
    else c :: Memory.insert m a b

/-- Every offset of the list is above `lo`, and they rise strictly. -/
def Memory.above : Nat → Memory → Bool
  | _, [] => true
  | lo, c :: m => decide (lo < c.1) && Memory.above c.1 m

/-- The canonical form of the buffer: offsets strictly rising (log 4). -/
def Memory.wf : Memory → Bool
  | [] => true
  | c :: m => Memory.above c.1 m

/-- Every listed offset lies inside the buffer space (10_state.md rule R11). -/
def Memory.within (cap : Nat) (m : Memory) : Bool := m.all fun c => decide (c.1 < cap)

/-- A byte write at an offset of a buffer of `cap` bytes; ignored outside it (20_memory.md rule R32). -/
def Memory.put (cap : Nat) (m : Memory) (a : Nat) (b : Byte) : Memory :=
  if a < cap then Memory.insert m a b else m

/-- Byte writes at ascending offsets from `a`. -/
def Memory.putRun (cap : Nat) : Memory → Nat → List Byte → Memory
  | m, _, [] => m
  | m, a, b :: bs => Memory.putRun cap (Memory.put cap m a b) (a + 1) bs

/-- `BUF[a]`: the byte last written there; if nothing has written it since reset, a free value (U1, rule R137, log 3); at or
above `MAX_PACKET`, 0 (20_memory.md rule R32). -/
def bufRead (s : State) (a : Nat) : Byte :=
  match Memory.lookup s.buf a with
  | some b => b
  | none => if a < s.maxPacket then Config.unwrittenByte s.epoch a else 0

/-- `BUF[a + k] <- bytes[k]` for every `k`. -/
def bufWrite (a : Nat) (bytes : List Byte) (s : State) : State :=
  { s with buf := Memory.putRun s.maxPacket s.buf a bytes }

/-! ## Big-endian memory primitives (R5, 20_memory.md rule R33) -/

/-- `Rd8(a)`. -/
def rd8 (s : State) (a : Nat) : Byte := bufRead s a

/-- `Rd16(a)`: the byte at the lower offset is the more significant. -/
def rd16 (s : State) (a : Nat) : Half := bufRead s a ++ bufRead s (a + 1)

/-- `Rd32(a)`. -/
def rd32 (s : State) (a : Nat) : Word :=
  bufRead s a ++ bufRead s (a + 1) ++ bufRead s (a + 2) ++ bufRead s (a + 3)

/-- The bytes `MemWrite(_, 2, v)` writes, lowest offset first. -/
def be16 (v : Half) : List Byte := [v.extractLsb' 8 8, v.extractLsb' 0 8]

/-- The bytes `MemWrite(_, 4, v)` writes, lowest offset first. -/
def be32 (v : Word) : List Byte :=
  [v.extractLsb' 24 8, v.extractLsb' 16 8, v.extractLsb' 8 8, v.extractLsb' 0 8]

/-- The parameter `N_PREG` (00_scope.md rule R3): the number of entries of `PKNOWN` (log 2). -/
def State.nPreg (s : State) : Nat := s.pknown.length

/-! ## Per-level registers (00_scope.md rule R8) -/

/-- `POS[lv]`. -/
def State.pos (s : State) : Level → Word
  | .chunk => s.pos0
  | .param => s.pos1

/-- `END[lv]`. -/
def State.windowEnd (s : State) : Level → Word
  | .chunk => s.end0
  | .param => s.end1

/-- `STOP[lv]`. -/
def State.stop (s : State) : Level → Bool
  | .chunk => s.stop0
  | .param => s.stop1

/-- `RES[lv]`. -/
def State.res (s : State) : Level → Res
  | .chunk => s.res0
  | .param => s.res1

/-- `F[lv].VALID`. -/
def State.frameValid (s : State) : Level → Bool
  | .chunk => s.cf.valid
  | .param => s.pf.valid

/-- `F[lv].KNOWN`. -/
def State.frameKnown (s : State) : Level → Bool
  | .chunk => s.cf.known
  | .param => s.pf.known

/-- `F[lv].TYPE`, a chunk's type zero-extended. -/
def State.frameType (s : State) : Level → Half
  | .chunk => s.cf.type.setWidth 16
  | .param => s.pf.type

/-- `F[lv].VOFF`. -/
def State.frameVoff (s : State) : Level → Word
  | .chunk => s.cf.voff
  | .param => s.pf.voff

/-- `F[lv].VLEN`. -/
def State.frameVlen (s : State) : Level → Half
  | .chunk => s.cf.vlen
  | .param => s.pf.vlen

/-- `POS[lv] <- v`. -/
def State.setPos (s : State) : Level → Word → State
  | .chunk, v => { s with pos0 := v }
  | .param, v => { s with pos1 := v }

/-- `STOP[lv] <- v`. -/
def State.setStop (s : State) : Level → Bool → State
  | .chunk, v => { s with stop0 := v }
  | .param, v => { s with stop1 := v }

/-- `RES[lv] <- v`. -/
def State.setRes (s : State) : Level → Res → State
  | .chunk, v => { s with res0 := v }
  | .param, v => { s with res1 := v }

/-- `SetFrame(lv, type, flags, length, voff, vlen, known)` (R21); the flags exist at the chunk level only. -/
def State.setFrame (s : State) (lv : Level) (type : Half) (flags : Byte) (length : Half) (voff : Word) (vlen : Half)
    (known : Bool) : State :=
  match lv with
  | .chunk => { s with cf := ⟨type.setWidth 8, flags, length, voff, vlen, true, known⟩ }
  | .param => { s with pf := ⟨type, length, voff, vlen, true, known⟩ }

/-- `ClearFrame(lv)` (R21). -/
def State.clearFrame (s : State) : Level → State
  | .chunk => { s with cf := ChunkFrame.clear }
  | .param => { s with pf := ParamFrame.clear }

/-! ## The Bounds Cursor -/

/-- R50: `CurRemaining(lv) = END[lv] - POS[lv]`. -/
def curRemaining (s : State) (lv : Level) : Nat := (s.windowEnd lv).toNat - (s.pos lv).toNat

/-- R51: `CurRead(lv, n)`: the offset of the next `n` bytes and the state with the cursor behind them, or nothing (fail
Truncated) if fewer than `n` remain. -/
def curRead (lv : Level) (n : Nat) (s : State) : Option (Nat × State) :=
  if curRemaining s lv < n then none
  else some ((s.pos lv).toNat, s.setPos lv (BitVec.ofNat 32 ((s.pos lv).toNat + n)))

/-- `LEN + n <= MAX_PACKET`: an append of `n` bytes fits (R52). -/
def fits (n : Nat) (s : State) : Bool := decide (s.len.toNat + n ≤ s.maxPacket)

/-- `Append` of every byte in turn, once it is known that all fit (R52): the bytes at `LEN`, then `LEN` behind them. -/
def pushBytes (bytes : List Byte) (s : State) : State :=
  { bufWrite s.len.toNat bytes s with len := BitVec.ofNat 32 (s.len.toNat + bytes.length) }

/-- R52: all the bytes are appended, or none is (fail BufferFull). -/
def append (bytes : List Byte) (s : State) : Option State :=
  if fits bytes.length s then some (pushBytes bytes s) else none

/-! ## Taking a fault and returning from one -/

/-- The FATAL condition: `ERR.KIND != 0` (R16). -/
def State.isFatal (s : State) : Bool := decide (s.err.kind ≠ .none)

/-- What a fault latches (R114). -/
structure Trap where
  kind : ErrKind
  cause : ErrCause
  info : Word
  etype : BitVec 19
  deriving DecidableEq, Repr

/-- R114, `Fatal(kind, cause, info, etype)`: the fault entry sequence. -/
def fatal (t : Trap) (s : State) : State :=
  { s with
    err := ⟨t.kind, t.cause, t.info, t.etype⟩
    cf := ChunkFrame.clear
    pf := ParamFrame.clear
    res0 := .none
    res1 := .none
    hdrValid := false }

/-- R54, `StartActions()`: a new call begins; the return from a fault (R116). -/
def startActions (s : State) : State :=
  { s with
    err := ErrRegs.clear
    hdrValid := false
    ckDone := false
    ckBad := false
    stop0 := false
    stop1 := false
    copen := false
    popen := false
    res0 := .none
    res1 := .none
    cf := ChunkFrame.clear
    pf := ParamFrame.clear
    val := 0
    pos0 := 0
    end0 := s.len
    pos1 := 0
    end1 := s.len }

/-- What a command's rule comes to: it completes in a state, or it raises a fault, having written nothing (R114). -/
abbrev Effect := Except Trap State

/-- The state an effect leaves: on a fault, the state the command began in with the fault entered (R114, R121). -/
def settle (s : State) : Effect → State
  | .ok t => t
  | .error e => fatal e s

/-- R5, `require`: the fault of a command whose condition is false, reporting the command word. -/
def badSequence (i : Instr) : Effect := .error ⟨.illegalCommand, .badSequence, encode i, 0⟩

/-- R52: the fault of an append that does not fit. -/
def bufferFull (s : State) : Effect := .error ⟨.bufferFull, .bufFull, s.len, 0⟩

/-- R9, R48 steps 4 and 6, R115: a command other than `NOP` and `START` is refused while the unit is FATAL, with no state
change, and otherwise has its rule's effect. -/
def command (rule : State → Effect) (s : State) : Host.Outcome State Fault Refusal :=
  .next (if s.isFatal then s else settle s (rule s))

end Sys2Proof.Machine
end

