-- ==== Sys2Proof/Machine/Control.lean ====
section
/-! DEFINITION. The control commands `NOP` and `START` (40_control_cursor.md), which execute also while the unit is FATAL
(30_encoding.md rule R48 steps 2 and 3). -/

namespace Sys2Proof.Machine

open Sys2Proof

/-- `NOP` (R53): nothing. -/
def execNop (s : State) : Host.Outcome State Fault Refusal := .next s

/-- `START` (R54): a new call begins, and a fault is left (60_exceptions.md rule R116). -/
def execStart (s : State) : Host.Outcome State Fault Refusal := .next (startActions s)

end Sys2Proof.Machine
end

