-- ==== Sys2Proof/Machine/Operands.lean ====
section
/-! DEFINITION. Operand and field computations: the padding and action functions (00_scope.md rules R6, R7), the type
detail of a fault (60_exceptions.md rule R113), the fields of a frame header (30_encoding.md rules R41, R42), and the
bounded reach into a frame's value (43_tlv_decode.md rules R91 to R93). -/

namespace Sys2Proof.Machine

open Sys2Proof

/-- R6: `Pad(L) = (4 - (L mod 4)) mod 4`. -/
def pad (l : Nat) : Nat := (4 - l % 4) % 4

/-- R7: `Action8(t) = t[7:6]` at the chunk level, `Action16(t) = t[15:14]` at the parameter level. -/
def action (lv : Level) (type : Half) : BitVec 2 :=
  match lv with
  | .chunk => type.extractLsb' 6 2
  | .param => type.extractLsb' 14 2

/-- The level bit of `ERR_TYPE` (R23). -/
def levelBit : Level → BitVec 1
  | .chunk => 0
  | .param => 1

/-- R113: `type or (action << 16) or (lv << 18)`. -/
def typeDetail (lv : Level) (type : Half) : BitVec 19 := levelBit lv ++ action lv type ++ type

/-- The type field of the frame header at `a`: `Rd8(a)` of a chunk, zero-extended (R41), `Rd16(a)` of a parameter (R42). -/
def headerType (s : State) (lv : Level) (a : Nat) : Half :=
  match lv with
  | .chunk => (rd8 s a).setWidth 16
  | .param => rd16 s a

/-- The flags field of the frame header at `a`: `Rd8(a + 1)` of a chunk, 0 for a parameter (R82 step 3). -/
def headerFlags (s : State) (lv : Level) (a : Nat) : Byte :=
  match lv with
  | .chunk => rd8 s (a + 1)
  | .param => 0

/-- The length field of the frame header at `a` (R41, R42). -/
def headerLength (s : State) (a : Nat) : Half := rd16 s (a + 2)

/-- The buffer offset `F[lv].VOFF + off`. -/
def valueOffset (s : State) (lv : Level) (off : Half) : Nat := (s.frameVoff lv).toNat + off.toNat

/-- R91 to R93: `off + n > F[lv].VLEN`: a field of `n` bytes at `off` does not lie inside the value. -/
def outsideValue (s : State) (lv : Level) (off : Half) (n : Nat) : Bool :=
  decide ((s.frameVlen lv).toNat < off.toNat + n)

/-- The frame start of the current frame of a level, `F[lv].VOFF - 4` (R94, R103). -/
def frameStart (s : State) (lv : Level) : Word := s.frameVoff lv - 4

end Sys2Proof.Machine
end

