-- ==== Sys2Proof/Machine/Flags.lean ====
section
/-! DEFINITION. The packed registers: `STATUS` (10_state.md rule R16), `ERR` and `ERR_TYPE` (rule R23, 60_exceptions.md
rules R110, R111), `CF_HDR` and `PF_HDR` (rule R21). The unit has no arithmetic condition codes. -/

namespace Sys2Proof.Machine

open Sys2Proof

/-- R110: the code of a kind. -/
def kindCode : ErrKind → BitVec 4
  | .none => 0
  | .truncated => 1
  | .invalidLength => 2
  | .checksumMismatch => 3
  | .unrecognizedType => 4
  | .malformedValue => 5
  | .bufferFull => 6
  | .illegalCommand => 7

/-- R111: the code of a cause. -/
def causeCode : ErrCause → Byte
  | .none => 0
  | .hdrShort => 1
  | .frameHdrShort => 2
  | .lenLt4 => 3
  | .lenGtRemain => 4
  | .padAbsent => 5
  | .padNonzero => 6
  | .unkStopReport => 7
  | .valueRejected => 8
  | .valOob => 9
  | .bufFull => 10
  | .frameTooLong => 11
  | .illegalEncoding => 12
  | .badSequence => 13
  | .badLen => 14
  | .recRemainder => 15

/-- R111: the one kind a cause belongs to. -/
def causeKind : ErrCause → ErrKind
  | .none => .none
  | .hdrShort => .truncated
  | .frameHdrShort => .truncated
  | .lenLt4 => .invalidLength
  | .lenGtRemain => .invalidLength
  | .padAbsent => .truncated
  | .padNonzero => .invalidLength
  | .unkStopReport => .unrecognizedType
  | .valueRejected => .malformedValue
  | .valOob => .truncated
  | .bufFull => .bufferFull
  | .frameTooLong => .invalidLength
  | .illegalEncoding => .illegalCommand
  | .badSequence => .illegalCommand
  | .badLen => .illegalCommand
  | .recRemainder => .invalidLength

/-- R16: the code of an outcome in `RES0`, `RES1`. -/
def resCode : Res → BitVec 2
  | .none => 0
  | .frame => 1
  | .notice => 2
  | .finished => 3

/-- R16: `STATUS` as the host reads it, `FATAL` computed. -/
def statusWord (s : State) : Word :=
  (0 : BitVec 16) ++ resCode s.res1 ++ resCode s.res0 ++ BitVec.ofBool s.isFatal ++ BitVec.ofBool s.popen
    ++ BitVec.ofBool s.copen ++ BitVec.ofBool s.stop1 ++ BitVec.ofBool s.stop0 ++ BitVec.ofBool s.pf.known
    ++ BitVec.ofBool s.pf.valid ++ BitVec.ofBool s.cf.known ++ BitVec.ofBool s.cf.valid ++ BitVec.ofBool s.ckBad
    ++ BitVec.ofBool s.ckDone ++ BitVec.ofBool s.hdrValid

/-- R23: `ERR`: `KIND` in bits 3:0, `CAUSE` in bits 11:4. -/
def errWord (s : State) : Word := (0 : BitVec 20) ++ causeCode s.err.cause ++ kindCode s.err.kind

/-- R23: `ERR_TYPE`: type, action and level in bits 18:0. -/
def errTypeWord (s : State) : Word := s.err.etype.setWidth 32

/-- R21: `CF_HDR`: length, flags, type. -/
def cfHdrWord (s : State) : Word := s.cf.length ++ s.cf.flags ++ s.cf.type

/-- R21: `PF_HDR`: length, type. -/
def pfHdrWord (s : State) : Word := s.pf.length ++ s.pf.type

end Sys2Proof.Machine
end

