-- ==== Sys2Proof/Machine/Crc.lean ====
section
/-! DEFINITION. CRC32c (41_crc32c.md): the constant table, the byte update, the checksum of a byte sequence and of the
packet in the buffer, and the meanings of `CRC.INIT`, `CRC.BYTE`, `CRC.FIN`. -/

namespace Sys2Proof.Machine

open Sys2Proof

/-- R60: the generator polynomial in reflected form. -/
def crcPoly : Word := 0x82F63B78

/-- R61: one bit of the table's generating loop. -/
def crcShift (c : Word) : Word :=
  if c.getLsbD 0 then (c >>> 1) ^^^ crcPoly else c >>> 1

/-- R61: the loop's eight repetitions. -/
def crcShift8 (c : Word) : Word :=
  crcShift (crcShift (crcShift (crcShift (crcShift (crcShift (crcShift (crcShift c)))))))

/-- R61: `CRCTAB[i]`, a constant (10_state.md rule R12). -/
def crcTab (i : Byte) : Word := crcShift8 (i.setWidth 32)

/-- R62: `crc_upd(acc, b) = CRCTAB[(acc xor b) and 0xFF] xor (acc >> 8)`. -/
def crcUpd (acc : Word) (b : Byte) : Word :=
  crcTab ((acc ^^^ b.setWidth 32).extractLsb' 0 8) ^^^ (acc >>> 8)

/-- R60, R63: the initial accumulator, and the constant of the final inversion. -/
def crcOnes : Word := 0xFFFFFFFF

/-- R63: the accumulator after a byte sequence. -/
def crcRun (acc : Word) (bytes : List Byte) : Word := bytes.foldl crcUpd acc

/-- R63: `Crc32c(d)`. -/
def crc32c (bytes : List Byte) : Word := crcRun crcOnes bytes ^^^ crcOnes

/-- R64: the byte of the packet that enters the CRC at offset `i`: 0 in the checksum field, `BUF[i]` elsewhere. -/
def packetByte (s : State) (i : Nat) : Byte :=
  if 8 ≤ i ∧ i ≤ 11 then 0 else rd8 s i

/-- R64: the byte stream of `PacketCrc()`, offsets `0 .. LEN-1` in ascending order. -/
def packetBytes (s : State) : List Byte := (List.range s.len.toNat).map (packetByte s)

/-- R64: `PacketCrc()` writes `CRC_ACC` and `CRC_OUT`. -/
def packetCrc (s : State) : State :=
  { s with
    crcAcc := crcRun crcOnes (packetBytes s)
    crcOut := crcRun crcOnes (packetBytes s) ^^^ crcOnes }

/-- `CRC.INIT` (R65). -/
def execCrcInit (s : State) : Host.Outcome State Fault Refusal :=
  command (fun s => .ok { s with crcAcc := crcOnes }) s

/-- `CRC.BYTE byte` (R66). -/
def execCrcByte (byte : Byte) (s : State) : Host.Outcome State Fault Refusal :=
  command (fun s => .ok { s with crcAcc := crcUpd s.crcAcc byte }) s

/-- `CRC.FIN` (R67). -/
def execCrcFin (s : State) : Host.Outcome State Fault Refusal :=
  command (fun s => .ok { s with crcOut := s.crcAcc ^^^ crcOnes }) s

end Sys2Proof.Machine
end

