-- ==== Sys2Proof/Machine/Encoder.lean ====
section
/-! DEFINITION. The TLV frame encoder (44_tlv_encode.md): `BUF.PUT`, `CHK.OPEN`, `CHK.CLOSE`, `PRM.OPEN`, `PRM.CLOSE`. -/

namespace Sys2Proof.Machine

open Sys2Proof

/-- Appends the bytes and goes on, or faults `BufferFull/BUF_FULL` with nothing written (R52, R96). -/
def appendThen (bytes : List Byte) (done : State → State) (s : State) : Effect :=
  match append bytes s with
  | none => bufferFull s
  | some t => .ok (done t)

/-- R101: the length field of the frame opened at `start` is patched and the zero padding appended. -/
def patchAndPad (start l : Nat) (s : State) : State :=
  pushBytes (List.replicate (pad l) 0) (bufWrite (start + 2) (be16 (BitVec.ofNat 16 l)) s)

/-- R101: `CloseFrame(start)`; both checks precede both writes. -/
def closeFrame (start : Word) (done : State → State) (s : State) : Effect :=
  let l := s.len.toNat - start.toNat
  if 65535 < l then .error ⟨.invalidLength, .frameTooLong, start, 0⟩
  else if !fits (pad l) s then bufferFull s
  else .ok (done (patchAndPad start.toNat l s))

/-- `BUF.PUT byte` (R96). -/
def execBufPut (byte : Byte) (s : State) : Host.Outcome State Fault Refusal :=
  command (appendThen [byte] id) s

/-- `CHK.OPEN type, flags` (R97). -/
def execChkOpen (type flags : Byte) (s : State) : Host.Outcome State Fault Refusal :=
  command (fun s =>
    if s.copen ∨ s.popen then badSequence (.chkOpen type flags)
    else appendThen [type, flags, 0, 0] (fun t => { t with cstart := s.len, copen := true }) s) s

/-- `CHK.CLOSE` (R98). -/
def execChkClose (s : State) : Host.Outcome State Fault Refusal :=
  command (fun s =>
    if ¬ s.copen ∨ s.popen then badSequence .chkClose
    else closeFrame s.cstart (fun t => { t with copen := false }) s) s

/-- `PRM.OPEN type` (R99). -/
def execPrmOpen (type : Half) (s : State) : Host.Outcome State Fault Refusal :=
  command (fun s =>
    if s.popen then badSequence (.prmOpen type)
    else appendThen (be16 type ++ [0, 0]) (fun t => { t with pstart := s.len, popen := true }) s) s

/-- `PRM.CLOSE` (R100). -/
def execPrmClose (s : State) : Host.Outcome State Fault Refusal :=
  command (fun s =>
    if ¬ s.popen then badSequence .prmClose
    else closeFrame s.pstart (fun t => { t with popen := false }) s) s

end Sys2Proof.Machine
end

