-- ==== Sys2Proof/Machine/Framer.lean ====
section
/-! DEFINITION. The TLV frame decoder (43_tlv_decode.md): registry lookup, parsing one frame, the unrecognized-type policy,
and the meanings of `CHK.NEXT`, `PRM.ENTER`, `PRM.NEXT`, `VAL.U8`, `VAL.U16`, `VAL.U32`, `VAL.REJECT`, `VAL.BADLEN`. -/

namespace Sys2Proof.Machine

open Sys2Proof

/-- R80: `Known(0, t)` is bit `t mod 32` of `CKNOWN[t div 32]`. -/
def chunkKnown (s : State) (t : Byte) : Bool :=
  (s.cknown[t.toNat / 32]'(by have := t.isLt; omega)).getLsbD (t.toNat % 32)

/-- R25, R81: an entry of `PKNOWN` is valid and holds the type. -/
def entryMatches (t : Half) (e : BitVec 17) : Bool := e.getLsbD 16 && e.extractLsb' 0 16 == t

/-- R81: `Known(1, t)`: some entry of `PKNOWN` matches. -/
def paramKnown (s : State) (t : Half) : Bool := s.pknown.any (entryMatches t)

/-- `Known(lv, t)`; a chunk's type comes zero-extended. -/
def known (s : State) (lv : Level) (t : Half) : Bool :=
  match lv with
  | .chunk => chunkKnown s (t.setWidth 8)
  | .param => paramKnown s t

/-- What `ParseFrame` returns (R82). -/
inductive Parsed where
  | finished
  | bad (kind : ErrKind) (cause : ErrCause) (info : Word)
  | frame (type : Half) (flags : Byte) (length : Half) (voff : Word) (vlen : Half) (next : Word)
  deriving DecidableEq, Repr

/-- R82 step 7: the offset of the first nonzero byte among the `n` bytes at `a`. -/
def firstNonzero (s : State) (a : Nat) : Nat → Option Nat
  | 0 => none
  | n + 1 => if rd8 s a ≠ 0 then some a else firstNonzero s (a + 1) n

/-- R82 step 7: the offset of the padding byte that makes the frame with length `l` at `a` bad, if `PAD_TOL = 0`. -/
def badPadding (s : State) (a l : Nat) : Option Nat :=
  if s.padTol then none else firstNonzero s (a + l) (pad l)

/-- R82: `ParseFrame(lv)`, its steps in their order; it writes nothing. -/
def parseFrame (s : State) (lv : Level) : Parsed :=
  let a := (s.pos lv).toNat
  let rem := curRemaining s lv
  let l := (headerLength s a).toNat
  if rem = 0 then .finished
  else if rem < 4 then .bad .truncated .frameHdrShort (s.pos lv)
  else if l < 4 then .bad .invalidLength .lenLt4 (s.pos lv)
  else if rem < l then .bad .invalidLength .lenGtRemain (s.pos lv)
  else if rem < l + pad l then .bad .truncated .padAbsent (BitVec.ofNat 32 (a + l))
  else
    match badPadding s a l with
    | some j => .bad .invalidLength .padNonzero (BitVec.ofNat 32 j)
    | none =>
      .frame (headerType s lv a) (headerFlags s lv a) (headerLength s a) (BitVec.ofNat 32 (a + 4)) (BitVec.ofNat 16 (l - 4))
        (BitVec.ofNat 32 (a + l + pad l))

/-- R84, R87: the level's walk ends: `ClearFrame(lv)`, `RES[lv] <- END`. -/
def endWalk (s : State) (lv : Level) : State := (s.clearFrame lv).setRes lv .finished

/-- R86, R87: the frame at the cursor is returned and the cursor moves behind it: `FRAME` if its type is known, else
`NOTICE`. -/
def returnFrame (s : State) (lv : Level) (type : Half) (flags : Byte) (length : Half) (voff : Word) (vlen : Half)
    (next : Word) (isKnown : Bool) : State :=
  (((s.setPos lv next).setFrame lv type flags length voff vlen isKnown).setRes lv (if isKnown then .frame else .notice))

/-- What one pass of R87's loop comes to: the command ends in a state, or the frame at the cursor is skipped (action `10`,
R85) and the loop goes on. -/
inductive Pass where
  | stop (s : State)
  | skip (s : State)
  deriving DecidableEq, Repr

/-- R83 to R86: the policy for a frame whose type is not in the registry, by the type's action bits. -/
def policy (s : State) (lv : Level) (type : Half) (flags : Byte) (length : Half) (voff : Word) (vlen : Half)
    (next : Word) : Pass :=
  if action lv type = 0b00 then
    .stop (fatal ⟨.unrecognizedType, .unkStopReport, voff - 4, typeDetail lv type⟩ s)
  else if action lv type = 0b01 then .stop (endWalk (s.setStop lv true) lv)
  else if action lv type = 0b10 then .skip (s.setPos lv next)
  else .stop (returnFrame s lv type flags length voff vlen next false)

/-- R87: one pass of the loop of `NextFrame(lv)`. -/
def framePass (s : State) (lv : Level) : Pass :=
  if s.stop lv then .stop (endWalk s lv)
  else
    match parseFrame s lv with
    | .finished => .stop (endWalk s lv)
    | .bad kind cause info => .stop (fatal ⟨kind, cause, info, 0⟩ s)
    | .frame type flags length voff vlen next =>
      if known s lv type then .stop (returnFrame s lv type flags length voff vlen next true)
      else policy s lv type flags length voff vlen next

/-- R87: at most `n` passes. -/
def framePasses (lv : Level) : Nat → State → State
  | 0, s => s
  | n + 1, s =>
    match framePass s lv with
    | .stop t => t
    | .skip t => framePasses lv n t

/-- R87: `NextFrame(lv)`. The loop runs at most `CurRemaining(lv) div 4 + 1` times (40_control_cursor.md rule R55, log 9). -/
def nextFrame (lv : Level) (s : State) : State := framePasses lv (curRemaining s lv / 4 + 1) s

/-- `CHK.NEXT` (R88). -/
def execChkNext (s : State) : Host.Outcome State Fault Refusal :=
  command (fun s => .ok (nextFrame .chunk s)) s

/-- `PRM.NEXT` (R90). -/
def execPrmNext (s : State) : Host.Outcome State Fault Refusal :=
  command (fun s => .ok (nextFrame .param s)) s

/-- R89: the level-1 window becomes the current chunk's value less its first `k` bytes. -/
def enterParams (k : Half) (s : State) : State :=
  (({ s with
      pos1 := BitVec.ofNat 32 (s.cf.voff.toNat + k.toNat)
      end1 := BitVec.ofNat 32 (s.cf.voff.toNat + s.cf.vlen.toNat)
      stop1 := false }).clearFrame .param).setRes .param .none

/-- `PRM.ENTER k` (R89). -/
def execPrmEnter (k : Half) (s : State) : Host.Outcome State Fault Refusal :=
  command (fun s =>
    if !s.cf.valid then badSequence (.prmEnter k)
    else if s.cf.vlen.toNat < k.toNat then
      .error ⟨.truncated, .valOob, BitVec.ofNat 32 (s.cf.voff.toNat + k.toNat), 0⟩
    else .ok (enterParams k s)) s

/-- R91 to R93: the bounded extraction of `n` bytes at `off` of the current value of level `lv`; `value` reads the field. -/
def extractField (i : Instr) (lv : Level) (off : Half) (n : Nat) (value : Word) (s : State) : Effect :=
  if !s.frameValid lv then badSequence i
  else if outsideValue s lv off n then .error ⟨.truncated, .valOob, BitVec.ofNat 32 (valueOffset s lv off), 0⟩
  else .ok { s with val := value }

/-- `VAL.U8 lv, off` (R91). -/
def execValU8 (lv : Level) (off : Half) (s : State) : Host.Outcome State Fault Refusal :=
  command (fun s => extractField (.valU8 lv off) lv off 1 ((rd8 s (valueOffset s lv off)).setWidth 32) s) s

/-- `VAL.U16 lv, off` (R92). -/
def execValU16 (lv : Level) (off : Half) (s : State) : Host.Outcome State Fault Refusal :=
  command (fun s => extractField (.valU16 lv off) lv off 2 ((rd16 s (valueOffset s lv off)).setWidth 32) s) s

/-- `VAL.U32 lv, off` (R93). -/
def execValU32 (lv : Level) (off : Half) (s : State) : Host.Outcome State Fault Refusal :=
  command (fun s => extractField (.valU32 lv off) lv off 4 (rd32 s (valueOffset s lv off)) s) s

/-- R94, R103: the decoder outside the unit reports that the value of the current known frame is bad. -/
def rejectValue (i : Instr) (kind : ErrKind) (cause : ErrCause) (lv : Level) (s : State) : Effect :=
  if !(s.frameValid lv && s.frameKnown lv) then badSequence i
  else .error ⟨kind, cause, frameStart s lv, typeDetail lv (s.frameType lv)⟩

/-- `VAL.REJECT lv` (R94). -/
def execValReject (lv : Level) (s : State) : Host.Outcome State Fault Refusal :=
  command (rejectValue (.valReject lv) .malformedValue .valueRejected lv) s

/-- `VAL.BADLEN lv` (R103). -/
def execValBadlen (lv : Level) (s : State) : Host.Outcome State Fault Refusal :=
  command (rejectValue (.valBadlen lv) .invalidLength .recRemainder lv) s

end Sys2Proof.Machine
end

