-- ==== Sys2Proof/Machine/Header.lean ====
section
/-! DEFINITION. The packet-header codec (42_header_codec.md): `HDR.DEC`, `HDR.ENC`, `CSUM.VERIFY`, `CSUM.PATCH`. -/

namespace Sys2Proof.Machine

open Sys2Proof

/-- The four fields of the header at offset `a`, loaded into the header registers (R70, 30_encoding.md rule R40). -/
def loadHeader (s : State) (a : Nat) : State :=
  { s with
    srcPort := rd16 s a
    dstPort := rd16 s (a + 2)
    vtag := rd32 s (a + 4)
    cksum := rd32 s (a + 8)
    hdrValid := true }

/-- The 12 bytes `HDR.ENC` appends (R71): the three registers, and four zero bytes for the checksum. -/
def headerBytes (s : State) : List Byte :=
  be16 s.srcPort ++ be16 s.dstPort ++ be32 s.vtag ++ [0, 0, 0, 0]

/-- `HDR.DEC` (R70). The window read of 12 bytes is the Bounds Cursor's (R51); its offset is 0, as R70 requires
`POS0 = 0`. -/
def execHdrDec (s : State) : Host.Outcome State Fault Refusal :=
  command (fun s =>
    if s.pos0 ≠ 0 ∨ s.hdrValid then badSequence .hdrDec
    else
      match curRead .chunk 12 s with
      | none => .error ⟨.truncated, .hdrShort, s.pos0, 0⟩
      | some (a, s') => .ok (loadHeader s' a)) s

/-- `HDR.ENC` (R71). No capacity test: `12 <= MAX_PACKET` always holds (00_scope.md rule R3). -/
def execHdrEnc (s : State) : Host.Outcome State Fault Refusal :=
  command (fun s =>
    if s.len ≠ 0 then badSequence .hdrEnc
    else .ok (pushBytes (headerBytes s) s)) s

/-- `CSUM.VERIFY` (R72): a mismatch is a flag, not a fault. -/
def execCsumVerify (s : State) : Host.Outcome State Fault Refusal :=
  command (fun s =>
    if s.len.toNat < 12 then .error ⟨.truncated, .hdrShort, s.len, 0⟩
    else .ok { packetCrc s with ckDone := true, ckBad := decide ((packetCrc s).crcOut ≠ rd32 s 8) }) s

/-- `CSUM.PATCH` (R73). -/
def execCsumPatch (s : State) : Host.Outcome State Fault Refusal :=
  command (fun s =>
    if s.copen ∨ s.popen then badSequence .csumPatch
    else if s.len.toNat < 12 then .error ⟨.truncated, .hdrShort, s.len, 0⟩
    else .ok { bufWrite 8 (be32 (packetCrc s).crcOut) (packetCrc s) with cksum := (packetCrc s).crcOut }) s

end Sys2Proof.Machine
end

