-- ==== Sys2Proof/Machine/Dispatch.lean ====
section
/-! DEFINITION. One arm per command: the execution of a legal command word (30_encoding.md rule R48 steps 2 to 4 and 6). -/

namespace Sys2Proof.Machine

open Sys2Proof

def exec (i : Instr) (s : State) : Host.Outcome State Fault Refusal :=
  match i with
  | .nop => Sys2Proof.Machine.execNop s
  | .start => Sys2Proof.Machine.execStart s
  | .crcInit => Sys2Proof.Machine.execCrcInit s
  | .crcByte byte => Sys2Proof.Machine.execCrcByte byte s
  | .crcFin => Sys2Proof.Machine.execCrcFin s
  | .hdrDec => Sys2Proof.Machine.execHdrDec s
  | .hdrEnc => Sys2Proof.Machine.execHdrEnc s
  | .csumVerify => Sys2Proof.Machine.execCsumVerify s
  | .csumPatch => Sys2Proof.Machine.execCsumPatch s
  | .chkNext => Sys2Proof.Machine.execChkNext s
  | .prmEnter k => Sys2Proof.Machine.execPrmEnter k s
  | .prmNext => Sys2Proof.Machine.execPrmNext s
  | .valU8 lv off => Sys2Proof.Machine.execValU8 lv off s
  | .valU16 lv off => Sys2Proof.Machine.execValU16 lv off s
  | .valU32 lv off => Sys2Proof.Machine.execValU32 lv off s
  | .valReject lv => Sys2Proof.Machine.execValReject lv s
  | .valBadlen lv => Sys2Proof.Machine.execValBadlen lv s
  | .bufPut byte => Sys2Proof.Machine.execBufPut byte s
  | .chkOpen type flags => Sys2Proof.Machine.execChkOpen type flags s
  | .chkClose => Sys2Proof.Machine.execChkClose s
  | .prmOpen type => Sys2Proof.Machine.execPrmOpen type s
  | .prmClose => Sys2Proof.Machine.execPrmClose s

end Sys2Proof.Machine
end

