-- ==== Sys2Proof/Machine/HostAccess.lean ====
section
/-! DEFINITION. The host's accesses: the register map (10_state.md rule R13), register and buffer access (20_memory.md
rules R31, R32), the `CMD` and `LEN` writes (30_encoding.md rule R48, 10_state.md rule R17) and the reset
(70_reset_and_hazards.md rule R130). -/

namespace Sys2Proof.Machine

open Sys2Proof

/-- The registers of the map of rule R13, by name. -/
inductive Reg where
  | cmd | ctrl | status | err | errInfo | errType | len
  | pos0 | end0 | pos1 | end1 | remain0 | remain1
  | srcPort | dstPort | vtag | cksum | crcAcc | crcOut
  | cfHdr | cfVoff | cfVlen | pfHdr | pfVoff | pfVlen
  | val | cstart | pstart
  | cknown (i : Fin 8)
  | pknown (i : Fin 16)
  deriving DecidableEq, Repr

/-- R13: the registers at offsets 0x000 to 0x06C, in order. -/
def fixedRegs : List Reg :=
  [.cmd, .ctrl, .status, .err, .errInfo, .errType, .len,
   .pos0, .end0, .pos1, .end1, .remain0, .remain1,
   .srcPort, .dstPort, .vtag, .cksum, .crcAcc, .crcOut,
   .cfHdr, .cfVoff, .cfVlen, .pfHdr, .pfVoff, .pfVlen,
   .val, .cstart, .pstart]

/-- R13: the register at byte offset `4 * slot` of a unit with `N_PREG = n`; `none` for a reserved offset. `CKNOWN` begins at 0x080
(slot 32), `PKNOWN` at 0x0C0 (slot 48); the slots of `PKNOWN` at or above `N_PREG` are reserved (R31). -/
def regAt (n : Nat) (slot : BitVec 6) : Option Reg :=
  if slot.toNat < 28 then fixedRegs[slot.toNat]?
  else if h : 32 ≤ slot.toNat ∧ slot.toNat < 40 then some (.cknown ⟨slot.toNat - 32, by omega⟩)
  else if h : 48 ≤ slot.toNat ∧ slot.toNat < 48 + n then
    some (.pknown ⟨slot.toNat - 48, by have := slot.isLt; omega⟩)
  else none

/-- R13, R31: a register as the host reads it; bits not assigned to a field read 0. -/
def readReg (s : State) : Reg → Word
  | .cmd => 0
  | .ctrl => (BitVec.ofBool s.padTol).setWidth 32
  | .status => statusWord s
  | .err => errWord s
  | .errInfo => s.err.info
  | .errType => errTypeWord s
  | .len => s.len
  | .pos0 => s.pos0
  | .end0 => s.end0
  | .pos1 => s.pos1
  | .end1 => s.end1
  | .remain0 => BitVec.ofNat 32 (curRemaining s .chunk)
  | .remain1 => BitVec.ofNat 32 (curRemaining s .param)
  | .srcPort => s.srcPort.setWidth 32
  | .dstPort => s.dstPort.setWidth 32
  | .vtag => s.vtag
  | .cksum => s.cksum
  | .crcAcc => s.crcAcc
  | .crcOut => s.crcOut
  | .cfHdr => cfHdrWord s
  | .cfVoff => s.cf.voff
  | .cfVlen => s.cf.vlen.setWidth 32
  | .pfHdr => pfHdrWord s
  | .pfVoff => s.pf.voff
  | .pfVlen => s.pf.vlen.setWidth 32
  | .val => s.val
  | .cstart => s.cstart
  | .pstart => s.pstart
  | .cknown i => s.cknown[i]
  | .pknown i => (s.pknown.getD i 0).setWidth 32

/-- R31: `HostRegRead`; a reserved offset reads 0. -/
def hostRegRead (slot : BitVec 6) (s : State) : Word :=
  match regAt s.nPreg slot with
  | some r => readReg s r
  | none => 0

/-- The fault of a host action or an illegal word: raised unless the unit is already FATAL (R17, R48 steps 4 and 5). -/
def fatalUnlessFatal (t : Trap) (s : State) : State := if s.isFatal then s else fatal t s

/-- R48: a write of `CMD` executes the command the word encodes; a word that encodes none faults. -/
def executeWord (w : Word) (s : State) : Host.Outcome State Fault Refusal :=
  match decode w with
  | .ok i => exec i s
  | .error _ => .next (fatalUnlessFatal ⟨.illegalCommand, .illegalEncoding, w, 0⟩ s)

/-- R17: a host write of `LEN` begins a new call, or faults `BAD_LEN` above `MAX_PACKET`. -/
def writeLen (v : Word) (s : State) : State :=
  if s.maxPacket < v.toNat then fatalUnlessFatal ⟨.illegalCommand, .badLen, v, 0⟩ s
  else startActions { s with len := v }

/-- R31: a register write other than of `CMD`; a read-only register keeps its value, and bits not assigned to a field are
dropped. -/
def writeReg (r : Reg) (v : Word) (s : State) : State :=
  match r with
  | .ctrl => { s with padTol := v.getLsbD 0 }
  | .len => writeLen v s
  | .srcPort => { s with srcPort := v.extractLsb' 0 16 }
  | .dstPort => { s with dstPort := v.extractLsb' 0 16 }
  | .vtag => { s with vtag := v }
  | .cknown i => { s with cknown := s.cknown.set i v }
  | .pknown i => { s with pknown := s.pknown.set i (v.extractLsb' 0 17) }
  | _ => s

/-- R31: `HostRegWrite`; a reserved offset is ignored. -/
def hostRegWrite (slot : BitVec 6) (v : Word) (s : State) : Host.Outcome State Fault Refusal :=
  match regAt s.nPreg slot with
  | some .cmd => executeWord v s
  | some r => .next (writeReg r v s)
  | none => .next s

/-- R130: every register takes its reset value and every buffer byte is unspecified again (a fresh free value, log 3); the
parameters and the host's own side stay. -/
def hostReset (s : State) : State :=
  { State.reset with
    pknown := List.replicate s.nPreg 0, maxPacket := s.maxPacket, epoch := s.epoch + 1, pending := s.pending, hostRead := s.hostRead }

/-- One access of the host. A read changes no register: only what the host has read (R31, log 6). -/
def takeAccess (a : HostAccess) (s : State) : Host.Outcome State Fault Refusal :=
  match a with
  | .regRead slot => .next { s with hostRead := some (hostRegRead slot s) }
  | .regWrite slot v => hostRegWrite slot v s
  | .bufRead offset => .next { s with hostRead := some ((bufRead s offset).setWidth 32) }
  | .bufWrite offset b => .next (bufWrite offset [b] s)
  | .reset => .next (hostReset s)

/-- The fetch: the oldest pending access, and the state without it. With nothing pending there is none (R10). -/
def fetchAccess (s : State) : Option (HostAccess × State) :=
  match s.pending with
  | [] => none
  | a :: rest => some (a, { s with pending := rest })

/-- The access that issues a command: a write of `CMD` (slot 0). -/
def commandAccess (w : Word) : HostAccess := .regWrite 0 w

end Sys2Proof.Machine
end

