-- ==== Sys2Proof/Machine/Step.lean ====
section
/-! DEFINITION. One step of the machine: the unit takes the host's oldest access to its end (20_memory.md rule R37); with no
access pending the state does not change (10_state.md rule R10). -/

namespace Sys2Proof.Machine

open Sys2Proof

/-- One step. -/
def step (s : State) : Host.Outcome State Fault Refusal :=
  match fetchAccess s with
  | none => .next s
  | some (a, t) => takeAccess a t

/-- The state whose next access is the write of this word to `CMD` (log 5). -/
def State.withFetchWord (s : State) (nbits w : Nat) : State :=
  { s with pending := commandAccess (BitVec.ofNat 32 (w % 2 ^ nbits)) :: s.pending }

end Sys2Proof.Machine
end

