-- ==== Sys2Proof/Machine/Sequences.lean ====
section
/-! DEFINITION. The host sequences of 45_entry_points.md (rules R104 to R106) and the directives of 30_encoding.md rule R49, as
lists of accesses, and the data a host collects from a chunk walk (rule R109). What the host decides itself (the steps
marked `H:`) is outside the unit. -/

namespace Sys2Proof.Machine

open Sys2Proof

/-- The write of `CMD` that issues a command. -/
def issue (i : Instr) : HostAccess := commandAccess (encode i)

/-- `.len n` (R49): slot 6, offset 0x018. -/
def setLen (n : Nat) : HostAccess := .regWrite 6 (BitVec.ofNat 32 n)

/-- `.buf offset: bytes` (R49); also what a wider bus write comes to, single bytes in ascending order (20_memory.md rule
R32). -/
def bufRun : Nat → List Byte → List HostAccess
  | _, [] => []
  | a, b :: bs => .bufWrite a b :: bufRun (a + 1) bs

/-- R104, R106: the bytes are loaded at offset 0 and the call is started. -/
def loadBytes (bytes : List Byte) : List HostAccess := bufRun 0 bytes ++ [setLen bytes.length]

/-- R104: `decode_packet` up to its first chunk: load, decode the header, verify the checksum. -/
def decodePacketStart (bytes : List Byte) : List HostAccess :=
  loadBytes bytes ++ [issue .hdrDec, issue .csumVerify]

/-- A parameter as the host encodes it (R106): its type and its value bytes. -/
structure ParamImage where
  type : Half
  value : List Byte
  deriving DecidableEq, Repr

/-- A chunk as the host encodes it (R105): type, flags, the value bytes before its parameter list, and the parameters. -/
structure ChunkPlan where
  type : Byte
  flags : Byte
  lead : List Byte
  params : List ParamImage
  deriving DecidableEq, Repr

/-- R106: `PRM.OPEN`, the value bytes, `PRM.CLOSE`. -/
def paramCommands (p : ParamImage) : List Instr :=
  .prmOpen p.type :: p.value.map .bufPut ++ [.prmClose]

/-- R105: `CHK.OPEN`, the value, `CHK.CLOSE`. -/
def chunkCommands (c : ChunkPlan) : List Instr :=
  .chkOpen c.type c.flags :: c.lead.map .bufPut ++ c.params.flatMap paramCommands ++ [.chkClose]

/-- R42, R43: a parameter on the wire: header, value, zero padding. -/
def paramBytes (p : ParamImage) : List Byte :=
  be16 p.type ++ be16 (BitVec.ofNat 16 (4 + p.value.length)) ++ p.value ++ List.replicate (pad (4 + p.value.length)) 0

/-- The value of a chunk on the wire: the leading bytes, then the parameters with their padding (R100). -/
def chunkValue (c : ChunkPlan) : List Byte := c.lead ++ c.params.flatMap paramBytes

/-- The length of a chunk, header and value (R43). -/
def chunkLength (c : ChunkPlan) : Nat := 4 + (chunkValue c).length

/-- R41, R43: a chunk on the wire: header, value, zero padding. -/
def chunkBytes (c : ChunkPlan) : List Byte :=
  [c.type, c.flags] ++ be16 (BitVec.ofNat 16 (chunkLength c)) ++ chunkValue c ++ List.replicate (pad (chunkLength c)) 0

/-- R105: `encode_packet`, up to the reading of the bytes. `SRC_PORT`, `DST_PORT`, `VTAG` are slots 13, 14, 15. -/
def encodePacket (src dst : Half) (tag : Word) (chunks : List ChunkPlan) : List HostAccess :=
  [setLen 0, .regWrite 13 (src.setWidth 32), .regWrite 14 (dst.setWidth 32), .regWrite 15 tag, issue .hdrEnc]
    ++ (chunks.flatMap chunkCommands).map issue ++ [issue .csumPatch]

/-- R106: the symmetric encode of `decode_param_list`. -/
def encodeParamList (params : List ParamImage) : List HostAccess :=
  setLen 0 :: (params.flatMap paramCommands).map issue

/-- `n` bytes of the buffer from offset `a`, in ascending order. -/
def bufBytes (s : State) (a n : Nat) : List Byte := (List.range n).map fun i => bufRead s (a + i)

/-- The type, flags and value bytes of a chunk (R109). -/
structure ChunkImage where
  type : Byte
  flags : Byte
  value : List Byte
  deriving DecidableEq, Repr

/-- What a decoder returns of a chunk built by a plan. -/
def chunkImage (c : ChunkPlan) : ChunkImage := ⟨c.type, c.flags, chunkValue c⟩

/-- R109: the chunk in hand. -/
def currentChunk (s : State) : ChunkImage := ⟨s.cf.type, s.cf.flags, bufBytes s s.cf.voff.toNat s.cf.vlen.toNat⟩

/-- R106, R109: the parameter in hand. -/
def currentParam (s : State) : ParamImage := ⟨s.pf.type, bufBytes s s.pf.voff.toNat s.pf.vlen.toNat⟩

/-- R104's loop, at most `n` times: `CHK.NEXT` until `END`, collecting every `FRAME` in order; `NOTICE` frames are passed over;
nothing is returned of a call that faults. -/
def walkChunks : Nat → State → Option (List ChunkImage × State)
  | 0, _ => none
  | n + 1, s =>
    match exec .chkNext s with
    | .next t =>
      match t.res0 with
      | .frame => (walkChunks n t).map fun r => (currentChunk t :: r.1, r.2)
      | .notice => walkChunks n t
      | .finished => some ([], t)
      | .none => none
    | _ => none

/-- R106's loop, at most `n` times, as `walkChunks` at the parameter level. -/
def walkParams : Nat → State → Option (List ParamImage × State)
  | 0, _ => none
  | n + 1, s =>
    match exec .prmNext s with
    | .next t =>
      match t.res1 with
      | .frame => (walkParams n t).map fun r => (currentParam t :: r.1, r.2)
      | .notice => walkParams n t
      | .finished => some ([], t)
      | .none => none
    | _ => none

/-- R104, R106, as a host runs them that knows the prefix length of each chunk: for each length `k`, `CHK.NEXT` must return a frame;
`PRM.ENTER k` and the parameter loop collect its parameters; the chunk walk then goes on, and must end after the last length. The
parameter loop is bounded as `NextFrame` is: a parameter takes 4 bytes or more of the chunk's value. -/
def walkNested : List Nat → State → Option (List (ChunkImage × List ParamImage) × State)
  | [], s => (walkChunks 1 s).map fun r => ([], r.2)
  | k :: ks, s =>
    match exec .chkNext s with
    | .next t =>
      match t.res0, exec (.prmEnter (BitVec.ofNat 16 k)) t with
      | .frame, .next u =>
        match walkParams (curRemaining u .param / 4 + 1) u with
        | some (ps, v) => (walkNested ks v).map fun r => ((currentChunk t, ps) :: r.1, r.2)
        | none => none
      | _, _ => none
    | _ => none

/-- Commands executed one after the other (20_memory.md rule R37). -/
def runCommands : List Instr → State → State
  | [], s => s
  | i :: is, s =>
    match exec i s with
    | .next t => runCommands is t
    | _ => s

end Sys2Proof.Machine
end

