-- ==== Sys2Proof/Safety.lean ====
section
/-! DEFINITION. What a safe state is, in the terms the statements use: the invariants (a) to (g) of 10_state.md rule R27, the
parameters' ranges (00_scope.md rule R3), the buffer's canonical form and the coherence of the error registers (10_state.md
rule R23, 60_exceptions.md rule R111). -/

namespace Sys2Proof.Machine

open Sys2Proof

/-- R3: the range of `MAX_PACKET`. -/
abbrev CapacityLegal (s : State) : Prop := 12 ≤ s.maxPacket ∧ s.maxPacket ≤ 2 ^ 31 - 1

/-- R3: the range of `N_PREG`. -/
abbrev RegistryLegal (s : State) : Prop := 1 ≤ s.nPreg ∧ s.nPreg ≤ 16

/-- R11: the buffer is in canonical form and has no byte outside `0 .. MAX_PACKET-1`. -/
abbrev BufferLegal (s : State) : Prop := Memory.wf s.buf = true ∧ Memory.within s.maxPacket s.buf = true

/-- R27(a). -/
abbrev CursorsInBounds (s : State) : Prop :=
  s.pos0.toNat ≤ s.end0.toNat ∧ s.end0.toNat ≤ s.len.toNat ∧ s.pos1.toNat ≤ s.end1.toNat ∧ s.end1.toNat ≤ s.len.toNat
    ∧ s.len.toNat ≤ s.maxPacket

/-- R27(b), (c) for the chunk level. -/
abbrev ChunkFrameCoherent (s : State) : Prop :=
  (s.cf.valid = true → 4 ≤ s.cf.length.toNat ∧ s.cf.vlen.toNat = s.cf.length.toNat - 4 ∧ 4 ≤ s.cf.voff.toNat
    ∧ s.cf.voff.toNat + s.cf.vlen.toNat + pad s.cf.length.toNat ≤ s.pos0.toNat)
  ∧ (s.cf.valid = false → s.cf = ChunkFrame.clear)

/-- R27(b), (c) for the parameter level. -/
abbrev ParamFrameCoherent (s : State) : Prop :=
  (s.pf.valid = true → 4 ≤ s.pf.length.toNat ∧ s.pf.vlen.toNat = s.pf.length.toNat - 4 ∧ 4 ≤ s.pf.voff.toNat
    ∧ s.pf.voff.toNat + s.pf.vlen.toNat + pad s.pf.length.toNat ≤ s.pos1.toNat)
  ∧ (s.pf.valid = false → s.pf = ParamFrame.clear)

/-- R27(d): what `RES` says of a level's frame registers. -/
abbrev ResultCoherent (res : Res) (valid isKnown : Bool) : Prop :=
  (res = .frame ↔ valid = true ∧ isKnown = true) ∧ (res = .notice ↔ valid = true ∧ isKnown = false)
    ∧ ((res = .none ∨ res = .finished) ↔ valid = false)

/-- R27(e). -/
abbrev FatalOffersNothing (s : State) : Prop :=
  s.err.kind ≠ .none →
    s.cf.valid = false ∧ s.pf.valid = false ∧ s.hdrValid = false ∧ s.res0 = .none ∧ s.res1 = .none

/-- R27(f). -/
abbrev OpenFramesInBuffer (s : State) : Prop :=
  (s.copen = true → s.cstart.toNat + 4 ≤ s.len.toNat) ∧ (s.popen = true → s.pstart.toNat + 4 ≤ s.len.toNat)
    ∧ (s.copen = true → s.popen = true → s.cstart.toNat + 4 ≤ s.pstart.toNat)

/-- R27(g), R23, R111: kind 3 is never latched, the kind is its cause's, and no error means that all read 0. -/
abbrev ErrorCoherent (s : State) : Prop :=
  s.err.kind ≠ .checksumMismatch ∧ s.err.kind = causeKind s.err.cause
    ∧ (s.err.kind = .none → s.err.info = 0 ∧ s.err.etype = 0)

/-- The machine's invariant. -/
structure Inv (s : State) : Prop where
  capacity : CapacityLegal s
  registry : RegistryLegal s
  buffer : BufferLegal s
  cursors : CursorsInBounds s
  chunkFrame : ChunkFrameCoherent s
  paramFrame : ParamFrameCoherent s
  result0 : ResultCoherent s.res0 s.cf.valid s.cf.known
  result1 : ResultCoherent s.res1 s.pf.valid s.pf.known
  fatal : FatalOffersNothing s
  openFrames : OpenFramesInBuffer s
  error : ErrorCoherent s

/-- The two states differ at most in buffer bytes at or above `LEN`: everything a command may look at is the same
(20_memory.md rule R35(a)). -/
structure AgreeBelowLen (s t : State) : Prop where
  registers : t = { s with buf := t.buf, epoch := t.epoch }
  bytes : ∀ a, a < s.len.toNat → bufRead t a = bufRead s a

/-- What a decode call produces and goes on from (10_state.md rule R29): its outcomes, frame registers, faults and cursors,
and what it found of the checksum. -/
structure CallView where
  pos0 : Word
  end0 : Word
  pos1 : Word
  end1 : Word
  cf : ChunkFrame
  pf : ParamFrame
  val : Word
  hdrValid : Bool
  ckDone : Bool
  ckBad : Bool
  stop0 : Bool
  stop1 : Bool
  res0 : Res
  res1 : Res
  err : ErrRegs
  deriving DecidableEq, Repr

/-- The call view of a state. -/
def callView (s : State) : CallView :=
  ⟨s.pos0, s.end0, s.pos1, s.end1, s.cf, s.pf, s.val, s.hdrValid, s.ckDone, s.ckBad, s.stop0, s.stop1, s.res0, s.res1, s.err⟩

/-- R29: the two states agree on the inputs of a decode call: `BUF[0 .. LEN-1]`, `LEN`, `CTRL`, `CKNOWN`, `PKNOWN`. -/
structure SameCallInputs (s t : State) : Prop where
  len : t.len = s.len
  bytes : ∀ a, a < s.len.toNat → bufRead t a = bufRead s a
  padTol : t.padTol = s.padTol
  cknown : t.cknown = s.cknown
  pknown : t.pknown = s.pknown

/-- The commands of a decode call (45_entry_points.md rules R104, R106). -/
def decodeCommand : Instr → Bool
  | .nop | .start | .hdrDec | .csumVerify | .chkNext | .prmEnter _ | .prmNext => true
  | .valU8 _ _ | .valU16 _ _ | .valU32 _ _ | .valReject _ | .valBadlen _ => true
  | .crcInit | .crcByte _ | .crcFin | .hdrEnc | .csumPatch => false
  | .bufPut _ | .chkOpen _ _ | .chkClose | .prmOpen _ | .prmClose => false

end Sys2Proof.Machine
end

