-- ==== Sys2Proof/Certificates/Slice0/Obligations.lean ====
section
/-! DEFINITION. The statements for the provers. Each docstring names the rules of spec/ it formalises. In all of them a state is
any state of the model unless a hypothesis says otherwise, and `s.err.kind = .none` says that the unit is not FATAL. -/

open Sys2Proof Sys2Proof.Machine

namespace Sys2Proof.Statements

/-- `CHK.NEXT` at the chunk level, `PRM.NEXT` at the parameter level. -/
def nextCommand : Level → Instr
  | .chunk => .chkNext
  | .param => .prmNext

/-- The length field of the frame at the cursor of a level. -/
def frameLen (s : State) (lv : Level) : Nat := (rd16 s ((s.pos lv).toNat + 2)).toNat

/-- The frame at the cursor of a level passes every framing check (43_tlv_decode.md rule R82, steps 1 to 7). -/
def wellFramed (s : State) (lv : Level) : Prop :=
  4 ≤ frameLen s lv ∧ frameLen s lv + pad (frameLen s lv) ≤ curRemaining s lv
    ∧ (s.padTol = true ∨ ∀ j, j < pad (frameLen s lv) → bufRead s ((s.pos lv).toNat + frameLen s lv + j) = 0)

/-- The offset behind the frame at the cursor and its padding. -/
def frameNext (s : State) (lv : Level) : Word :=
  BitVec.ofNat 32 ((s.pos lv).toNat + frameLen s lv + pad (frameLen s lv))

/-- The checksum of the packet in the buffer (41_crc32c.md rule R64): the CRC32c of the bytes with the checksum field zeroed. -/
def packetChecksum (s : State) : Word :=
  crc32c (bufBytes s 0 8 ++ [0, 0, 0, 0] ++ bufBytes s 12 (s.len.toNat - 12))

/-- The causes a command can raise (60_exceptions.md rule R112). -/
def causesOf : Instr → List ErrCause
  | .nop | .start | .crcInit | .crcByte _ | .crcFin => []
  | .hdrDec => [.badSequence, .hdrShort]
  | .hdrEnc => [.badSequence]
  | .csumVerify => [.hdrShort]
  | .csumPatch => [.badSequence, .hdrShort]
  | .chkNext | .prmNext => [.frameHdrShort, .lenLt4, .lenGtRemain, .padAbsent, .padNonzero, .unkStopReport]
  | .prmEnter _ | .valU8 _ _ | .valU16 _ _ | .valU32 _ _ => [.badSequence, .valOob]
  | .valReject _ => [.badSequence, .valueRejected]
  | .valBadlen _ => [.badSequence, .recRemainder]
  | .bufPut _ => [.bufFull]
  | .chkOpen _ _ | .prmOpen _ => [.badSequence, .bufFull]
  | .chkClose | .prmClose => [.badSequence, .frameTooLong, .bufFull]

/-- The offsets a completing command may write (20_memory.md rule R35(b)): the bytes appended at `LEN`, the length field of the
frame it closes, the checksum field. -/
def mayWrite (i : Instr) (s t : State) (a : Nat) : Prop :=
  match i with
  | .hdrEnc | .bufPut _ | .chkOpen _ _ | .prmOpen _ => s.len.toNat ≤ a ∧ a < t.len.toNat
  | .chkClose => (s.len.toNat ≤ a ∧ a < t.len.toNat) ∨ a = s.cstart.toNat + 2 ∨ a = s.cstart.toNat + 3
  | .prmClose => (s.len.toNat ≤ a ∧ a < t.len.toNat) ∨ a = s.pstart.toNat + 2 ∨ a = s.pstart.toNat + 3
  | .csumPatch => 8 ≤ a ∧ a ≤ 11
  | _ => False

/-- `lv << 16`: the level operand in its place in the word (30_encoding.md rule R46). -/
def levelWord : Level → Word
  | .chunk => 0
  | .param => 0x00010000

end Sys2Proof.Statements

open Sys2Proof.Statements

/-! ## Encoding -/

/-- R45 to R47: every command's word decodes to the command, with every operand at every value. -/
def Obligations.DecodeOfEncodeIsTheCommand : Prop :=
  ∀ i : Instr, decode (encode i) = .ok i

/-- R45 to R47, the other direction: a word that decodes is the word of the command it decodes to. -/
def Obligations.EncodeOfDecodeIsTheWord : Prop :=
  ∀ (w : Word) (i : Instr), decode w = .ok i → encode i = w

/-- R47, R48: a word encodes a row's command exactly when `(w and mask) = match`; what matches no row is illegal, and nothing else
is. -/
def Obligations.DecodeFollowsTheOpcodeMap : Prop :=
  (∀ (w : Word) (r : Row), r ∈ opcodeMap → (w &&& r.mask = r.matchWord ↔ ∃ i, decode w = .ok i ∧ i.mnemonic = r.mnemonic))
  ∧ ∀ w : Word, (∃ e, decode w = .error e) ↔ ∀ r ∈ opcodeMap, w &&& r.mask ≠ r.matchWord

/-- R46: every operand is its field of the word, unsigned, unscaled, unshifted. -/
def Obligations.OperandsAreTheFieldsOfTheWord : Prop :=
  ∀ (w : Word) (i : Instr), decode w = .ok i →
    match i with
    | .crcByte b | .bufPut b => b = w.extractLsb' 0 8
    | .prmEnter k | .prmOpen k => k = w.extractLsb' 0 16
    | .valU8 lv off | .valU16 lv off | .valU32 lv off =>
      off = w.extractLsb' 0 16 ∧ (lv = .param ↔ w.getLsbD 16 = true)
    | .valReject lv | .valBadlen lv => lv = .param ↔ w.getLsbD 16 = true
    | .chkOpen t f => t = w.extractLsb' 0 8 ∧ f = w.extractLsb' 16 8
    | _ => True

/-- R47, R48: words written out from the rule's rows and examples. -/
def Obligations.SampleWordsDecode : Prop :=
  decode 0x00000000 = .ok .nop ∧ decode 0x11000031 = .ok (.crcByte 0x31) ∧ decode 0x20000000 = .ok .hdrDec
    ∧ decode 0x35010004 = .ok (.valU32 .param 4) ∧ decode 0x37000000 = .ok (.valBadlen .chunk)
    ∧ decode 0x41030004 = .ok (.chkOpen 0x04 0x03) ∧ decode 0x43008008 = .ok (.prmOpen 0x8008)
    ∧ decode 0x01000001 = .error .mustBeZero ∧ decode 0x11000100 = .error .mustBeZero
    ∧ decode 0x33020000 = .error .mustBeZero ∧ decode 0xFFFFFFFF = .error .unusedOp

/-! ## Step and dispatch -/

/-- R10, R37: a step takes the host's oldest access, and with none pending changes nothing. When that access writes to `CMD` a word
that decodes to a command, the step is the command's execution, on the state without the access. -/
def Obligations.StepRunsTheDecodedCommand : Prop :=
  (∀ s : State, s.pending = [] → step s = .next s)
  ∧ (∀ (s : State) (w : Word) (rest : List HostAccess) (i : Instr),
      s.pending = .regWrite 0 w :: rest → decode w = .ok i → step s = exec i { s with pending := rest })

/-- R48: the order of dispatch of a word written to `CMD`. -/
def Obligations.DispatchOrderOfACommandWord : Prop :=
  ∀ (s : State) (w : Word) (rest : List HostAccess), s.pending = .regWrite 0 w :: rest →
    (decode w = .ok .nop → step s = .next { s with pending := rest })
    ∧ (decode w = .ok .start → step s = .next (startActions { s with pending := rest }))
    ∧ (decode w ≠ .ok .nop → decode w ≠ .ok .start → s.err.kind ≠ .none → step s = .next { s with pending := rest })
    ∧ (s.err.kind = .none → legalWord w = false →
        step s = .next (fatal ⟨.illegalCommand, .illegalEncoding, w, 0⟩ { s with pending := rest }))
    ∧ (∀ i, s.err.kind = .none → decode w = .ok i → step s = exec i { s with pending := rest })

/-- R9: no access hangs or stops the machine. -/
def Obligations.EveryStepAnswersANextState : Prop :=
  ∀ s : State, ∃ t, step s = .next t

/-! ## Faults and calls -/

/-- R115: while FATAL every command but `NOP` and `START`, every illegal word and every `LEN` write above `MAX_PACKET` changes
nothing, and the host's other accesses work as usual. -/
def Obligations.FatalUnitRefusesCommands : Prop :=
  ∀ s : State, s.err.kind ≠ .none →
    (∀ i, i ≠ .nop → i ≠ .start → exec i s = .next s)
    ∧ (∀ w, legalWord w = false → takeAccess (.regWrite 0 w) s = .next s)
    ∧ (∀ v : Word, s.maxPacket < v.toNat → takeAccess (.regWrite 6 v) s = .next s)
    ∧ (∀ v, takeAccess (.regWrite 1 v) s = .next { s with padTol := v.getLsbD 0 })
    ∧ (∀ v, takeAccess (.regWrite 13 v) s = .next { s with srcPort := v.extractLsb' 0 16 })
    ∧ (∀ v, takeAccess (.regWrite 14 v) s = .next { s with dstPort := v.extractLsb' 0 16 })
    ∧ (∀ v, takeAccess (.regWrite 15 v) s = .next { s with vtag := v })
    ∧ (∀ (i : Fin 8) (v : Word),
        takeAccess (.regWrite (BitVec.ofNat 6 (32 + i)) v) s = .next { s with cknown := s.cknown.set i v })
    ∧ (∀ (i : Nat) (v : Word), i < s.nPreg → i < 16 →
        takeAccess (.regWrite (BitVec.ofNat 6 (48 + i)) v) s = .next { s with pknown := s.pknown.set i (v.extractLsb' 0 17) })
    ∧ (∀ (o : Nat) (b : Byte), takeAccess (.bufWrite o b) s = .next (bufWrite o [b] s))
    ∧ (∀ slot, takeAccess (.regRead slot) s = .next { s with hostRead := some (hostRegRead slot s) })
    ∧ (∀ o, takeAccess (.bufRead o) s = .next { s with hostRead := some ((bufRead s o).setWidth 32) })

/-- R114, R121: a command that faults latches the error registers, clears both frame groups, `RES0`, `RES1` and `HDR_VALID`, and
changes nothing else, but that `CHK.NEXT` and `PRM.NEXT` keep their cursor's advance over skipped frames. -/
def Obligations.FaultsArePrecise : Prop :=
  ∀ (i : Instr) (s t : State), s.err.kind = .none → exec i s = .next t → t.err.kind ≠ .none →
    t = { s with err := t.err, cf := ⟨0, 0, 0, 0, 0, false, false⟩, pf := ⟨0, 0, 0, 0, false, false⟩, res0 := .none,
                 res1 := .none, hdrValid := false, pos0 := t.pos0, pos1 := t.pos1 }
    ∧ (i ≠ .chkNext → t.pos0 = s.pos0) ∧ (i ≠ .prmNext → t.pos1 = s.pos1)

/-- R112 and R111: which command raises which cause, and that the kind latched is the cause's. -/
def Obligations.CommandsRaiseOnlyTheirCauses : Prop :=
  ∀ (i : Instr) (s t : State), s.err.kind = .none → exec i s = .next t → t.err.kind ≠ .none →
    t.err.cause ∈ causesOf i ∧ t.err.kind = causeKind t.err.cause

/-- R121: after a fault of `CHK.NEXT` or `PRM.NEXT` the cursor stands at the start of the faulting frame, and `ERR_INFO` is that
offset, or the offset where its padding should start, or of its first nonzero padding byte. -/
def Obligations.FrameFaultsReportTheFrame : Prop :=
  ∀ (lv : Level) (s t : State), s.err.kind = .none → exec (nextCommand lv) s = .next t → t.err.kind ≠ .none →
    (s.pos lv).toNat ≤ (t.pos lv).toNat
    ∧ (t.err.cause ∈ [.frameHdrShort, .lenLt4, .lenGtRemain, .unkStopReport] → t.err.info = t.pos lv)
    ∧ (t.err.cause = .padAbsent → t.err.info.toNat = (t.pos lv).toNat + frameLen t lv)
    ∧ (t.err.cause = .padNonzero → ∃ j, j ≤ 2 ∧ t.err.info.toNat = (t.pos lv).toNat + frameLen t lv + j
        ∧ bufRead t ((t.pos lv).toNat + frameLen t lv + j) ≠ 0
        ∧ ∀ k, k < j → bufRead t ((t.pos lv).toNat + frameLen t lv + k) = 0)

/-- R7, R113: `ERR_TYPE` is `type or (action << 16) or (lv << 18)`, the action being the two top bits of the type. -/
def Obligations.TypeDetailIsTypeActionAndLevel : Prop :=
  (∀ t : Byte, (typeDetail .chunk (t.setWidth 16)).toNat = t.toNat + t.toNat / 64 * 65536)
  ∧ (∀ t : Half, (typeDetail .param t).toNat = t.toNat + t.toNat / 16384 * 65536 + 262144)

/-- R53: `NOP` is the word 0, completes in every state, FATAL or not, and changes nothing; any other word with `op` 0 is illegal. -/
def Obligations.NopChangesNothing : Prop :=
  (∀ s : State, exec .nop s = .next s) ∧ encode .nop = 0
    ∧ ∀ w : Word, w.extractLsb' 24 8 = 0 → w ≠ 0 → ∃ e, decode w = .error e

/-- R54: `START` completes in every state, FATAL or not: it begins a new call over `[0, LEN)` and clears the fault; a legal
`LEN` write does the same over `[0, v)`. -/
def Obligations.StartBeginsACall : Prop :=
  encode .start = 0x01000000 ∧ ∀ s : State,
    exec .start s = .next
      { s with err := ⟨.none, .none, 0, 0⟩, hdrValid := false, ckDone := false, ckBad := false, stop0 := false, stop1 := false,
               copen := false, popen := false, res0 := .none, res1 := .none, cf := ⟨0, 0, 0, 0, 0, false, false⟩,
               pf := ⟨0, 0, 0, 0, false, false⟩, val := 0, pos0 := 0, end0 := s.len, pos1 := 0, end1 := s.len }
    ∧ ∀ v : Word, v.toNat ≤ s.maxPacket →
        takeAccess (.regWrite 6 v) s = .next
          { s with len := v, err := ⟨.none, .none, 0, 0⟩, hdrValid := false, ckDone := false, ckBad := false, stop0 := false,
                   stop1 := false, copen := false, popen := false, res0 := .none, res1 := .none,
                   cf := ⟨0, 0, 0, 0, 0, false, false⟩, pf := ⟨0, 0, 0, 0, false, false⟩, val := 0, pos0 := 0, end0 := v,
                   pos1 := 0, end1 := v }

/-! ## CRC32c -/

/-- R65, R66: `CRC.INIT` and `CRC.BYTE` complete whenever the unit is not FATAL, and write `CRC_ACC` only. -/
def Obligations.CrcInitAndByteWriteTheAccumulator : Prop :=
  encode .crcInit = 0x10000000 ∧ (∀ b : Byte, encode (.crcByte b) = 0x11000000 ||| b.setWidth 32)
  ∧ ∀ s : State, s.err.kind = .none →
    exec .crcInit s = .next { s with crcAcc := 0xFFFFFFFF }
    ∧ ∀ b : Byte, exec (.crcByte b) s = .next { s with crcAcc := crcUpd s.crcAcc b }

/-- R67: `CRC.FIN` completes whenever the unit is not FATAL and writes `CRC_OUT` only. The second clause is the sentence R67 marks as
derived: after `CRC.INIT` and a `CRC.BYTE` for each byte it leaves the CRC32c of the bytes. The third is R67's continuation: more
bytes and `CRC.FIN` again leave the CRC32c of the longer sequence. -/
def Obligations.CrcFinGivesTheChecksum : Prop :=
  encode .crcFin = 0x12000000
  ∧ (∀ s : State, s.err.kind = .none → exec .crcFin s = .next { s with crcOut := s.crcAcc ^^^ 0xFFFFFFFF })
  ∧ (∀ (s : State) (d : List Byte) (rest : List HostAccess), s.err.kind = .none →
      s.pending = (.crcInit :: (crcStr d ++ [.crcFin])).map issue ++ rest →
      Sys2Proof.core.run (d.length + 2) s =
        .next { s with crcAcc := crc32c d ^^^ 0xFFFFFFFF, crcOut := crc32c d, pending := rest })
  ∧ ∀ (s : State) (d e : List Byte) (rest : List HostAccess), s.err.kind = .none → s.crcAcc = crc32c d ^^^ 0xFFFFFFFF →
      s.pending = (crcStr e ++ [Instr.crcFin]).map issue ++ rest →
      Sys2Proof.core.run (e.length + 1) s =
        .next { s with crcAcc := crc32c (d ++ e) ^^^ 0xFFFFFFFF, crcOut := crc32c (d ++ e), pending := rest }

/-- R62: the byte update with the table and the one without are the same function. -/
def Obligations.CrcUpdateNeedsNoTable : Prop :=
  ∀ (acc : Word) (b : Byte), crcUpd acc b = crcShift8 (acc ^^^ b.setWidth 32)

/-- R68: changing one byte of a packet that verifies makes it fail to verify, in the checksum field or outside it. -/
def Obligations.SingleByteMutationIsDetected : Prop :=
  ∀ (s t u : State) (k : Nat), s.err.kind = .none → exec .csumVerify s = .next u → u.err.kind = .none → u.ckBad = false →
    t = { s with buf := t.buf } → k < s.len.toNat → bufRead t k ≠ bufRead s k → (∀ a, a ≠ k → bufRead t a = bufRead s a) →
    ∃ v, exec .csumVerify t = .next v ∧ v.err.kind = .none ∧ v.ckDone = true ∧ v.ckBad = true

/-! ## Header codec -/

/-- R70: `HDR.DEC`. -/
def Obligations.HdrDecLoadsTheHeader : Prop :=
  ∀ s : State, s.err.kind = .none →
    (s.pos0 = 0 → s.hdrValid = false → 12 ≤ s.end0.toNat →
      exec .hdrDec s = .next
        { s with srcPort := rd16 s 0, dstPort := rd16 s 2, vtag := rd32 s 4, cksum := rd32 s 8, pos0 := 12, hdrValid := true })
    ∧ (s.pos0 = 0 → s.hdrValid = false → s.end0.toNat < 12 →
      exec .hdrDec s = .next (fatal ⟨.truncated, .hdrShort, 0, 0⟩ s))
    ∧ (s.pos0 ≠ 0 ∨ s.hdrValid = true →
      exec .hdrDec s = .next (fatal ⟨.illegalCommand, .badSequence, 0x20000000, 0⟩ s))

/-- R71: `HDR.ENC`: the 12 bytes appended, and every other byte and register as before. -/
def Obligations.HdrEncAppendsTheHeader : Prop :=
  ∀ s : State, s.err.kind = .none → 12 ≤ s.maxPacket →
    (s.len = 0 → ∃ t, exec .hdrEnc s = .next t ∧ t = { s with buf := t.buf, len := 12 }
      ∧ bufBytes t 0 12 =
          [s.srcPort.extractLsb' 8 8, s.srcPort.extractLsb' 0 8, s.dstPort.extractLsb' 8 8, s.dstPort.extractLsb' 0 8,
           s.vtag.extractLsb' 24 8, s.vtag.extractLsb' 16 8, s.vtag.extractLsb' 8 8, s.vtag.extractLsb' 0 8, 0, 0, 0, 0]
      ∧ ∀ a, 12 ≤ a → bufRead t a = bufRead s a)
    ∧ (s.len ≠ 0 → exec .hdrEnc s = .next (fatal ⟨.illegalCommand, .badSequence, 0x21000000, 0⟩ s))

/-- R64, R72: `CSUM.VERIFY`: a mismatch is a flag and no fault. -/
def Obligations.CsumVerifyComparesTheChecksum : Prop :=
  encode .csumVerify = 0x22000000 ∧ ∀ s : State, s.err.kind = .none →
    (12 ≤ s.len.toNat →
      exec .csumVerify s = .next
        { s with crcAcc := packetChecksum s ^^^ 0xFFFFFFFF, crcOut := packetChecksum s, ckDone := true,
                 ckBad := decide (packetChecksum s ≠ rd32 s 8) })
    ∧ (s.len.toNat < 12 → exec .csumVerify s = .next (fatal ⟨.truncated, .hdrShort, s.len, 0⟩ s))

/-- R73 with R64: `CSUM.PATCH`: the checksum at offsets 8 to 11, big-endian, and every other byte as before; a second `CSUM.PATCH`
changes nothing. That `CSUM.VERIFY` afterwards finds the checksum right is the sentence R73 marks as derived from R72 and R64. -/
def Obligations.CsumPatchStoresTheChecksum : Prop :=
  ∀ s : State, s.err.kind = .none → 12 ≤ s.maxPacket →
    (s.copen = false → s.popen = false → 12 ≤ s.len.toNat →
      ∃ t, exec .csumPatch s = .next t
        ∧ t = { s with buf := t.buf, cksum := packetChecksum s, crcAcc := packetChecksum s ^^^ 0xFFFFFFFF,
                       crcOut := packetChecksum s }
        ∧ rd32 t 8 = packetChecksum s ∧ (∀ a, ¬ (8 ≤ a ∧ a ≤ 11) → bufRead t a = bufRead s a)
        ∧ (∃ u, exec .csumVerify t = .next u ∧ u.ckDone = true ∧ u.ckBad = false ∧ u.err.kind = .none)
        ∧ (Memory.wf s.buf = true → exec .csumPatch t = .next t))
    ∧ (s.copen = false → s.popen = false → s.len.toNat < 12 →
      exec .csumPatch s = .next (fatal ⟨.truncated, .hdrShort, s.len, 0⟩ s))
    ∧ (s.copen = true ∨ s.popen = true →
      exec .csumPatch s = .next (fatal ⟨.illegalCommand, .badSequence, 0x23000000, 0⟩ s))

/-- R74: the header round trip: `.len 0`, `HDR.ENC`, `CSUM.PATCH`, `START`, `HDR.DEC`. -/
def Obligations.HeaderRoundTrip : Prop :=
  ∀ (s : State) (rest : List HostAccess), 12 ≤ s.maxPacket →
    s.pending = setLen 0 :: [Instr.hdrEnc, .csumPatch, .start, .hdrDec].map issue ++ rest →
    ∃ t, Sys2Proof.core.run 5 s = .next t ∧ t.pending = rest ∧ t.err.kind = .none ∧ t.srcPort = s.srcPort
      ∧ t.dstPort = s.dstPort ∧ t.vtag = s.vtag ∧ t.cksum = t.crcOut ∧ t.cksum = packetChecksum t ∧ t.hdrValid = true
      ∧ t.pos0 = 12 ∧ t.end0 = 12

/-! ## TLV decode -/

/-- R6: the padding function. -/
def Obligations.PaddingCompletesTheWord : Prop :=
  ∀ l : Nat, (l + pad l) % 4 = 0 ∧ pad l ≤ 3
    ∧ pad l = if l % 4 = 0 then 0 else if l % 4 = 1 then 3 else if l % 4 = 2 then 2 else 1

/-- R5, R33: two and four byte reads are big-endian. -/
def Obligations.WideReadsAreBigEndian : Prop :=
  ∀ (s : State) (a : Nat),
    (rd16 s a).toNat = (rd8 s a).toNat * 256 + (rd8 s (a + 1)).toNat
    ∧ (rd32 s a).toNat = (rd8 s a).toNat * 2 ^ 24 + (rd8 s (a + 1)).toNat * 2 ^ 16 + (rd8 s (a + 2)).toNat * 2 ^ 8
        + (rd8 s (a + 3)).toNat
    ∧ (rd32 s a).toNat = (rd16 s a).toNat * 65536 + (rd16 s (a + 2)).toNat

/-- R80, R81: the two registry lookups. -/
def Obligations.RegistryLookups : Prop :=
  ∀ s : State,
    (∀ t : Byte, known s .chunk (t.setWidth 16) = true ↔
      ∃ w, s.cknown.toList[t.toNat / 32]? = some w ∧ w.getLsbD (t.toNat % 32) = true)
    ∧ (∀ t : Half, known s .param t = true ↔
      ∃ (e : Nat) (w : BitVec 17), e < s.nPreg ∧ s.pknown[e]? = some w ∧ w.getLsbD 16 = true ∧ w.extractLsb' 0 16 = t)

/-- R82, R117: the checks of `ParseFrame` in their order, the first that applies deciding. -/
def Obligations.ParseFrameChecksInOrder : Prop :=
  ∀ (s : State) (lv : Level),
    (curRemaining s lv = 0 → parseFrame s lv = .finished)
    ∧ (0 < curRemaining s lv → curRemaining s lv < 4 → parseFrame s lv = .bad .truncated .frameHdrShort (s.pos lv))
    ∧ (4 ≤ curRemaining s lv → frameLen s lv < 4 → parseFrame s lv = .bad .invalidLength .lenLt4 (s.pos lv))
    ∧ (4 ≤ frameLen s lv → 4 ≤ curRemaining s lv → curRemaining s lv < frameLen s lv →
        parseFrame s lv = .bad .invalidLength .lenGtRemain (s.pos lv))
    ∧ (4 ≤ frameLen s lv → frameLen s lv ≤ curRemaining s lv → curRemaining s lv < frameLen s lv + pad (frameLen s lv) →
        parseFrame s lv = .bad .truncated .padAbsent (BitVec.ofNat 32 ((s.pos lv).toNat + frameLen s lv)))
    ∧ (∀ j, 4 ≤ frameLen s lv → frameLen s lv + pad (frameLen s lv) ≤ curRemaining s lv → s.padTol = false →
        j < pad (frameLen s lv) → bufRead s ((s.pos lv).toNat + frameLen s lv + j) ≠ 0 →
        (∀ k, k < j → bufRead s ((s.pos lv).toNat + frameLen s lv + k) = 0) →
        parseFrame s lv = .bad .invalidLength .padNonzero (BitVec.ofNat 32 ((s.pos lv).toNat + frameLen s lv + j)))
    ∧ (wellFramed s lv → ∃ ty fl,
        parseFrame s lv = .frame ty fl (BitVec.ofNat 16 (frameLen s lv)) (BitVec.ofNat 32 ((s.pos lv).toNat + 4))
            (BitVec.ofNat 16 (frameLen s lv - 4)) (frameNext s lv)
        ∧ (lv = .chunk → ty = (rd8 s s.pos0.toNat).setWidth 16 ∧ fl = rd8 s (s.pos0.toNat + 1))
        ∧ (lv = .param → ty = rd16 s s.pos1.toNat ∧ fl = 0))

/-- R87 with R82 to R86: what `CHK.NEXT` and `PRM.NEXT` do with the frame at their cursor. -/
def Obligations.NextFollowsTheFramerStep : Prop :=
  ∀ (s : State) (lv : Level), s.err.kind = .none →
    (s.stop lv = true → exec (nextCommand lv) s = .next ((s.clearFrame lv).setRes lv .finished))
    ∧ (s.stop lv = false → parseFrame s lv = .finished →
        exec (nextCommand lv) s = .next ((s.clearFrame lv).setRes lv .finished))
    ∧ (∀ kind cause info, s.stop lv = false → parseFrame s lv = .bad kind cause info →
        exec (nextCommand lv) s = .next (fatal ⟨kind, cause, info, 0⟩ s))
    ∧ (∀ ty fl ln vo vl nx, s.stop lv = false → parseFrame s lv = .frame ty fl ln vo vl nx →
        (known s lv ty = true →
          exec (nextCommand lv) s = .next (((s.setPos lv nx).setFrame lv ty fl ln vo vl true).setRes lv .frame))
        ∧ (known s lv ty = false → action lv ty = 0 →
          exec (nextCommand lv) s = .next (fatal ⟨.unrecognizedType, .unkStopReport, s.pos lv, typeDetail lv ty⟩ s))
        ∧ (known s lv ty = false → action lv ty = 1 →
          exec (nextCommand lv) s = .next (((s.setStop lv true).clearFrame lv).setRes lv .finished))
        ∧ (known s lv ty = false → action lv ty = 2 → exec (nextCommand lv) s = exec (nextCommand lv) (s.setPos lv nx))
        ∧ (known s lv ty = false → action lv ty = 3 →
          exec (nextCommand lv) s = .next (((s.setPos lv nx).setFrame lv ty fl ln vo vl false).setRes lv .notice)))

/-- R88: `CHK.NEXT` on a well-framed chunk of a known type. -/
def Obligations.ChkNextReturnsAKnownChunk : Prop :=
  ∀ s : State, s.err.kind = .none → s.stop0 = false → wellFramed s .chunk →
    known s .chunk ((rd8 s s.pos0.toNat).setWidth 16) = true →
    exec .chkNext s = .next
      { s with pos0 := frameNext s .chunk, res0 := .frame,
               cf := { type := rd8 s s.pos0.toNat, flags := rd8 s (s.pos0.toNat + 1), length := rd16 s (s.pos0.toNat + 2),
                       voff := s.pos0 + 4, vlen := rd16 s (s.pos0.toNat + 2) - 4, valid := true, known := true } }

/-- R90: `PRM.NEXT` on a well-framed parameter of a known type. -/
def Obligations.PrmNextReturnsAKnownParameter : Prop :=
  ∀ s : State, s.err.kind = .none → s.stop1 = false → wellFramed s .param → known s .param (rd16 s s.pos1.toNat) = true →
    exec .prmNext s = .next
      { s with pos1 := frameNext s .param, res1 := .frame,
               pf := { type := rd16 s s.pos1.toNat, length := rd16 s (s.pos1.toNat + 2), voff := s.pos1 + 4,
                       vlen := rd16 s (s.pos1.toNat + 2) - 4, valid := true, known := true } }

/-- R87, D35: after `END` the next command of the level answers `END` again and changes nothing. -/
def Obligations.EndIsRepeated : Prop :=
  ∀ (s t : State) (lv : Level), s.err.kind = .none → exec (nextCommand lv) s = .next t → t.res lv = .finished →
    exec (nextCommand lv) t = .next t

/-- R89: `PRM.ENTER k`. -/
def Obligations.PrmEnterSetsTheParameterWindow : Prop :=
  ∀ (s : State) (k : Half), s.err.kind = .none →
    (s.cf.valid = true → k.toNat ≤ s.cf.vlen.toNat →
      exec (.prmEnter k) s = .next
        { s with pos1 := s.cf.voff + k.setWidth 32, end1 := s.cf.voff + s.cf.vlen.setWidth 32, stop1 := false,
                 pf := ⟨0, 0, 0, 0, false, false⟩, res1 := .none })
    ∧ (s.cf.valid = true → s.cf.vlen.toNat < k.toNat →
      exec (.prmEnter k) s = .next (fatal ⟨.truncated, .valOob, s.cf.voff + k.setWidth 32, 0⟩ s))
    ∧ (s.cf.valid = false →
      exec (.prmEnter k) s = .next (fatal ⟨.illegalCommand, .badSequence, 0x31000000 ||| k.setWidth 32, 0⟩ s))

/-- R91 to R93: `VAL.U8`, `VAL.U16`, `VAL.U32`: inside the value they write `VAL` only; past it, or with no frame, they fault. -/
def Obligations.ValExtractsTheFieldOrFaults : Prop :=
  ∀ (s : State) (lv : Level) (off : Half), s.err.kind = .none →
    (s.frameValid lv = true → off.toNat + 1 ≤ (s.frameVlen lv).toNat →
      exec (.valU8 lv off) s = .next { s with val := (rd8 s ((s.frameVoff lv).toNat + off.toNat)).setWidth 32 })
    ∧ (s.frameValid lv = true → (s.frameVlen lv).toNat < off.toNat + 1 →
      exec (.valU8 lv off) s = .next (fatal ⟨.truncated, .valOob, s.frameVoff lv + off.setWidth 32, 0⟩ s))
    ∧ (s.frameValid lv = false →
      exec (.valU8 lv off) s =
        .next (fatal ⟨.illegalCommand, .badSequence, 0x33000000 ||| levelWord lv ||| off.setWidth 32, 0⟩ s))
    ∧ (s.frameValid lv = true → off.toNat + 2 ≤ (s.frameVlen lv).toNat →
      exec (.valU16 lv off) s = .next { s with val := (rd16 s ((s.frameVoff lv).toNat + off.toNat)).setWidth 32 })
    ∧ (s.frameValid lv = true → (s.frameVlen lv).toNat < off.toNat + 2 →
      exec (.valU16 lv off) s = .next (fatal ⟨.truncated, .valOob, s.frameVoff lv + off.setWidth 32, 0⟩ s))
    ∧ (s.frameValid lv = false →
      exec (.valU16 lv off) s =
        .next (fatal ⟨.illegalCommand, .badSequence, 0x34000000 ||| levelWord lv ||| off.setWidth 32, 0⟩ s))
    ∧ (s.frameValid lv = true → off.toNat + 4 ≤ (s.frameVlen lv).toNat →
      exec (.valU32 lv off) s = .next { s with val := rd32 s ((s.frameVoff lv).toNat + off.toNat) })
    ∧ (s.frameValid lv = true → (s.frameVlen lv).toNat < off.toNat + 4 →
      exec (.valU32 lv off) s = .next (fatal ⟨.truncated, .valOob, s.frameVoff lv + off.setWidth 32, 0⟩ s))
    ∧ (s.frameValid lv = false →
      exec (.valU32 lv off) s =
        .next (fatal ⟨.illegalCommand, .badSequence, 0x35000000 ||| levelWord lv ||| off.setWidth 32, 0⟩ s))

/-- R94, R103: `VAL.REJECT` and `VAL.BADLEN` enter the fault that is their purpose, with a known frame in hand; else
`BAD_SEQUENCE`. -/
def Obligations.RejectedValueIsFatal : Prop :=
  ∀ (s : State) (lv : Level), s.err.kind = .none →
    (s.frameValid lv = true → s.frameKnown lv = true →
      exec (.valReject lv) s =
          .next (fatal ⟨.malformedValue, .valueRejected, s.frameVoff lv - 4, typeDetail lv (s.frameType lv)⟩ s)
      ∧ exec (.valBadlen lv) s =
          .next (fatal ⟨.invalidLength, .recRemainder, s.frameVoff lv - 4, typeDetail lv (s.frameType lv)⟩ s))
    ∧ (s.frameValid lv = false ∨ s.frameKnown lv = false →
      exec (.valReject lv) s = .next (fatal ⟨.illegalCommand, .badSequence, 0x36000000 ||| levelWord lv, 0⟩ s)
      ∧ exec (.valBadlen lv) s = .next (fatal ⟨.illegalCommand, .badSequence, 0x37000000 ||| levelWord lv, 0⟩ s))

/-! ## TLV encode -/

/-- R96: `BUF.PUT`: the byte at `LEN`, and every other byte and register as before; a full buffer faults. -/
def Obligations.BufPutAppendsTheByte : Prop :=
  (∀ b : Byte, encode (.bufPut b) = 0x40000000 ||| b.setWidth 32) ∧ ∀ (s : State) (b : Byte), s.err.kind = .none →
    (s.len.toNat + 1 ≤ s.maxPacket →
      ∃ t, exec (.bufPut b) s = .next t ∧ t = { s with buf := t.buf, len := s.len + 1 } ∧ bufRead t s.len.toNat = b
        ∧ ∀ a, a ≠ s.len.toNat → bufRead t a = bufRead s a)
    ∧ (s.maxPacket < s.len.toNat + 1 → exec (.bufPut b) s = .next (fatal ⟨.bufferFull, .bufFull, s.len, 0⟩ s))

/-- R97: `CHK.OPEN`: type, flags and a zero length at `LEN`; every other byte as before. -/
def Obligations.ChkOpenAppendsTheChunkHeader : Prop :=
  ∀ (s : State) (type flags : Byte), s.err.kind = .none →
    (s.copen = false → s.popen = false → s.len.toNat + 4 ≤ s.maxPacket →
      ∃ t, exec (.chkOpen type flags) s = .next t
        ∧ t = { s with buf := t.buf, len := s.len + 4, cstart := s.len, copen := true }
        ∧ bufBytes t s.len.toNat 4 = [type, flags, 0, 0]
        ∧ ∀ a, a < s.len.toNat ∨ s.len.toNat + 4 ≤ a → bufRead t a = bufRead s a)
    ∧ (s.copen = false → s.popen = false → s.maxPacket < s.len.toNat + 4 →
      exec (.chkOpen type flags) s = .next (fatal ⟨.bufferFull, .bufFull, s.len, 0⟩ s))
    ∧ (s.copen = true ∨ s.popen = true →
      exec (.chkOpen type flags) s =
        .next (fatal ⟨.illegalCommand, .badSequence, 0x41000000 ||| flags.setWidth 32 <<< 16 ||| type.setWidth 32, 0⟩ s))

/-- R98, R101: `CHK.CLOSE`: the length field patched, the zero padding appended, every other byte as before; the faults in their
order, each before any write. -/
def Obligations.ChkClosePatchesAndPads : Prop :=
  ∀ s : State, s.err.kind = .none →
    let l := s.len.toNat - s.cstart.toNat
    (s.copen = true → s.popen = false → s.cstart.toNat + 4 ≤ s.len.toNat → l ≤ 65535 → s.len.toNat + pad l ≤ s.maxPacket →
      ∃ t, exec .chkClose s = .next t
        ∧ t = { s with buf := t.buf, len := s.len + BitVec.ofNat 32 (pad l), copen := false }
        ∧ rd16 t (s.cstart.toNat + 2) = BitVec.ofNat 16 l
        ∧ bufBytes t s.len.toNat (pad l) = List.replicate (pad l) 0
        ∧ ∀ a, a < s.len.toNat ∨ s.len.toNat + pad l ≤ a → a ≠ s.cstart.toNat + 2 → a ≠ s.cstart.toNat + 3 →
            bufRead t a = bufRead s a)
    ∧ (s.copen = true → s.popen = false → 65535 < l →
      exec .chkClose s = .next (fatal ⟨.invalidLength, .frameTooLong, s.cstart, 0⟩ s))
    ∧ (s.copen = true → s.popen = false → l ≤ 65535 → s.maxPacket < s.len.toNat + pad l →
      exec .chkClose s = .next (fatal ⟨.bufferFull, .bufFull, s.len, 0⟩ s))
    ∧ (s.copen = false ∨ s.popen = true →
      exec .chkClose s = .next (fatal ⟨.illegalCommand, .badSequence, 0x42000000, 0⟩ s))

/-- R99: `PRM.OPEN`: the type big-endian and a zero length at `LEN`; every other byte as before. -/
def Obligations.PrmOpenAppendsTheParameterHeader : Prop :=
  ∀ (s : State) (type : Half), s.err.kind = .none →
    (s.popen = false → s.len.toNat + 4 ≤ s.maxPacket →
      ∃ t, exec (.prmOpen type) s = .next t
        ∧ t = { s with buf := t.buf, len := s.len + 4, pstart := s.len, popen := true }
        ∧ bufBytes t s.len.toNat 4 = [type.extractLsb' 8 8, type.extractLsb' 0 8, 0, 0]
        ∧ ∀ a, a < s.len.toNat ∨ s.len.toNat + 4 ≤ a → bufRead t a = bufRead s a)
    ∧ (s.popen = false → s.maxPacket < s.len.toNat + 4 →
      exec (.prmOpen type) s = .next (fatal ⟨.bufferFull, .bufFull, s.len, 0⟩ s))
    ∧ (s.popen = true →
      exec (.prmOpen type) s = .next (fatal ⟨.illegalCommand, .badSequence, 0x43000000 ||| type.setWidth 32, 0⟩ s))

/-- R100, R101: `PRM.CLOSE`, as `CHK.CLOSE` at the parameter level. -/
def Obligations.PrmClosePatchesAndPads : Prop :=
  ∀ s : State, s.err.kind = .none →
    let l := s.len.toNat - s.pstart.toNat
    (s.popen = true → s.pstart.toNat + 4 ≤ s.len.toNat → l ≤ 65535 → s.len.toNat + pad l ≤ s.maxPacket →
      ∃ t, exec .prmClose s = .next t
        ∧ t = { s with buf := t.buf, len := s.len + BitVec.ofNat 32 (pad l), popen := false }
        ∧ rd16 t (s.pstart.toNat + 2) = BitVec.ofNat 16 l
        ∧ bufBytes t s.len.toNat (pad l) = List.replicate (pad l) 0
        ∧ ∀ a, a < s.len.toNat ∨ s.len.toNat + pad l ≤ a → a ≠ s.pstart.toNat + 2 → a ≠ s.pstart.toNat + 3 →
            bufRead t a = bufRead s a)
    ∧ (s.popen = true → 65535 < l →
      exec .prmClose s = .next (fatal ⟨.invalidLength, .frameTooLong, s.pstart, 0⟩ s))
    ∧ (s.popen = true → l ≤ 65535 → s.maxPacket < s.len.toNat + pad l →
      exec .prmClose s = .next (fatal ⟨.bufferFull, .bufFull, s.len, 0⟩ s))
    ∧ (s.popen = false → exec .prmClose s = .next (fatal ⟨.illegalCommand, .badSequence, 0x44000000, 0⟩ s))

/-- R102, encoding half: the commands of a sequence of chunks append exactly the chunks' bytes on the wire. -/
def Obligations.EncoderWritesTheWireFormat : Prop :=
  ∀ (s : State) (cs : List ChunkPlan) (rest : List HostAccess), Inv s → s.err.kind = .none → s.copen = false →
    s.popen = false → (∀ c ∈ cs, chunkLength c ≤ 65535) → s.len.toNat + (cs.flatMap chunkBytes).length ≤ s.maxPacket →
    s.pending = (cs.flatMap chunkCommands).map issue ++ rest →
    ∃ t, Sys2Proof.core.run (cs.flatMap chunkCommands).length s = .next t ∧ t.pending = rest ∧ t.err.kind = .none
      ∧ t.copen = false ∧ t.popen = false ∧ t.len.toNat = s.len.toNat + (cs.flatMap chunkBytes).length
      ∧ bufBytes t s.len.toNat (cs.flatMap chunkBytes).length = cs.flatMap chunkBytes
      ∧ ∀ a, a < s.len.toNat → bufRead t a = bufRead s a

/-- R102, decoding half: repeated `CHK.NEXT` over a window that holds the wire format of known chunks returns them in order, whatever
`PAD_TOL` is, and then `END` with nothing remaining. -/
def Obligations.DecoderReturnsTheChunks : Prop :=
  ∀ (s : State) (cs : List ChunkPlan), s.err.kind = .none → s.stop0 = false → (∀ c ∈ cs, chunkLength c ≤ 65535) →
    (∀ c ∈ cs, known s .chunk (c.type.setWidth 16) = true) →
    bufBytes s s.pos0.toNat (curRemaining s .chunk) = cs.flatMap chunkBytes →
    ∃ t, walkChunks (cs.length + 1) s = some (cs.map chunkImage, t) ∧ t.err.kind = .none ∧ t.res0 = .finished
      ∧ curRemaining t .chunk = 0

/-- R90, R106: repeated `PRM.NEXT` over a window that holds the wire format of known parameters returns them in order, duplicates
included, and then `END`; and a bare parameter list that the commands of R106 encode from an empty buffer is its wire format, and
after `START` is returned. -/
def Obligations.DecoderReturnsTheParameters : Prop :=
  (∀ (s : State) (ps : List ParamImage), s.err.kind = .none → s.stop1 = false → (∀ p ∈ ps, 4 + p.value.length ≤ 65535) →
    (∀ p ∈ ps, known s .param p.type = true) →
    bufBytes s s.pos1.toNat (curRemaining s .param) = ps.flatMap paramBytes →
    ∃ t, walkParams (ps.length + 1) s = some (ps, t) ∧ t.err.kind = .none ∧ t.res1 = .finished ∧ curRemaining t .param = 0)
  ∧ ∀ (s : State) (ps : List ParamImage) (rest : List HostAccess), Inv s → (∀ p ∈ ps, 4 + p.value.length ≤ 65535) →
    (ps.flatMap paramBytes).length ≤ s.maxPacket → (∀ p ∈ ps, known s .param p.type = true) →
    s.pending = encodeParamList ps ++ [issue .start] ++ rest →
    ∃ t u, Sys2Proof.core.run ((ps.flatMap paramCommands).length + 2) s = .next t ∧ t.pending = rest
      ∧ t.len.toNat = (ps.flatMap paramBytes).length ∧ bufBytes t 0 (ps.flatMap paramBytes).length = ps.flatMap paramBytes
      ∧ walkParams (ps.length + 1) t = some (ps, u) ∧ u.err.kind = .none ∧ u.res1 = .finished ∧ curRemaining u .param = 0

/-- R102: what the encoder commands append, the decoder commands return: the chunks in order, whatever their parameters; and, where
the parameter types are known too, with `PRM.ENTER k` after each `CHK.NEXT`, `k` the number of bytes put before the first parameter,
each chunk's parameters in the order opened, duplicates included. -/
def Obligations.EncodedChunksDecode : Prop :=
  ∀ (s : State) (cs : List ChunkPlan) (rest : List HostAccess), Inv s → (∀ c ∈ cs, chunkLength c ≤ 65535) →
    (cs.flatMap chunkBytes).length ≤ s.maxPacket → (∀ c ∈ cs, known s .chunk (c.type.setWidth 16) = true) →
    s.pending = setLen 0 :: (cs.flatMap chunkCommands ++ [Instr.start]).map issue ++ rest →
    ∃ t, Sys2Proof.core.run ((cs.flatMap chunkCommands).length + 2) s = .next t
      ∧ (∃ u, walkChunks (cs.length + 1) t = some (cs.map chunkImage, u) ∧ u.err.kind = .none ∧ u.res0 = .finished
          ∧ curRemaining u .chunk = 0)
      ∧ ((∀ c ∈ cs, ∀ p ∈ c.params, known s .param p.type = true) →
          ∃ u, walkNested (cs.map (·.lead.length)) t = some (cs.map fun c => (chunkImage c, c.params), u) ∧ u.err.kind = .none
            ∧ u.res0 = .finished ∧ curRemaining u .chunk = 0)

/-- R104: a packet of 12 bytes or more that the host loads, up to its first chunk: the four header fields are its first 12 bytes, the
computed checksum is the CRC32c of its bytes with the checksum field zeroed, and a mismatch is a flag. -/
def Obligations.LoadedPacketDecodes : Prop :=
  ∀ (s : State) (bytes : List Byte) (rest : List HostAccess), Inv s → 12 ≤ bytes.length → bytes.length ≤ s.maxPacket →
    s.pending = decodePacketStart bytes ++ rest →
    ∃ t, Sys2Proof.core.run (bytes.length + 3) s = .next t ∧ t.pending = rest ∧ t.err.kind = .none
      ∧ bufBytes t 0 bytes.length = bytes ∧ t.hdrValid = true ∧ t.pos0 = 12 ∧ t.end0.toNat = bytes.length
      ∧ be16 t.srcPort ++ be16 t.dstPort ++ be32 t.vtag ++ be32 t.cksum = bytes.take 12
      ∧ t.crcOut = crc32c (bytes.take 8 ++ [0, 0, 0, 0] ++ bytes.drop 12)
      ∧ t.ckDone = true ∧ (t.ckBad = true ↔ t.crcOut ≠ t.cksum)

/-- R102, R104, R105: the packet round trip: what `encode_packet` builds, `decode_packet` returns: the header fields, a checksum that
verifies, and the chunks in order, then `END`. -/
def Obligations.PacketRoundTrip : Prop :=
  ∀ (s : State) (src dst : Half) (tag : Word) (cs : List ChunkPlan) (rest : List HostAccess), Inv s →
    (∀ c ∈ cs, chunkLength c ≤ 65535) → 12 + (cs.flatMap chunkBytes).length ≤ s.maxPacket →
    (∀ c ∈ cs, known s .chunk (c.type.setWidth 16) = true) →
    s.pending = encodePacket src dst tag cs ++ [Instr.start, .hdrDec, .csumVerify].map issue ++ rest →
    ∃ t u, Sys2Proof.core.run ((cs.flatMap chunkCommands).length + 9) s = .next t ∧ t.pending = rest ∧ t.srcPort = src
      ∧ t.dstPort = dst ∧ t.vtag = tag ∧ t.hdrValid = true ∧ t.ckDone = true ∧ t.ckBad = false
      ∧ walkChunks (cs.length + 1) t = some (cs.map chunkImage, u) ∧ u.err.kind = .none ∧ u.res0 = .finished
      ∧ curRemaining u .chunk = 0

/-! ## The host's accesses -/

/-- R13, R31: what each register reads as; `CMD` and reserved offsets read 0; a read changes only what the host has read; what each
write does, in every state; a write to a read-only or reserved offset is ignored. -/
def Obligations.RegistersFollowTheMap : Prop :=
  ∀ s : State,
    (∀ slot, takeAccess (.regRead slot) s = .next { s with hostRead := some (hostRegRead slot s) })
    ∧ [0, 1, 2, 3, 4, 5, 6].map (hostRegRead · s) =
        [0, if s.padTol then 1 else 0, statusWord s, errWord s, s.err.info, s.err.etype.setWidth 32, s.len]
    ∧ [7, 8, 9, 10, 11, 12].map (hostRegRead · s) =
        [s.pos0, s.end0, s.pos1, s.end1, BitVec.ofNat 32 (s.end0.toNat - s.pos0.toNat),
         BitVec.ofNat 32 (s.end1.toNat - s.pos1.toNat)]
    ∧ [13, 14, 15, 16, 17, 18].map (hostRegRead · s) =
        [s.srcPort.setWidth 32, s.dstPort.setWidth 32, s.vtag, s.cksum, s.crcAcc, s.crcOut]
    ∧ [19, 20, 21, 22, 23, 24].map (hostRegRead · s) =
        [s.cf.length ++ s.cf.flags ++ s.cf.type, s.cf.voff, s.cf.vlen.setWidth 32, s.pf.length ++ s.pf.type, s.pf.voff,
         s.pf.vlen.setWidth 32]
    ∧ [25, 26, 27].map (hostRegRead · s) = [s.val, s.cstart, s.pstart]
    ∧ (∀ i : Fin 8, hostRegRead (BitVec.ofNat 6 (32 + i)) s = s.cknown[i])
    ∧ (∀ (i : Nat) (w : BitVec 17), i < 16 → s.pknown[i]? = some w → hostRegRead (BitVec.ofNat 6 (48 + i)) s = w.setWidth 32)
    ∧ (∀ slot : BitVec 6, (28 ≤ slot.toNat ∧ slot.toNat < 32) ∨ (40 ≤ slot.toNat ∧ slot.toNat < 48) ∨ 48 + s.nPreg ≤ slot.toNat →
        hostRegRead slot s = 0)
    ∧ (∀ v : Word,
        takeAccess (.regWrite 0 v) s = executeWord v s
        ∧ takeAccess (.regWrite 1 v) s = .next { s with padTol := v.getLsbD 0 }
        ∧ takeAccess (.regWrite 6 v) s = .next (writeLen v s)
        ∧ takeAccess (.regWrite 13 v) s = .next { s with srcPort := v.extractLsb' 0 16 }
        ∧ takeAccess (.regWrite 14 v) s = .next { s with dstPort := v.extractLsb' 0 16 }
        ∧ takeAccess (.regWrite 15 v) s = .next { s with vtag := v }
        ∧ (∀ i : Fin 8, takeAccess (.regWrite (BitVec.ofNat 6 (32 + i)) v) s = .next { s with cknown := s.cknown.set i v })
        ∧ ∀ i, i < s.nPreg → i < 16 → takeAccess (.regWrite (BitVec.ofNat 6 (48 + i)) v) s =
            .next { s with pknown := s.pknown.set i (v.extractLsb' 0 17) })
    ∧ (∀ (slot : BitVec 6) (v : Word), slot.toNat ∉ [0, 1, 6, 13, 14, 15] → ¬ (32 ≤ slot.toNat ∧ slot.toNat < 40) →
        ¬ (48 ≤ slot.toNat ∧ slot.toNat < 48 + s.nPreg) → takeAccess (.regWrite slot v) s = .next s)

/-- R17: the three cases of a host write of `LEN`; and a command changes `LEN` only by appending, `START` not at all. -/
def Obligations.LenChangesAsItsRuleSays : Prop :=
  (∀ (s : State) (v : Word),
    (v.toNat ≤ s.maxPacket → takeAccess (.regWrite 6 v) s = .next (startActions { s with len := v }))
    ∧ (s.maxPacket < v.toNat → s.err.kind = .none →
      takeAccess (.regWrite 6 v) s = .next (fatal ⟨.illegalCommand, .badLen, v, 0⟩ s))
    ∧ (s.maxPacket < v.toNat → s.err.kind ≠ .none → takeAccess (.regWrite 6 v) s = .next s))
  ∧ (∀ (i : Instr) (s t : State), Inv s → exec i s = .next t →
    s.len.toNat ≤ t.len.toNat
    ∧ (i ∉ [.hdrEnc, .chkClose, .prmClose] → (∀ b, i ≠ .bufPut b) → (∀ a b, i ≠ .chkOpen a b) → (∀ a, i ≠ .prmOpen a) →
        t.len = s.len))
  ∧ ∀ (s : State) (rest : List HostAccess), s.pending = .reset :: rest → ∃ t, step s = .next t ∧ t.len = 0

/-- R32: a host write below `MAX_PACKET` changes that byte alone; at or above it, it is ignored and a read gives 0. -/
def Obligations.HostBufferAccess : Prop :=
  ∀ (s : State) (o : Nat) (b : Byte), Memory.within s.maxPacket s.buf = true →
    (∃ t, takeAccess (.bufWrite o b) s = .next t ∧ t = { s with buf := t.buf }
      ∧ (o < s.maxPacket → bufRead t o = b) ∧ ∀ a, a ≠ o → bufRead t a = bufRead s a)
    ∧ (s.maxPacket ≤ o → takeAccess (.bufWrite o b) s = .next s ∧ bufRead s o = 0)
    ∧ takeAccess (.bufRead o) s = .next { s with hostRead := some ((bufRead s o).setWidth 32) }

/-- R16, R23, R110, R111: `STATUS` and `ERR` bit for bit, and the codes of the outcomes, the kinds and the causes. -/
def Obligations.StatusAndErrorLayout : Prop :=
  (∀ s : State,
    (List.range 12).map (statusWord s).getLsbD =
      [s.hdrValid, s.ckDone, s.ckBad, s.cf.valid, s.cf.known, s.pf.valid, s.pf.known, s.stop0, s.stop1, s.copen, s.popen,
       decide (s.err.kind ≠ .none)]
    ∧ (statusWord s).extractLsb' 12 2 = resCode s.res0 ∧ (statusWord s).extractLsb' 14 2 = resCode s.res1
    ∧ (statusWord s).extractLsb' 16 16 = 0
    ∧ (errWord s).extractLsb' 0 4 = kindCode s.err.kind ∧ (errWord s).extractLsb' 4 8 = causeCode s.err.cause
    ∧ (errWord s).extractLsb' 12 20 = 0)
  ∧ [Res.none, .frame, .notice, .finished].map (resCode · |>.toNat) = List.range 4
  ∧ [ErrKind.none, .truncated, .invalidLength, .checksumMismatch, .unrecognizedType, .malformedValue, .bufferFull,
      .illegalCommand].map (kindCode · |>.toNat) = List.range 8
  ∧ [ErrCause.none, .hdrShort, .frameHdrShort, .lenLt4, .lenGtRemain, .padAbsent, .padNonzero, .unkStopReport, .valueRejected,
      .valOob, .bufFull, .frameTooLong, .illegalEncoding, .badSequence, .badLen, .recRemainder].map (causeCode · |>.toNat) =
      List.range 16

/-- R28, R130: what the reset leaves in every register, from any state. -/
def Obligations.ResetLeavesTheResetValues : Prop :=
  ∀ (s : State) (rest : List HostAccess), s.pending = .reset :: rest → ∃ t, step s = .next t
    ∧ t.len = 0 ∧ t.pos0 = 0 ∧ t.end0 = 0 ∧ t.pos1 = 0 ∧ t.end1 = 0 ∧ t.srcPort = 0 ∧ t.dstPort = 0 ∧ t.vtag = 0 ∧ t.cksum = 0
    ∧ t.crcAcc = 0 ∧ t.crcOut = 0 ∧ t.val = 0 ∧ t.cstart = 0 ∧ t.pstart = 0 ∧ statusWord t = 0 ∧ errWord t = 0
    ∧ t.err.info = 0 ∧ t.err.etype = 0 ∧ cfHdrWord t = 0 ∧ t.cf.voff = 0 ∧ t.cf.vlen = 0 ∧ pfHdrWord t = 0 ∧ t.pf.voff = 0
    ∧ t.pf.vlen = 0 ∧ t.padTol = false ∧ (∀ i : Fin 8, t.cknown[i] = 0) ∧ t.pknown = List.replicate s.nPreg 0

/-- The model's choice, log 3 (DESIGN CHOICE; U1 leaves the bytes unspecified): after a reset every byte of the buffer is a free value of
the new epoch. -/
def Obligations.ResetMakesTheBufferFreeAgain : Prop :=
  ∀ (s : State) (rest : List HostAccess), s.pending = .reset :: rest → ∃ t, step s = .next t ∧ t.epoch = s.epoch + 1
    ∧ ∀ a, a < s.maxPacket → bufRead t a = Config.unwrittenByte (s.epoch + 1) a

/-! ## Whole-machine rules -/

/-- R27: the invariant holds at reset. -/
def Obligations.ResetMeetsTheInvariant : Prop := Inv State.reset

/-- R27, R3, R11, R23: every step keeps the invariant, from every state that meets it. -/
def Obligations.EveryStepKeepsTheInvariant : Prop :=
  ∀ s t : State, Inv s → step s = .next t → Inv t

/-- R35(a): no command's result depends on a buffer byte at or above `LEN`. -/
def Obligations.NoCommandReadsBeyondLen : Prop :=
  ∀ (i : Instr) (s t s' t' : State), Inv s → AgreeBelowLen s t → exec i s = .next s' → exec i t = .next t' →
    AgreeBelowLen s' t'

/-- R35(b), R121: a command writes only the bytes its rule names, all below `MAX_PACKET`, and none if it faults. -/
def Obligations.CommandsWriteOnlyTheirBytes : Prop :=
  ∀ (i : Instr) (s t : State), Inv s → exec i s = .next t →
    (∀ a, ¬ mayWrite i s t a → bufRead t a = bufRead s a)
    ∧ (t.err.kind ≠ .none → ∀ a, bufRead t a = bufRead s a)
    ∧ (∀ a, mayWrite i s t a → t.err.kind = .none → a < s.maxPacket)

/-- R24, R25, R15: no command changes the configuration; and the two parameters never change at all (logs 1, 2). -/
def Obligations.CommandsKeepTheConfiguration : Prop :=
  (∀ (i : Instr) (s t : State), exec i s = .next t →
    t.padTol = s.padTol ∧ t.cknown = s.cknown ∧ t.pknown = s.pknown ∧ t.pending = s.pending ∧ t.hostRead = s.hostRead
      ∧ t.epoch = s.epoch)
  ∧ ∀ s t : State, step s = .next t → t.maxPacket = s.maxPacket ∧ t.nPreg = s.nPreg

/-- R18: which command moves which cursor register. -/
def Obligations.CursorsMoveOnlyByTheirCommands : Prop :=
  ∀ (i : Instr) (s t : State), exec i s = .next t →
    (i ∉ [.start, .hdrDec, .chkNext] → t.pos0 = s.pos0) ∧ (i ≠ .start → t.end0 = s.end0)
    ∧ (i ∉ [.start, .prmNext] → (∀ k, i ≠ .prmEnter k) → t.pos1 = s.pos1)
    ∧ (i ≠ .start → (∀ k, i ≠ .prmEnter k) → t.end1 = s.end1)

/-- R18: within a call the chunk cursor only moves forward, and the parameter cursor but for `PRM.ENTER`. -/
def Obligations.CursorsOnlyMoveForward : Prop :=
  ∀ (i : Instr) (s t : State), Inv s → exec i s = .next t → i ≠ .start →
    s.pos0.toNat ≤ t.pos0.toNat ∧ ((∀ k, i ≠ .prmEnter k) → s.pos1.toNat ≤ t.pos1.toNat)

/-- R29: after `START`, what a sequence of decode commands produces is a function of `BUF[0 .. LEN-1]`, `LEN`, `CTRL`, `CKNOWN`,
`PKNOWN` and the sequence. -/
def Obligations.DecodeCallDependsOnItsInputsOnly : Prop :=
  ∀ (cmds : List Instr) (s t : State), (∀ i ∈ cmds, decodeCommand i = true) → Inv s → SameCallInputs s t →
    callView (runCommands (.start :: cmds) s) = callView (runCommands (.start :: cmds) t)
end

