-- ==== Sys2Proof/Laws/State.lean ====
section
/-! SUPPORT. What each named update of the state leaves in each field, so that no proof unfolds a record update. -/

namespace Sys2Proof.Machine

open Sys2Proof

/-! ## State.setPos -/

@[simp] theorem State.setPos_buf (s : State) (lv : Level) (v : Word) :
    (s.setPos lv v).buf = s.buf := by cases lv <;> rfl

@[simp] theorem State.setPos_len (s : State) (lv : Level) (v : Word) :
    (s.setPos lv v).len = s.len := by cases lv <;> rfl

@[simp] theorem State.setPos_chunk_pos0 (s : State) (v : Word) :
    (s.setPos .chunk v).pos0 = v := rfl

@[simp] theorem State.setPos_param_pos0 (s : State) (v : Word) :
    (s.setPos .param v).pos0 = s.pos0 := rfl

@[simp] theorem State.setPos_end0 (s : State) (lv : Level) (v : Word) :
    (s.setPos lv v).end0 = s.end0 := by cases lv <;> rfl

@[simp] theorem State.setPos_param_pos1 (s : State) (v : Word) :
    (s.setPos .param v).pos1 = v := rfl

@[simp] theorem State.setPos_chunk_pos1 (s : State) (v : Word) :
    (s.setPos .chunk v).pos1 = s.pos1 := rfl

@[simp] theorem State.setPos_end1 (s : State) (lv : Level) (v : Word) :
    (s.setPos lv v).end1 = s.end1 := by cases lv <;> rfl

@[simp] theorem State.setPos_srcPort (s : State) (lv : Level) (v : Word) :
    (s.setPos lv v).srcPort = s.srcPort := by cases lv <;> rfl

@[simp] theorem State.setPos_dstPort (s : State) (lv : Level) (v : Word) :
    (s.setPos lv v).dstPort = s.dstPort := by cases lv <;> rfl

@[simp] theorem State.setPos_vtag (s : State) (lv : Level) (v : Word) :
    (s.setPos lv v).vtag = s.vtag := by cases lv <;> rfl

@[simp] theorem State.setPos_cksum (s : State) (lv : Level) (v : Word) :
    (s.setPos lv v).cksum = s.cksum := by cases lv <;> rfl

@[simp] theorem State.setPos_crcAcc (s : State) (lv : Level) (v : Word) :
    (s.setPos lv v).crcAcc = s.crcAcc := by cases lv <;> rfl

@[simp] theorem State.setPos_crcOut (s : State) (lv : Level) (v : Word) :
    (s.setPos lv v).crcOut = s.crcOut := by cases lv <;> rfl

@[simp] theorem State.setPos_cf (s : State) (lv : Level) (v : Word) :
    (s.setPos lv v).cf = s.cf := by cases lv <;> rfl

@[simp] theorem State.setPos_pf (s : State) (lv : Level) (v : Word) :
    (s.setPos lv v).pf = s.pf := by cases lv <;> rfl

@[simp] theorem State.setPos_val (s : State) (lv : Level) (v : Word) :
    (s.setPos lv v).val = s.val := by cases lv <;> rfl

@[simp] theorem State.setPos_cstart (s : State) (lv : Level) (v : Word) :
    (s.setPos lv v).cstart = s.cstart := by cases lv <;> rfl

@[simp] theorem State.setPos_pstart (s : State) (lv : Level) (v : Word) :
    (s.setPos lv v).pstart = s.pstart := by cases lv <;> rfl

@[simp] theorem State.setPos_hdrValid (s : State) (lv : Level) (v : Word) :
    (s.setPos lv v).hdrValid = s.hdrValid := by cases lv <;> rfl

@[simp] theorem State.setPos_ckDone (s : State) (lv : Level) (v : Word) :
    (s.setPos lv v).ckDone = s.ckDone := by cases lv <;> rfl

@[simp] theorem State.setPos_ckBad (s : State) (lv : Level) (v : Word) :
    (s.setPos lv v).ckBad = s.ckBad := by cases lv <;> rfl

@[simp] theorem State.setPos_stop0 (s : State) (lv : Level) (v : Word) :
    (s.setPos lv v).stop0 = s.stop0 := by cases lv <;> rfl

@[simp] theorem State.setPos_stop1 (s : State) (lv : Level) (v : Word) :
    (s.setPos lv v).stop1 = s.stop1 := by cases lv <;> rfl

@[simp] theorem State.setPos_copen (s : State) (lv : Level) (v : Word) :
    (s.setPos lv v).copen = s.copen := by cases lv <;> rfl

@[simp] theorem State.setPos_popen (s : State) (lv : Level) (v : Word) :
    (s.setPos lv v).popen = s.popen := by cases lv <;> rfl

@[simp] theorem State.setPos_res0 (s : State) (lv : Level) (v : Word) :
    (s.setPos lv v).res0 = s.res0 := by cases lv <;> rfl

@[simp] theorem State.setPos_res1 (s : State) (lv : Level) (v : Word) :
    (s.setPos lv v).res1 = s.res1 := by cases lv <;> rfl

@[simp] theorem State.setPos_err (s : State) (lv : Level) (v : Word) :
    (s.setPos lv v).err = s.err := by cases lv <;> rfl

@[simp] theorem State.setPos_padTol (s : State) (lv : Level) (v : Word) :
    (s.setPos lv v).padTol = s.padTol := by cases lv <;> rfl

@[simp] theorem State.setPos_cknown (s : State) (lv : Level) (v : Word) :
    (s.setPos lv v).cknown = s.cknown := by cases lv <;> rfl

@[simp] theorem State.setPos_pknown (s : State) (lv : Level) (v : Word) :
    (s.setPos lv v).pknown = s.pknown := by cases lv <;> rfl

@[simp] theorem State.setPos_maxPacket (s : State) (lv : Level) (v : Word) :
    (s.setPos lv v).maxPacket = s.maxPacket := by cases lv <;> rfl

@[simp] theorem State.setPos_epoch (s : State) (lv : Level) (v : Word) :
    (s.setPos lv v).epoch = s.epoch := by cases lv <;> rfl

@[simp] theorem State.setPos_pending (s : State) (lv : Level) (v : Word) :
    (s.setPos lv v).pending = s.pending := by cases lv <;> rfl

@[simp] theorem State.setPos_hostRead (s : State) (lv : Level) (v : Word) :
    (s.setPos lv v).hostRead = s.hostRead := by cases lv <;> rfl

/-! ## State.setStop -/

@[simp] theorem State.setStop_buf (s : State) (lv : Level) (v : Bool) :
    (s.setStop lv v).buf = s.buf := by cases lv <;> rfl

@[simp] theorem State.setStop_len (s : State) (lv : Level) (v : Bool) :
    (s.setStop lv v).len = s.len := by cases lv <;> rfl

@[simp] theorem State.setStop_pos0 (s : State) (lv : Level) (v : Bool) :
    (s.setStop lv v).pos0 = s.pos0 := by cases lv <;> rfl

@[simp] theorem State.setStop_end0 (s : State) (lv : Level) (v : Bool) :
    (s.setStop lv v).end0 = s.end0 := by cases lv <;> rfl

@[simp] theorem State.setStop_pos1 (s : State) (lv : Level) (v : Bool) :
    (s.setStop lv v).pos1 = s.pos1 := by cases lv <;> rfl

@[simp] theorem State.setStop_end1 (s : State) (lv : Level) (v : Bool) :
    (s.setStop lv v).end1 = s.end1 := by cases lv <;> rfl

@[simp] theorem State.setStop_srcPort (s : State) (lv : Level) (v : Bool) :
    (s.setStop lv v).srcPort = s.srcPort := by cases lv <;> rfl

@[simp] theorem State.setStop_dstPort (s : State) (lv : Level) (v : Bool) :
    (s.setStop lv v).dstPort = s.dstPort := by cases lv <;> rfl

@[simp] theorem State.setStop_vtag (s : State) (lv : Level) (v : Bool) :
    (s.setStop lv v).vtag = s.vtag := by cases lv <;> rfl

@[simp] theorem State.setStop_cksum (s : State) (lv : Level) (v : Bool) :
    (s.setStop lv v).cksum = s.cksum := by cases lv <;> rfl

@[simp] theorem State.setStop_crcAcc (s : State) (lv : Level) (v : Bool) :
    (s.setStop lv v).crcAcc = s.crcAcc := by cases lv <;> rfl

@[simp] theorem State.setStop_crcOut (s : State) (lv : Level) (v : Bool) :
    (s.setStop lv v).crcOut = s.crcOut := by cases lv <;> rfl

@[simp] theorem State.setStop_cf (s : State) (lv : Level) (v : Bool) :
    (s.setStop lv v).cf = s.cf := by cases lv <;> rfl

@[simp] theorem State.setStop_pf (s : State) (lv : Level) (v : Bool) :
    (s.setStop lv v).pf = s.pf := by cases lv <;> rfl

@[simp] theorem State.setStop_val (s : State) (lv : Level) (v : Bool) :
    (s.setStop lv v).val = s.val := by cases lv <;> rfl

@[simp] theorem State.setStop_cstart (s : State) (lv : Level) (v : Bool) :
    (s.setStop lv v).cstart = s.cstart := by cases lv <;> rfl

@[simp] theorem State.setStop_pstart (s : State) (lv : Level) (v : Bool) :
    (s.setStop lv v).pstart = s.pstart := by cases lv <;> rfl

@[simp] theorem State.setStop_hdrValid (s : State) (lv : Level) (v : Bool) :
    (s.setStop lv v).hdrValid = s.hdrValid := by cases lv <;> rfl

@[simp] theorem State.setStop_ckDone (s : State) (lv : Level) (v : Bool) :
    (s.setStop lv v).ckDone = s.ckDone := by cases lv <;> rfl

@[simp] theorem State.setStop_ckBad (s : State) (lv : Level) (v : Bool) :
    (s.setStop lv v).ckBad = s.ckBad := by cases lv <;> rfl

@[simp] theorem State.setStop_chunk_stop0 (s : State) (v : Bool) :
    (s.setStop .chunk v).stop0 = v := rfl

@[simp] theorem State.setStop_param_stop0 (s : State) (v : Bool) :
    (s.setStop .param v).stop0 = s.stop0 := rfl

@[simp] theorem State.setStop_param_stop1 (s : State) (v : Bool) :
    (s.setStop .param v).stop1 = v := rfl

@[simp] theorem State.setStop_chunk_stop1 (s : State) (v : Bool) :
    (s.setStop .chunk v).stop1 = s.stop1 := rfl

@[simp] theorem State.setStop_copen (s : State) (lv : Level) (v : Bool) :
    (s.setStop lv v).copen = s.copen := by cases lv <;> rfl

@[simp] theorem State.setStop_popen (s : State) (lv : Level) (v : Bool) :
    (s.setStop lv v).popen = s.popen := by cases lv <;> rfl

@[simp] theorem State.setStop_res0 (s : State) (lv : Level) (v : Bool) :
    (s.setStop lv v).res0 = s.res0 := by cases lv <;> rfl

@[simp] theorem State.setStop_res1 (s : State) (lv : Level) (v : Bool) :
    (s.setStop lv v).res1 = s.res1 := by cases lv <;> rfl

@[simp] theorem State.setStop_err (s : State) (lv : Level) (v : Bool) :
    (s.setStop lv v).err = s.err := by cases lv <;> rfl

@[simp] theorem State.setStop_padTol (s : State) (lv : Level) (v : Bool) :
    (s.setStop lv v).padTol = s.padTol := by cases lv <;> rfl

@[simp] theorem State.setStop_cknown (s : State) (lv : Level) (v : Bool) :
    (s.setStop lv v).cknown = s.cknown := by cases lv <;> rfl

@[simp] theorem State.setStop_pknown (s : State) (lv : Level) (v : Bool) :
    (s.setStop lv v).pknown = s.pknown := by cases lv <;> rfl

@[simp] theorem State.setStop_maxPacket (s : State) (lv : Level) (v : Bool) :
    (s.setStop lv v).maxPacket = s.maxPacket := by cases lv <;> rfl

@[simp] theorem State.setStop_epoch (s : State) (lv : Level) (v : Bool) :
    (s.setStop lv v).epoch = s.epoch := by cases lv <;> rfl

@[simp] theorem State.setStop_pending (s : State) (lv : Level) (v : Bool) :
    (s.setStop lv v).pending = s.pending := by cases lv <;> rfl

@[simp] theorem State.setStop_hostRead (s : State) (lv : Level) (v : Bool) :
    (s.setStop lv v).hostRead = s.hostRead := by cases lv <;> rfl

/-! ## State.setRes -/

@[simp] theorem State.setRes_buf (s : State) (lv : Level) (v : Res) :
    (s.setRes lv v).buf = s.buf := by cases lv <;> rfl

@[simp] theorem State.setRes_len (s : State) (lv : Level) (v : Res) :
    (s.setRes lv v).len = s.len := by cases lv <;> rfl

@[simp] theorem State.setRes_pos0 (s : State) (lv : Level) (v : Res) :
    (s.setRes lv v).pos0 = s.pos0 := by cases lv <;> rfl

@[simp] theorem State.setRes_end0 (s : State) (lv : Level) (v : Res) :
    (s.setRes lv v).end0 = s.end0 := by cases lv <;> rfl

@[simp] theorem State.setRes_pos1 (s : State) (lv : Level) (v : Res) :
    (s.setRes lv v).pos1 = s.pos1 := by cases lv <;> rfl

@[simp] theorem State.setRes_end1 (s : State) (lv : Level) (v : Res) :
    (s.setRes lv v).end1 = s.end1 := by cases lv <;> rfl

@[simp] theorem State.setRes_srcPort (s : State) (lv : Level) (v : Res) :
    (s.setRes lv v).srcPort = s.srcPort := by cases lv <;> rfl

@[simp] theorem State.setRes_dstPort (s : State) (lv : Level) (v : Res) :
    (s.setRes lv v).dstPort = s.dstPort := by cases lv <;> rfl

@[simp] theorem State.setRes_vtag (s : State) (lv : Level) (v : Res) :
    (s.setRes lv v).vtag = s.vtag := by cases lv <;> rfl

@[simp] theorem State.setRes_cksum (s : State) (lv : Level) (v : Res) :
    (s.setRes lv v).cksum = s.cksum := by cases lv <;> rfl

@[simp] theorem State.setRes_crcAcc (s : State) (lv : Level) (v : Res) :
    (s.setRes lv v).crcAcc = s.crcAcc := by cases lv <;> rfl

@[simp] theorem State.setRes_crcOut (s : State) (lv : Level) (v : Res) :
    (s.setRes lv v).crcOut = s.crcOut := by cases lv <;> rfl

@[simp] theorem State.setRes_cf (s : State) (lv : Level) (v : Res) :
    (s.setRes lv v).cf = s.cf := by cases lv <;> rfl

@[simp] theorem State.setRes_pf (s : State) (lv : Level) (v : Res) :
    (s.setRes lv v).pf = s.pf := by cases lv <;> rfl

@[simp] theorem State.setRes_val (s : State) (lv : Level) (v : Res) :
    (s.setRes lv v).val = s.val := by cases lv <;> rfl

@[simp] theorem State.setRes_cstart (s : State) (lv : Level) (v : Res) :
    (s.setRes lv v).cstart = s.cstart := by cases lv <;> rfl

@[simp] theorem State.setRes_pstart (s : State) (lv : Level) (v : Res) :
    (s.setRes lv v).pstart = s.pstart := by cases lv <;> rfl

@[simp] theorem State.setRes_hdrValid (s : State) (lv : Level) (v : Res) :
    (s.setRes lv v).hdrValid = s.hdrValid := by cases lv <;> rfl

@[simp] theorem State.setRes_ckDone (s : State) (lv : Level) (v : Res) :
    (s.setRes lv v).ckDone = s.ckDone := by cases lv <;> rfl

@[simp] theorem State.setRes_ckBad (s : State) (lv : Level) (v : Res) :
    (s.setRes lv v).ckBad = s.ckBad := by cases lv <;> rfl

@[simp] theorem State.setRes_stop0 (s : State) (lv : Level) (v : Res) :
    (s.setRes lv v).stop0 = s.stop0 := by cases lv <;> rfl

@[simp] theorem State.setRes_stop1 (s : State) (lv : Level) (v : Res) :
    (s.setRes lv v).stop1 = s.stop1 := by cases lv <;> rfl

@[simp] theorem State.setRes_copen (s : State) (lv : Level) (v : Res) :
    (s.setRes lv v).copen = s.copen := by cases lv <;> rfl

@[simp] theorem State.setRes_popen (s : State) (lv : Level) (v : Res) :
    (s.setRes lv v).popen = s.popen := by cases lv <;> rfl

@[simp] theorem State.setRes_chunk_res0 (s : State) (v : Res) :
    (s.setRes .chunk v).res0 = v := rfl

@[simp] theorem State.setRes_param_res0 (s : State) (v : Res) :
    (s.setRes .param v).res0 = s.res0 := rfl

@[simp] theorem State.setRes_param_res1 (s : State) (v : Res) :
    (s.setRes .param v).res1 = v := rfl

@[simp] theorem State.setRes_chunk_res1 (s : State) (v : Res) :
    (s.setRes .chunk v).res1 = s.res1 := rfl

@[simp] theorem State.setRes_err (s : State) (lv : Level) (v : Res) :
    (s.setRes lv v).err = s.err := by cases lv <;> rfl

@[simp] theorem State.setRes_padTol (s : State) (lv : Level) (v : Res) :
    (s.setRes lv v).padTol = s.padTol := by cases lv <;> rfl

@[simp] theorem State.setRes_cknown (s : State) (lv : Level) (v : Res) :
    (s.setRes lv v).cknown = s.cknown := by cases lv <;> rfl

@[simp] theorem State.setRes_pknown (s : State) (lv : Level) (v : Res) :
    (s.setRes lv v).pknown = s.pknown := by cases lv <;> rfl

@[simp] theorem State.setRes_maxPacket (s : State) (lv : Level) (v : Res) :
    (s.setRes lv v).maxPacket = s.maxPacket := by cases lv <;> rfl

@[simp] theorem State.setRes_epoch (s : State) (lv : Level) (v : Res) :
    (s.setRes lv v).epoch = s.epoch := by cases lv <;> rfl

@[simp] theorem State.setRes_pending (s : State) (lv : Level) (v : Res) :
    (s.setRes lv v).pending = s.pending := by cases lv <;> rfl

@[simp] theorem State.setRes_hostRead (s : State) (lv : Level) (v : Res) :
    (s.setRes lv v).hostRead = s.hostRead := by cases lv <;> rfl

/-! ## State.setFrame -/

@[simp] theorem State.setFrame_buf (s : State) (lv : Level) (ty : Half) (fl : Byte) (ln : Half) (vo : Word) (vl : Half) (kn : Bool) :
    (s.setFrame lv ty fl ln vo vl kn).buf = s.buf := by cases lv <;> rfl

@[simp] theorem State.setFrame_len (s : State) (lv : Level) (ty : Half) (fl : Byte) (ln : Half) (vo : Word) (vl : Half) (kn : Bool) :
    (s.setFrame lv ty fl ln vo vl kn).len = s.len := by cases lv <;> rfl

@[simp] theorem State.setFrame_pos0 (s : State) (lv : Level) (ty : Half) (fl : Byte) (ln : Half) (vo : Word) (vl : Half) (kn : Bool) :
    (s.setFrame lv ty fl ln vo vl kn).pos0 = s.pos0 := by cases lv <;> rfl

@[simp] theorem State.setFrame_end0 (s : State) (lv : Level) (ty : Half) (fl : Byte) (ln : Half) (vo : Word) (vl : Half) (kn : Bool) :
    (s.setFrame lv ty fl ln vo vl kn).end0 = s.end0 := by cases lv <;> rfl

@[simp] theorem State.setFrame_pos1 (s : State) (lv : Level) (ty : Half) (fl : Byte) (ln : Half) (vo : Word) (vl : Half) (kn : Bool) :
    (s.setFrame lv ty fl ln vo vl kn).pos1 = s.pos1 := by cases lv <;> rfl

@[simp] theorem State.setFrame_end1 (s : State) (lv : Level) (ty : Half) (fl : Byte) (ln : Half) (vo : Word) (vl : Half) (kn : Bool) :
    (s.setFrame lv ty fl ln vo vl kn).end1 = s.end1 := by cases lv <;> rfl

@[simp] theorem State.setFrame_srcPort (s : State) (lv : Level) (ty : Half) (fl : Byte) (ln : Half) (vo : Word) (vl : Half) (kn : Bool) :
    (s.setFrame lv ty fl ln vo vl kn).srcPort = s.srcPort := by cases lv <;> rfl

@[simp] theorem State.setFrame_dstPort (s : State) (lv : Level) (ty : Half) (fl : Byte) (ln : Half) (vo : Word) (vl : Half) (kn : Bool) :
    (s.setFrame lv ty fl ln vo vl kn).dstPort = s.dstPort := by cases lv <;> rfl

@[simp] theorem State.setFrame_vtag (s : State) (lv : Level) (ty : Half) (fl : Byte) (ln : Half) (vo : Word) (vl : Half) (kn : Bool) :
    (s.setFrame lv ty fl ln vo vl kn).vtag = s.vtag := by cases lv <;> rfl

@[simp] theorem State.setFrame_cksum (s : State) (lv : Level) (ty : Half) (fl : Byte) (ln : Half) (vo : Word) (vl : Half) (kn : Bool) :
    (s.setFrame lv ty fl ln vo vl kn).cksum = s.cksum := by cases lv <;> rfl

@[simp] theorem State.setFrame_crcAcc (s : State) (lv : Level) (ty : Half) (fl : Byte) (ln : Half) (vo : Word) (vl : Half) (kn : Bool) :
    (s.setFrame lv ty fl ln vo vl kn).crcAcc = s.crcAcc := by cases lv <;> rfl

@[simp] theorem State.setFrame_crcOut (s : State) (lv : Level) (ty : Half) (fl : Byte) (ln : Half) (vo : Word) (vl : Half) (kn : Bool) :
    (s.setFrame lv ty fl ln vo vl kn).crcOut = s.crcOut := by cases lv <;> rfl

@[simp] theorem State.setFrame_chunk_cf (s : State) (ty : Half) (fl : Byte) (ln : Half) (vo : Word) (vl : Half) (kn : Bool) :
    (s.setFrame .chunk ty fl ln vo vl kn).cf = ⟨ty.setWidth 8, fl, ln, vo, vl, true, kn⟩ := rfl

@[simp] theorem State.setFrame_param_cf (s : State) (ty : Half) (fl : Byte) (ln : Half) (vo : Word) (vl : Half) (kn : Bool) :
    (s.setFrame .param ty fl ln vo vl kn).cf = s.cf := rfl

@[simp] theorem State.setFrame_param_pf (s : State) (ty : Half) (fl : Byte) (ln : Half) (vo : Word) (vl : Half) (kn : Bool) :
    (s.setFrame .param ty fl ln vo vl kn).pf = ⟨ty, ln, vo, vl, true, kn⟩ := rfl

@[simp] theorem State.setFrame_chunk_pf (s : State) (ty : Half) (fl : Byte) (ln : Half) (vo : Word) (vl : Half) (kn : Bool) :
    (s.setFrame .chunk ty fl ln vo vl kn).pf = s.pf := rfl

@[simp] theorem State.setFrame_val (s : State) (lv : Level) (ty : Half) (fl : Byte) (ln : Half) (vo : Word) (vl : Half) (kn : Bool) :
    (s.setFrame lv ty fl ln vo vl kn).val = s.val := by cases lv <;> rfl

@[simp] theorem State.setFrame_cstart (s : State) (lv : Level) (ty : Half) (fl : Byte) (ln : Half) (vo : Word) (vl : Half) (kn : Bool) :
    (s.setFrame lv ty fl ln vo vl kn).cstart = s.cstart := by cases lv <;> rfl

@[simp] theorem State.setFrame_pstart (s : State) (lv : Level) (ty : Half) (fl : Byte) (ln : Half) (vo : Word) (vl : Half) (kn : Bool) :
    (s.setFrame lv ty fl ln vo vl kn).pstart = s.pstart := by cases lv <;> rfl

@[simp] theorem State.setFrame_hdrValid (s : State) (lv : Level) (ty : Half) (fl : Byte) (ln : Half) (vo : Word) (vl : Half) (kn : Bool) :
    (s.setFrame lv ty fl ln vo vl kn).hdrValid = s.hdrValid := by cases lv <;> rfl

@[simp] theorem State.setFrame_ckDone (s : State) (lv : Level) (ty : Half) (fl : Byte) (ln : Half) (vo : Word) (vl : Half) (kn : Bool) :
    (s.setFrame lv ty fl ln vo vl kn).ckDone = s.ckDone := by cases lv <;> rfl

@[simp] theorem State.setFrame_ckBad (s : State) (lv : Level) (ty : Half) (fl : Byte) (ln : Half) (vo : Word) (vl : Half) (kn : Bool) :
    (s.setFrame lv ty fl ln vo vl kn).ckBad = s.ckBad := by cases lv <;> rfl

@[simp] theorem State.setFrame_stop0 (s : State) (lv : Level) (ty : Half) (fl : Byte) (ln : Half) (vo : Word) (vl : Half) (kn : Bool) :
    (s.setFrame lv ty fl ln vo vl kn).stop0 = s.stop0 := by cases lv <;> rfl

@[simp] theorem State.setFrame_stop1 (s : State) (lv : Level) (ty : Half) (fl : Byte) (ln : Half) (vo : Word) (vl : Half) (kn : Bool) :
    (s.setFrame lv ty fl ln vo vl kn).stop1 = s.stop1 := by cases lv <;> rfl

@[simp] theorem State.setFrame_copen (s : State) (lv : Level) (ty : Half) (fl : Byte) (ln : Half) (vo : Word) (vl : Half) (kn : Bool) :
    (s.setFrame lv ty fl ln vo vl kn).copen = s.copen := by cases lv <;> rfl

@[simp] theorem State.setFrame_popen (s : State) (lv : Level) (ty : Half) (fl : Byte) (ln : Half) (vo : Word) (vl : Half) (kn : Bool) :
    (s.setFrame lv ty fl ln vo vl kn).popen = s.popen := by cases lv <;> rfl

@[simp] theorem State.setFrame_res0 (s : State) (lv : Level) (ty : Half) (fl : Byte) (ln : Half) (vo : Word) (vl : Half) (kn : Bool) :
    (s.setFrame lv ty fl ln vo vl kn).res0 = s.res0 := by cases lv <;> rfl

@[simp] theorem State.setFrame_res1 (s : State) (lv : Level) (ty : Half) (fl : Byte) (ln : Half) (vo : Word) (vl : Half) (kn : Bool) :
    (s.setFrame lv ty fl ln vo vl kn).res1 = s.res1 := by cases lv <;> rfl

@[simp] theorem State.setFrame_err (s : State) (lv : Level) (ty : Half) (fl : Byte) (ln : Half) (vo : Word) (vl : Half) (kn : Bool) :
    (s.setFrame lv ty fl ln vo vl kn).err = s.err := by cases lv <;> rfl

@[simp] theorem State.setFrame_padTol (s : State) (lv : Level) (ty : Half) (fl : Byte) (ln : Half) (vo : Word) (vl : Half) (kn : Bool) :
    (s.setFrame lv ty fl ln vo vl kn).padTol = s.padTol := by cases lv <;> rfl

@[simp] theorem State.setFrame_cknown (s : State) (lv : Level) (ty : Half) (fl : Byte) (ln : Half) (vo : Word) (vl : Half) (kn : Bool) :
    (s.setFrame lv ty fl ln vo vl kn).cknown = s.cknown := by cases lv <;> rfl

@[simp] theorem State.setFrame_pknown (s : State) (lv : Level) (ty : Half) (fl : Byte) (ln : Half) (vo : Word) (vl : Half) (kn : Bool) :
    (s.setFrame lv ty fl ln vo vl kn).pknown = s.pknown := by cases lv <;> rfl

@[simp] theorem State.setFrame_maxPacket (s : State) (lv : Level) (ty : Half) (fl : Byte) (ln : Half) (vo : Word) (vl : Half) (kn : Bool) :
    (s.setFrame lv ty fl ln vo vl kn).maxPacket = s.maxPacket := by cases lv <;> rfl

@[simp] theorem State.setFrame_epoch (s : State) (lv : Level) (ty : Half) (fl : Byte) (ln : Half) (vo : Word) (vl : Half) (kn : Bool) :
    (s.setFrame lv ty fl ln vo vl kn).epoch = s.epoch := by cases lv <;> rfl

@[simp] theorem State.setFrame_pending (s : State) (lv : Level) (ty : Half) (fl : Byte) (ln : Half) (vo : Word) (vl : Half) (kn : Bool) :
    (s.setFrame lv ty fl ln vo vl kn).pending = s.pending := by cases lv <;> rfl

@[simp] theorem State.setFrame_hostRead (s : State) (lv : Level) (ty : Half) (fl : Byte) (ln : Half) (vo : Word) (vl : Half) (kn : Bool) :
    (s.setFrame lv ty fl ln vo vl kn).hostRead = s.hostRead := by cases lv <;> rfl

/-! ## State.clearFrame -/

@[simp] theorem State.clearFrame_buf (s : State) (lv : Level)  :
    (s.clearFrame lv).buf = s.buf := by cases lv <;> rfl

@[simp] theorem State.clearFrame_len (s : State) (lv : Level)  :
    (s.clearFrame lv).len = s.len := by cases lv <;> rfl

@[simp] theorem State.clearFrame_pos0 (s : State) (lv : Level)  :
    (s.clearFrame lv).pos0 = s.pos0 := by cases lv <;> rfl

@[simp] theorem State.clearFrame_end0 (s : State) (lv : Level)  :
    (s.clearFrame lv).end0 = s.end0 := by cases lv <;> rfl

@[simp] theorem State.clearFrame_pos1 (s : State) (lv : Level)  :
    (s.clearFrame lv).pos1 = s.pos1 := by cases lv <;> rfl

@[simp] theorem State.clearFrame_end1 (s : State) (lv : Level)  :
    (s.clearFrame lv).end1 = s.end1 := by cases lv <;> rfl

@[simp] theorem State.clearFrame_srcPort (s : State) (lv : Level)  :
    (s.clearFrame lv).srcPort = s.srcPort := by cases lv <;> rfl

@[simp] theorem State.clearFrame_dstPort (s : State) (lv : Level)  :
    (s.clearFrame lv).dstPort = s.dstPort := by cases lv <;> rfl

@[simp] theorem State.clearFrame_vtag (s : State) (lv : Level)  :
    (s.clearFrame lv).vtag = s.vtag := by cases lv <;> rfl

@[simp] theorem State.clearFrame_cksum (s : State) (lv : Level)  :
    (s.clearFrame lv).cksum = s.cksum := by cases lv <;> rfl

@[simp] theorem State.clearFrame_crcAcc (s : State) (lv : Level)  :
    (s.clearFrame lv).crcAcc = s.crcAcc := by cases lv <;> rfl

@[simp] theorem State.clearFrame_crcOut (s : State) (lv : Level)  :
    (s.clearFrame lv).crcOut = s.crcOut := by cases lv <;> rfl

@[simp] theorem State.clearFrame_chunk_cf (s : State)  :
    (s.clearFrame .chunk).cf = ChunkFrame.clear := rfl

@[simp] theorem State.clearFrame_param_cf (s : State)  :
    (s.clearFrame .param).cf = s.cf := rfl

@[simp] theorem State.clearFrame_param_pf (s : State)  :
    (s.clearFrame .param).pf = ParamFrame.clear := rfl

@[simp] theorem State.clearFrame_chunk_pf (s : State)  :
    (s.clearFrame .chunk).pf = s.pf := rfl

@[simp] theorem State.clearFrame_val (s : State) (lv : Level)  :
    (s.clearFrame lv).val = s.val := by cases lv <;> rfl

@[simp] theorem State.clearFrame_cstart (s : State) (lv : Level)  :
    (s.clearFrame lv).cstart = s.cstart := by cases lv <;> rfl

@[simp] theorem State.clearFrame_pstart (s : State) (lv : Level)  :
    (s.clearFrame lv).pstart = s.pstart := by cases lv <;> rfl

@[simp] theorem State.clearFrame_hdrValid (s : State) (lv : Level)  :
    (s.clearFrame lv).hdrValid = s.hdrValid := by cases lv <;> rfl

@[simp] theorem State.clearFrame_ckDone (s : State) (lv : Level)  :
    (s.clearFrame lv).ckDone = s.ckDone := by cases lv <;> rfl

@[simp] theorem State.clearFrame_ckBad (s : State) (lv : Level)  :
    (s.clearFrame lv).ckBad = s.ckBad := by cases lv <;> rfl

@[simp] theorem State.clearFrame_stop0 (s : State) (lv : Level)  :
    (s.clearFrame lv).stop0 = s.stop0 := by cases lv <;> rfl

@[simp] theorem State.clearFrame_stop1 (s : State) (lv : Level)  :
    (s.clearFrame lv).stop1 = s.stop1 := by cases lv <;> rfl

@[simp] theorem State.clearFrame_copen (s : State) (lv : Level)  :
    (s.clearFrame lv).copen = s.copen := by cases lv <;> rfl

@[simp] theorem State.clearFrame_popen (s : State) (lv : Level)  :
    (s.clearFrame lv).popen = s.popen := by cases lv <;> rfl

@[simp] theorem State.clearFrame_res0 (s : State) (lv : Level)  :
    (s.clearFrame lv).res0 = s.res0 := by cases lv <;> rfl

@[simp] theorem State.clearFrame_res1 (s : State) (lv : Level)  :
    (s.clearFrame lv).res1 = s.res1 := by cases lv <;> rfl

@[simp] theorem State.clearFrame_err (s : State) (lv : Level)  :
    (s.clearFrame lv).err = s.err := by cases lv <;> rfl

@[simp] theorem State.clearFrame_padTol (s : State) (lv : Level)  :
    (s.clearFrame lv).padTol = s.padTol := by cases lv <;> rfl

@[simp] theorem State.clearFrame_cknown (s : State) (lv : Level)  :
    (s.clearFrame lv).cknown = s.cknown := by cases lv <;> rfl

@[simp] theorem State.clearFrame_pknown (s : State) (lv : Level)  :
    (s.clearFrame lv).pknown = s.pknown := by cases lv <;> rfl

@[simp] theorem State.clearFrame_maxPacket (s : State) (lv : Level)  :
    (s.clearFrame lv).maxPacket = s.maxPacket := by cases lv <;> rfl

@[simp] theorem State.clearFrame_epoch (s : State) (lv : Level)  :
    (s.clearFrame lv).epoch = s.epoch := by cases lv <;> rfl

@[simp] theorem State.clearFrame_pending (s : State) (lv : Level)  :
    (s.clearFrame lv).pending = s.pending := by cases lv <;> rfl

@[simp] theorem State.clearFrame_hostRead (s : State) (lv : Level)  :
    (s.clearFrame lv).hostRead = s.hostRead := by cases lv <;> rfl

/-! ## bufWrite -/

@[simp] theorem bufWrite_buf (a : Nat) (bytes : List Byte) (s : State) :
    (bufWrite a bytes s).buf = Memory.putRun s.maxPacket s.buf a bytes := rfl

@[simp] theorem bufWrite_len (a : Nat) (bytes : List Byte) (s : State) :
    (bufWrite a bytes s).len = s.len := rfl

@[simp] theorem bufWrite_pos0 (a : Nat) (bytes : List Byte) (s : State) :
    (bufWrite a bytes s).pos0 = s.pos0 := rfl

@[simp] theorem bufWrite_end0 (a : Nat) (bytes : List Byte) (s : State) :
    (bufWrite a bytes s).end0 = s.end0 := rfl

@[simp] theorem bufWrite_pos1 (a : Nat) (bytes : List Byte) (s : State) :
    (bufWrite a bytes s).pos1 = s.pos1 := rfl

@[simp] theorem bufWrite_end1 (a : Nat) (bytes : List Byte) (s : State) :
    (bufWrite a bytes s).end1 = s.end1 := rfl

@[simp] theorem bufWrite_srcPort (a : Nat) (bytes : List Byte) (s : State) :
    (bufWrite a bytes s).srcPort = s.srcPort := rfl

@[simp] theorem bufWrite_dstPort (a : Nat) (bytes : List Byte) (s : State) :
    (bufWrite a bytes s).dstPort = s.dstPort := rfl

@[simp] theorem bufWrite_vtag (a : Nat) (bytes : List Byte) (s : State) :
    (bufWrite a bytes s).vtag = s.vtag := rfl

@[simp] theorem bufWrite_cksum (a : Nat) (bytes : List Byte) (s : State) :
    (bufWrite a bytes s).cksum = s.cksum := rfl

@[simp] theorem bufWrite_crcAcc (a : Nat) (bytes : List Byte) (s : State) :
    (bufWrite a bytes s).crcAcc = s.crcAcc := rfl

@[simp] theorem bufWrite_crcOut (a : Nat) (bytes : List Byte) (s : State) :
    (bufWrite a bytes s).crcOut = s.crcOut := rfl

@[simp] theorem bufWrite_cf (a : Nat) (bytes : List Byte) (s : State) :
    (bufWrite a bytes s).cf = s.cf := rfl

@[simp] theorem bufWrite_pf (a : Nat) (bytes : List Byte) (s : State) :
    (bufWrite a bytes s).pf = s.pf := rfl

@[simp] theorem bufWrite_val (a : Nat) (bytes : List Byte) (s : State) :
    (bufWrite a bytes s).val = s.val := rfl

@[simp] theorem bufWrite_cstart (a : Nat) (bytes : List Byte) (s : State) :
    (bufWrite a bytes s).cstart = s.cstart := rfl

@[simp] theorem bufWrite_pstart (a : Nat) (bytes : List Byte) (s : State) :
    (bufWrite a bytes s).pstart = s.pstart := rfl

@[simp] theorem bufWrite_hdrValid (a : Nat) (bytes : List Byte) (s : State) :
    (bufWrite a bytes s).hdrValid = s.hdrValid := rfl

@[simp] theorem bufWrite_ckDone (a : Nat) (bytes : List Byte) (s : State) :
    (bufWrite a bytes s).ckDone = s.ckDone := rfl

@[simp] theorem bufWrite_ckBad (a : Nat) (bytes : List Byte) (s : State) :
    (bufWrite a bytes s).ckBad = s.ckBad := rfl

@[simp] theorem bufWrite_stop0 (a : Nat) (bytes : List Byte) (s : State) :
    (bufWrite a bytes s).stop0 = s.stop0 := rfl

@[simp] theorem bufWrite_stop1 (a : Nat) (bytes : List Byte) (s : State) :
    (bufWrite a bytes s).stop1 = s.stop1 := rfl

@[simp] theorem bufWrite_copen (a : Nat) (bytes : List Byte) (s : State) :
    (bufWrite a bytes s).copen = s.copen := rfl

@[simp] theorem bufWrite_popen (a : Nat) (bytes : List Byte) (s : State) :
    (bufWrite a bytes s).popen = s.popen := rfl

@[simp] theorem bufWrite_res0 (a : Nat) (bytes : List Byte) (s : State) :
    (bufWrite a bytes s).res0 = s.res0 := rfl

@[simp] theorem bufWrite_res1 (a : Nat) (bytes : List Byte) (s : State) :
    (bufWrite a bytes s).res1 = s.res1 := rfl

@[simp] theorem bufWrite_err (a : Nat) (bytes : List Byte) (s : State) :
    (bufWrite a bytes s).err = s.err := rfl

@[simp] theorem bufWrite_padTol (a : Nat) (bytes : List Byte) (s : State) :
    (bufWrite a bytes s).padTol = s.padTol := rfl

@[simp] theorem bufWrite_cknown (a : Nat) (bytes : List Byte) (s : State) :
    (bufWrite a bytes s).cknown = s.cknown := rfl

@[simp] theorem bufWrite_pknown (a : Nat) (bytes : List Byte) (s : State) :
    (bufWrite a bytes s).pknown = s.pknown := rfl

@[simp] theorem bufWrite_maxPacket (a : Nat) (bytes : List Byte) (s : State) :
    (bufWrite a bytes s).maxPacket = s.maxPacket := rfl

@[simp] theorem bufWrite_epoch (a : Nat) (bytes : List Byte) (s : State) :
    (bufWrite a bytes s).epoch = s.epoch := rfl

@[simp] theorem bufWrite_pending (a : Nat) (bytes : List Byte) (s : State) :
    (bufWrite a bytes s).pending = s.pending := rfl

@[simp] theorem bufWrite_hostRead (a : Nat) (bytes : List Byte) (s : State) :
    (bufWrite a bytes s).hostRead = s.hostRead := rfl

/-! ## pushBytes -/

@[simp] theorem pushBytes_buf (bytes : List Byte) (s : State) :
    (pushBytes bytes s).buf = Memory.putRun s.maxPacket s.buf s.len.toNat bytes := rfl

@[simp] theorem pushBytes_len (bytes : List Byte) (s : State) :
    (pushBytes bytes s).len = BitVec.ofNat 32 (s.len.toNat + bytes.length) := rfl

@[simp] theorem pushBytes_pos0 (bytes : List Byte) (s : State) :
    (pushBytes bytes s).pos0 = s.pos0 := rfl

@[simp] theorem pushBytes_end0 (bytes : List Byte) (s : State) :
    (pushBytes bytes s).end0 = s.end0 := rfl

@[simp] theorem pushBytes_pos1 (bytes : List Byte) (s : State) :
    (pushBytes bytes s).pos1 = s.pos1 := rfl

@[simp] theorem pushBytes_end1 (bytes : List Byte) (s : State) :
    (pushBytes bytes s).end1 = s.end1 := rfl

@[simp] theorem pushBytes_srcPort (bytes : List Byte) (s : State) :
    (pushBytes bytes s).srcPort = s.srcPort := rfl

@[simp] theorem pushBytes_dstPort (bytes : List Byte) (s : State) :
    (pushBytes bytes s).dstPort = s.dstPort := rfl

@[simp] theorem pushBytes_vtag (bytes : List Byte) (s : State) :
    (pushBytes bytes s).vtag = s.vtag := rfl

@[simp] theorem pushBytes_cksum (bytes : List Byte) (s : State) :
    (pushBytes bytes s).cksum = s.cksum := rfl

@[simp] theorem pushBytes_crcAcc (bytes : List Byte) (s : State) :
    (pushBytes bytes s).crcAcc = s.crcAcc := rfl

@[simp] theorem pushBytes_crcOut (bytes : List Byte) (s : State) :
    (pushBytes bytes s).crcOut = s.crcOut := rfl

@[simp] theorem pushBytes_cf (bytes : List Byte) (s : State) :
    (pushBytes bytes s).cf = s.cf := rfl

@[simp] theorem pushBytes_pf (bytes : List Byte) (s : State) :
    (pushBytes bytes s).pf = s.pf := rfl

@[simp] theorem pushBytes_val (bytes : List Byte) (s : State) :
    (pushBytes bytes s).val = s.val := rfl

@[simp] theorem pushBytes_cstart (bytes : List Byte) (s : State) :
    (pushBytes bytes s).cstart = s.cstart := rfl

@[simp] theorem pushBytes_pstart (bytes : List Byte) (s : State) :
    (pushBytes bytes s).pstart = s.pstart := rfl

@[simp] theorem pushBytes_hdrValid (bytes : List Byte) (s : State) :
    (pushBytes bytes s).hdrValid = s.hdrValid := rfl

@[simp] theorem pushBytes_ckDone (bytes : List Byte) (s : State) :
    (pushBytes bytes s).ckDone = s.ckDone := rfl

@[simp] theorem pushBytes_ckBad (bytes : List Byte) (s : State) :
    (pushBytes bytes s).ckBad = s.ckBad := rfl

@[simp] theorem pushBytes_stop0 (bytes : List Byte) (s : State) :
    (pushBytes bytes s).stop0 = s.stop0 := rfl

@[simp] theorem pushBytes_stop1 (bytes : List Byte) (s : State) :
    (pushBytes bytes s).stop1 = s.stop1 := rfl

@[simp] theorem pushBytes_copen (bytes : List Byte) (s : State) :
    (pushBytes bytes s).copen = s.copen := rfl

@[simp] theorem pushBytes_popen (bytes : List Byte) (s : State) :
    (pushBytes bytes s).popen = s.popen := rfl

@[simp] theorem pushBytes_res0 (bytes : List Byte) (s : State) :
    (pushBytes bytes s).res0 = s.res0 := rfl

@[simp] theorem pushBytes_res1 (bytes : List Byte) (s : State) :
    (pushBytes bytes s).res1 = s.res1 := rfl

@[simp] theorem pushBytes_err (bytes : List Byte) (s : State) :
    (pushBytes bytes s).err = s.err := rfl

@[simp] theorem pushBytes_padTol (bytes : List Byte) (s : State) :
    (pushBytes bytes s).padTol = s.padTol := rfl

@[simp] theorem pushBytes_cknown (bytes : List Byte) (s : State) :
    (pushBytes bytes s).cknown = s.cknown := rfl

@[simp] theorem pushBytes_pknown (bytes : List Byte) (s : State) :
    (pushBytes bytes s).pknown = s.pknown := rfl

@[simp] theorem pushBytes_maxPacket (bytes : List Byte) (s : State) :
    (pushBytes bytes s).maxPacket = s.maxPacket := rfl

@[simp] theorem pushBytes_epoch (bytes : List Byte) (s : State) :
    (pushBytes bytes s).epoch = s.epoch := rfl

@[simp] theorem pushBytes_pending (bytes : List Byte) (s : State) :
    (pushBytes bytes s).pending = s.pending := rfl

@[simp] theorem pushBytes_hostRead (bytes : List Byte) (s : State) :
    (pushBytes bytes s).hostRead = s.hostRead := rfl

/-! ## fatal -/

@[simp] theorem fatal_buf (t : Trap) (s : State) :
    (fatal t s).buf = s.buf := rfl

@[simp] theorem fatal_len (t : Trap) (s : State) :
    (fatal t s).len = s.len := rfl

@[simp] theorem fatal_pos0 (t : Trap) (s : State) :
    (fatal t s).pos0 = s.pos0 := rfl

@[simp] theorem fatal_end0 (t : Trap) (s : State) :
    (fatal t s).end0 = s.end0 := rfl

@[simp] theorem fatal_pos1 (t : Trap) (s : State) :
    (fatal t s).pos1 = s.pos1 := rfl

@[simp] theorem fatal_end1 (t : Trap) (s : State) :
    (fatal t s).end1 = s.end1 := rfl

@[simp] theorem fatal_srcPort (t : Trap) (s : State) :
    (fatal t s).srcPort = s.srcPort := rfl

@[simp] theorem fatal_dstPort (t : Trap) (s : State) :
    (fatal t s).dstPort = s.dstPort := rfl

@[simp] theorem fatal_vtag (t : Trap) (s : State) :
    (fatal t s).vtag = s.vtag := rfl

@[simp] theorem fatal_cksum (t : Trap) (s : State) :
    (fatal t s).cksum = s.cksum := rfl

@[simp] theorem fatal_crcAcc (t : Trap) (s : State) :
    (fatal t s).crcAcc = s.crcAcc := rfl

@[simp] theorem fatal_crcOut (t : Trap) (s : State) :
    (fatal t s).crcOut = s.crcOut := rfl

@[simp] theorem fatal_cf (t : Trap) (s : State) :
    (fatal t s).cf = ChunkFrame.clear := rfl

@[simp] theorem fatal_pf (t : Trap) (s : State) :
    (fatal t s).pf = ParamFrame.clear := rfl

@[simp] theorem fatal_val (t : Trap) (s : State) :
    (fatal t s).val = s.val := rfl

@[simp] theorem fatal_cstart (t : Trap) (s : State) :
    (fatal t s).cstart = s.cstart := rfl

@[simp] theorem fatal_pstart (t : Trap) (s : State) :
    (fatal t s).pstart = s.pstart := rfl

@[simp] theorem fatal_hdrValid (t : Trap) (s : State) :
    (fatal t s).hdrValid = false := rfl

@[simp] theorem fatal_ckDone (t : Trap) (s : State) :
    (fatal t s).ckDone = s.ckDone := rfl

@[simp] theorem fatal_ckBad (t : Trap) (s : State) :
    (fatal t s).ckBad = s.ckBad := rfl

@[simp] theorem fatal_stop0 (t : Trap) (s : State) :
    (fatal t s).stop0 = s.stop0 := rfl

@[simp] theorem fatal_stop1 (t : Trap) (s : State) :
    (fatal t s).stop1 = s.stop1 := rfl

@[simp] theorem fatal_copen (t : Trap) (s : State) :
    (fatal t s).copen = s.copen := rfl

@[simp] theorem fatal_popen (t : Trap) (s : State) :
    (fatal t s).popen = s.popen := rfl

@[simp] theorem fatal_res0 (t : Trap) (s : State) :
    (fatal t s).res0 = .none := rfl

@[simp] theorem fatal_res1 (t : Trap) (s : State) :
    (fatal t s).res1 = .none := rfl

@[simp] theorem fatal_err (t : Trap) (s : State) :
    (fatal t s).err = ⟨t.kind, t.cause, t.info, t.etype⟩ := rfl

@[simp] theorem fatal_padTol (t : Trap) (s : State) :
    (fatal t s).padTol = s.padTol := rfl

@[simp] theorem fatal_cknown (t : Trap) (s : State) :
    (fatal t s).cknown = s.cknown := rfl

@[simp] theorem fatal_pknown (t : Trap) (s : State) :
    (fatal t s).pknown = s.pknown := rfl

@[simp] theorem fatal_maxPacket (t : Trap) (s : State) :
    (fatal t s).maxPacket = s.maxPacket := rfl

@[simp] theorem fatal_epoch (t : Trap) (s : State) :
    (fatal t s).epoch = s.epoch := rfl

@[simp] theorem fatal_pending (t : Trap) (s : State) :
    (fatal t s).pending = s.pending := rfl

@[simp] theorem fatal_hostRead (t : Trap) (s : State) :
    (fatal t s).hostRead = s.hostRead := rfl

/-! ## startActions -/

@[simp] theorem startActions_buf (s : State) :
    (startActions s).buf = s.buf := rfl

@[simp] theorem startActions_len (s : State) :
    (startActions s).len = s.len := rfl

@[simp] theorem startActions_pos0 (s : State) :
    (startActions s).pos0 = 0 := rfl

@[simp] theorem startActions_end0 (s : State) :
    (startActions s).end0 = s.len := rfl

@[simp] theorem startActions_pos1 (s : State) :
    (startActions s).pos1 = 0 := rfl

@[simp] theorem startActions_end1 (s : State) :
    (startActions s).end1 = s.len := rfl

@[simp] theorem startActions_srcPort (s : State) :
    (startActions s).srcPort = s.srcPort := rfl

@[simp] theorem startActions_dstPort (s : State) :
    (startActions s).dstPort = s.dstPort := rfl

@[simp] theorem startActions_vtag (s : State) :
    (startActions s).vtag = s.vtag := rfl

@[simp] theorem startActions_cksum (s : State) :
    (startActions s).cksum = s.cksum := rfl

@[simp] theorem startActions_crcAcc (s : State) :
    (startActions s).crcAcc = s.crcAcc := rfl

@[simp] theorem startActions_crcOut (s : State) :
    (startActions s).crcOut = s.crcOut := rfl

@[simp] theorem startActions_cf (s : State) :
    (startActions s).cf = ChunkFrame.clear := rfl

@[simp] theorem startActions_pf (s : State) :
    (startActions s).pf = ParamFrame.clear := rfl

@[simp] theorem startActions_val (s : State) :
    (startActions s).val = 0 := rfl

@[simp] theorem startActions_cstart (s : State) :
    (startActions s).cstart = s.cstart := rfl

@[simp] theorem startActions_pstart (s : State) :
    (startActions s).pstart = s.pstart := rfl

@[simp] theorem startActions_hdrValid (s : State) :
    (startActions s).hdrValid = false := rfl

@[simp] theorem startActions_ckDone (s : State) :
    (startActions s).ckDone = false := rfl

@[simp] theorem startActions_ckBad (s : State) :
    (startActions s).ckBad = false := rfl

@[simp] theorem startActions_stop0 (s : State) :
    (startActions s).stop0 = false := rfl

@[simp] theorem startActions_stop1 (s : State) :
    (startActions s).stop1 = false := rfl

@[simp] theorem startActions_copen (s : State) :
    (startActions s).copen = false := rfl

@[simp] theorem startActions_popen (s : State) :
    (startActions s).popen = false := rfl

@[simp] theorem startActions_res0 (s : State) :
    (startActions s).res0 = .none := rfl

@[simp] theorem startActions_res1 (s : State) :
    (startActions s).res1 = .none := rfl

@[simp] theorem startActions_err (s : State) :
    (startActions s).err = ErrRegs.clear := rfl

@[simp] theorem startActions_padTol (s : State) :
    (startActions s).padTol = s.padTol := rfl

@[simp] theorem startActions_cknown (s : State) :
    (startActions s).cknown = s.cknown := rfl

@[simp] theorem startActions_pknown (s : State) :
    (startActions s).pknown = s.pknown := rfl

@[simp] theorem startActions_maxPacket (s : State) :
    (startActions s).maxPacket = s.maxPacket := rfl

@[simp] theorem startActions_epoch (s : State) :
    (startActions s).epoch = s.epoch := rfl

@[simp] theorem startActions_pending (s : State) :
    (startActions s).pending = s.pending := rfl

@[simp] theorem startActions_hostRead (s : State) :
    (startActions s).hostRead = s.hostRead := rfl

/-! ## packetCrc -/

@[simp] theorem packetCrc_buf (s : State) :
    (packetCrc s).buf = s.buf := rfl

@[simp] theorem packetCrc_len (s : State) :
    (packetCrc s).len = s.len := rfl

@[simp] theorem packetCrc_pos0 (s : State) :
    (packetCrc s).pos0 = s.pos0 := rfl

@[simp] theorem packetCrc_end0 (s : State) :
    (packetCrc s).end0 = s.end0 := rfl

@[simp] theorem packetCrc_pos1 (s : State) :
    (packetCrc s).pos1 = s.pos1 := rfl

@[simp] theorem packetCrc_end1 (s : State) :
    (packetCrc s).end1 = s.end1 := rfl

@[simp] theorem packetCrc_srcPort (s : State) :
    (packetCrc s).srcPort = s.srcPort := rfl

@[simp] theorem packetCrc_dstPort (s : State) :
    (packetCrc s).dstPort = s.dstPort := rfl

@[simp] theorem packetCrc_vtag (s : State) :
    (packetCrc s).vtag = s.vtag := rfl

@[simp] theorem packetCrc_cksum (s : State) :
    (packetCrc s).cksum = s.cksum := rfl

@[simp] theorem packetCrc_crcAcc (s : State) :
    (packetCrc s).crcAcc = crcRun crcOnes (packetBytes s) := rfl

@[simp] theorem packetCrc_crcOut (s : State) :
    (packetCrc s).crcOut = crcRun crcOnes (packetBytes s) ^^^ crcOnes := rfl

@[simp] theorem packetCrc_cf (s : State) :
    (packetCrc s).cf = s.cf := rfl

@[simp] theorem packetCrc_pf (s : State) :
    (packetCrc s).pf = s.pf := rfl

@[simp] theorem packetCrc_val (s : State) :
    (packetCrc s).val = s.val := rfl

@[simp] theorem packetCrc_cstart (s : State) :
    (packetCrc s).cstart = s.cstart := rfl

@[simp] theorem packetCrc_pstart (s : State) :
    (packetCrc s).pstart = s.pstart := rfl

@[simp] theorem packetCrc_hdrValid (s : State) :
    (packetCrc s).hdrValid = s.hdrValid := rfl

@[simp] theorem packetCrc_ckDone (s : State) :
    (packetCrc s).ckDone = s.ckDone := rfl

@[simp] theorem packetCrc_ckBad (s : State) :
    (packetCrc s).ckBad = s.ckBad := rfl

@[simp] theorem packetCrc_stop0 (s : State) :
    (packetCrc s).stop0 = s.stop0 := rfl

@[simp] theorem packetCrc_stop1 (s : State) :
    (packetCrc s).stop1 = s.stop1 := rfl

@[simp] theorem packetCrc_copen (s : State) :
    (packetCrc s).copen = s.copen := rfl

@[simp] theorem packetCrc_popen (s : State) :
    (packetCrc s).popen = s.popen := rfl

@[simp] theorem packetCrc_res0 (s : State) :
    (packetCrc s).res0 = s.res0 := rfl

@[simp] theorem packetCrc_res1 (s : State) :
    (packetCrc s).res1 = s.res1 := rfl

@[simp] theorem packetCrc_err (s : State) :
    (packetCrc s).err = s.err := rfl

@[simp] theorem packetCrc_padTol (s : State) :
    (packetCrc s).padTol = s.padTol := rfl

@[simp] theorem packetCrc_cknown (s : State) :
    (packetCrc s).cknown = s.cknown := rfl

@[simp] theorem packetCrc_pknown (s : State) :
    (packetCrc s).pknown = s.pknown := rfl

@[simp] theorem packetCrc_maxPacket (s : State) :
    (packetCrc s).maxPacket = s.maxPacket := rfl

@[simp] theorem packetCrc_epoch (s : State) :
    (packetCrc s).epoch = s.epoch := rfl

@[simp] theorem packetCrc_pending (s : State) :
    (packetCrc s).pending = s.pending := rfl

@[simp] theorem packetCrc_hostRead (s : State) :
    (packetCrc s).hostRead = s.hostRead := rfl

/-! ## loadHeader -/

@[simp] theorem loadHeader_buf (s : State) (a : Nat) :
    (loadHeader s a).buf = s.buf := rfl

@[simp] theorem loadHeader_len (s : State) (a : Nat) :
    (loadHeader s a).len = s.len := rfl

@[simp] theorem loadHeader_pos0 (s : State) (a : Nat) :
    (loadHeader s a).pos0 = s.pos0 := rfl

@[simp] theorem loadHeader_end0 (s : State) (a : Nat) :
    (loadHeader s a).end0 = s.end0 := rfl

@[simp] theorem loadHeader_pos1 (s : State) (a : Nat) :
    (loadHeader s a).pos1 = s.pos1 := rfl

@[simp] theorem loadHeader_end1 (s : State) (a : Nat) :
    (loadHeader s a).end1 = s.end1 := rfl

@[simp] theorem loadHeader_srcPort (s : State) (a : Nat) :
    (loadHeader s a).srcPort = rd16 s a := rfl

@[simp] theorem loadHeader_dstPort (s : State) (a : Nat) :
    (loadHeader s a).dstPort = rd16 s (a + 2) := rfl

@[simp] theorem loadHeader_vtag (s : State) (a : Nat) :
    (loadHeader s a).vtag = rd32 s (a + 4) := rfl

@[simp] theorem loadHeader_cksum (s : State) (a : Nat) :
    (loadHeader s a).cksum = rd32 s (a + 8) := rfl

@[simp] theorem loadHeader_crcAcc (s : State) (a : Nat) :
    (loadHeader s a).crcAcc = s.crcAcc := rfl

@[simp] theorem loadHeader_crcOut (s : State) (a : Nat) :
    (loadHeader s a).crcOut = s.crcOut := rfl

@[simp] theorem loadHeader_cf (s : State) (a : Nat) :
    (loadHeader s a).cf = s.cf := rfl

@[simp] theorem loadHeader_pf (s : State) (a : Nat) :
    (loadHeader s a).pf = s.pf := rfl

@[simp] theorem loadHeader_val (s : State) (a : Nat) :
    (loadHeader s a).val = s.val := rfl

@[simp] theorem loadHeader_cstart (s : State) (a : Nat) :
    (loadHeader s a).cstart = s.cstart := rfl

@[simp] theorem loadHeader_pstart (s : State) (a : Nat) :
    (loadHeader s a).pstart = s.pstart := rfl

@[simp] theorem loadHeader_hdrValid (s : State) (a : Nat) :
    (loadHeader s a).hdrValid = true := rfl

@[simp] theorem loadHeader_ckDone (s : State) (a : Nat) :
    (loadHeader s a).ckDone = s.ckDone := rfl

@[simp] theorem loadHeader_ckBad (s : State) (a : Nat) :
    (loadHeader s a).ckBad = s.ckBad := rfl

@[simp] theorem loadHeader_stop0 (s : State) (a : Nat) :
    (loadHeader s a).stop0 = s.stop0 := rfl

@[simp] theorem loadHeader_stop1 (s : State) (a : Nat) :
    (loadHeader s a).stop1 = s.stop1 := rfl

@[simp] theorem loadHeader_copen (s : State) (a : Nat) :
    (loadHeader s a).copen = s.copen := rfl

@[simp] theorem loadHeader_popen (s : State) (a : Nat) :
    (loadHeader s a).popen = s.popen := rfl

@[simp] theorem loadHeader_res0 (s : State) (a : Nat) :
    (loadHeader s a).res0 = s.res0 := rfl

@[simp] theorem loadHeader_res1 (s : State) (a : Nat) :
    (loadHeader s a).res1 = s.res1 := rfl

@[simp] theorem loadHeader_err (s : State) (a : Nat) :
    (loadHeader s a).err = s.err := rfl

@[simp] theorem loadHeader_padTol (s : State) (a : Nat) :
    (loadHeader s a).padTol = s.padTol := rfl

@[simp] theorem loadHeader_cknown (s : State) (a : Nat) :
    (loadHeader s a).cknown = s.cknown := rfl

@[simp] theorem loadHeader_pknown (s : State) (a : Nat) :
    (loadHeader s a).pknown = s.pknown := rfl

@[simp] theorem loadHeader_maxPacket (s : State) (a : Nat) :
    (loadHeader s a).maxPacket = s.maxPacket := rfl

@[simp] theorem loadHeader_epoch (s : State) (a : Nat) :
    (loadHeader s a).epoch = s.epoch := rfl

@[simp] theorem loadHeader_pending (s : State) (a : Nat) :
    (loadHeader s a).pending = s.pending := rfl

@[simp] theorem loadHeader_hostRead (s : State) (a : Nat) :
    (loadHeader s a).hostRead = s.hostRead := rfl

/-! ## enterParams -/

@[simp] theorem enterParams_buf (k : Half) (s : State) :
    (enterParams k s).buf = s.buf := rfl

@[simp] theorem enterParams_len (k : Half) (s : State) :
    (enterParams k s).len = s.len := rfl

@[simp] theorem enterParams_pos0 (k : Half) (s : State) :
    (enterParams k s).pos0 = s.pos0 := rfl

@[simp] theorem enterParams_end0 (k : Half) (s : State) :
    (enterParams k s).end0 = s.end0 := rfl

@[simp] theorem enterParams_pos1 (k : Half) (s : State) :
    (enterParams k s).pos1 = BitVec.ofNat 32 (s.cf.voff.toNat + k.toNat) := rfl

@[simp] theorem enterParams_end1 (k : Half) (s : State) :
    (enterParams k s).end1 = BitVec.ofNat 32 (s.cf.voff.toNat + s.cf.vlen.toNat) := rfl

@[simp] theorem enterParams_srcPort (k : Half) (s : State) :
    (enterParams k s).srcPort = s.srcPort := rfl

@[simp] theorem enterParams_dstPort (k : Half) (s : State) :
    (enterParams k s).dstPort = s.dstPort := rfl

@[simp] theorem enterParams_vtag (k : Half) (s : State) :
    (enterParams k s).vtag = s.vtag := rfl

@[simp] theorem enterParams_cksum (k : Half) (s : State) :
    (enterParams k s).cksum = s.cksum := rfl

@[simp] theorem enterParams_crcAcc (k : Half) (s : State) :
    (enterParams k s).crcAcc = s.crcAcc := rfl

@[simp] theorem enterParams_crcOut (k : Half) (s : State) :
    (enterParams k s).crcOut = s.crcOut := rfl

@[simp] theorem enterParams_cf (k : Half) (s : State) :
    (enterParams k s).cf = s.cf := rfl

@[simp] theorem enterParams_pf (k : Half) (s : State) :
    (enterParams k s).pf = ParamFrame.clear := rfl

@[simp] theorem enterParams_val (k : Half) (s : State) :
    (enterParams k s).val = s.val := rfl

@[simp] theorem enterParams_cstart (k : Half) (s : State) :
    (enterParams k s).cstart = s.cstart := rfl

@[simp] theorem enterParams_pstart (k : Half) (s : State) :
    (enterParams k s).pstart = s.pstart := rfl

@[simp] theorem enterParams_hdrValid (k : Half) (s : State) :
    (enterParams k s).hdrValid = s.hdrValid := rfl

@[simp] theorem enterParams_ckDone (k : Half) (s : State) :
    (enterParams k s).ckDone = s.ckDone := rfl

@[simp] theorem enterParams_ckBad (k : Half) (s : State) :
    (enterParams k s).ckBad = s.ckBad := rfl

@[simp] theorem enterParams_stop0 (k : Half) (s : State) :
    (enterParams k s).stop0 = s.stop0 := rfl

@[simp] theorem enterParams_stop1 (k : Half) (s : State) :
    (enterParams k s).stop1 = false := rfl

@[simp] theorem enterParams_copen (k : Half) (s : State) :
    (enterParams k s).copen = s.copen := rfl

@[simp] theorem enterParams_popen (k : Half) (s : State) :
    (enterParams k s).popen = s.popen := rfl

@[simp] theorem enterParams_res0 (k : Half) (s : State) :
    (enterParams k s).res0 = s.res0 := rfl

@[simp] theorem enterParams_res1 (k : Half) (s : State) :
    (enterParams k s).res1 = .none := rfl

@[simp] theorem enterParams_err (k : Half) (s : State) :
    (enterParams k s).err = s.err := rfl

@[simp] theorem enterParams_padTol (k : Half) (s : State) :
    (enterParams k s).padTol = s.padTol := rfl

@[simp] theorem enterParams_cknown (k : Half) (s : State) :
    (enterParams k s).cknown = s.cknown := rfl

@[simp] theorem enterParams_pknown (k : Half) (s : State) :
    (enterParams k s).pknown = s.pknown := rfl

@[simp] theorem enterParams_maxPacket (k : Half) (s : State) :
    (enterParams k s).maxPacket = s.maxPacket := rfl

@[simp] theorem enterParams_epoch (k : Half) (s : State) :
    (enterParams k s).epoch = s.epoch := rfl

@[simp] theorem enterParams_pending (k : Half) (s : State) :
    (enterParams k s).pending = s.pending := rfl

@[simp] theorem enterParams_hostRead (k : Half) (s : State) :
    (enterParams k s).hostRead = s.hostRead := rfl

/-! ## patchAndPad -/

@[simp] theorem patchAndPad_buf (start l : Nat) (s : State) :
    (patchAndPad start l s).buf = Memory.putRun s.maxPacket (Memory.putRun s.maxPacket s.buf (start + 2) (be16 (BitVec.ofNat 16 l))) s.len.toNat (List.replicate (pad l) 0) := rfl

@[simp] theorem patchAndPad_pos0 (start l : Nat) (s : State) :
    (patchAndPad start l s).pos0 = s.pos0 := rfl

@[simp] theorem patchAndPad_end0 (start l : Nat) (s : State) :
    (patchAndPad start l s).end0 = s.end0 := rfl

@[simp] theorem patchAndPad_pos1 (start l : Nat) (s : State) :
    (patchAndPad start l s).pos1 = s.pos1 := rfl

@[simp] theorem patchAndPad_end1 (start l : Nat) (s : State) :
    (patchAndPad start l s).end1 = s.end1 := rfl

@[simp] theorem patchAndPad_srcPort (start l : Nat) (s : State) :
    (patchAndPad start l s).srcPort = s.srcPort := rfl

@[simp] theorem patchAndPad_dstPort (start l : Nat) (s : State) :
    (patchAndPad start l s).dstPort = s.dstPort := rfl

@[simp] theorem patchAndPad_vtag (start l : Nat) (s : State) :
    (patchAndPad start l s).vtag = s.vtag := rfl

@[simp] theorem patchAndPad_cksum (start l : Nat) (s : State) :
    (patchAndPad start l s).cksum = s.cksum := rfl

@[simp] theorem patchAndPad_crcAcc (start l : Nat) (s : State) :
    (patchAndPad start l s).crcAcc = s.crcAcc := rfl

@[simp] theorem patchAndPad_crcOut (start l : Nat) (s : State) :
    (patchAndPad start l s).crcOut = s.crcOut := rfl

@[simp] theorem patchAndPad_cf (start l : Nat) (s : State) :
    (patchAndPad start l s).cf = s.cf := rfl

@[simp] theorem patchAndPad_pf (start l : Nat) (s : State) :
    (patchAndPad start l s).pf = s.pf := rfl

@[simp] theorem patchAndPad_val (start l : Nat) (s : State) :
    (patchAndPad start l s).val = s.val := rfl

@[simp] theorem patchAndPad_cstart (start l : Nat) (s : State) :
    (patchAndPad start l s).cstart = s.cstart := rfl

@[simp] theorem patchAndPad_pstart (start l : Nat) (s : State) :
    (patchAndPad start l s).pstart = s.pstart := rfl

@[simp] theorem patchAndPad_hdrValid (start l : Nat) (s : State) :
    (patchAndPad start l s).hdrValid = s.hdrValid := rfl

@[simp] theorem patchAndPad_ckDone (start l : Nat) (s : State) :
    (patchAndPad start l s).ckDone = s.ckDone := rfl

@[simp] theorem patchAndPad_ckBad (start l : Nat) (s : State) :
    (patchAndPad start l s).ckBad = s.ckBad := rfl

@[simp] theorem patchAndPad_stop0 (start l : Nat) (s : State) :
    (patchAndPad start l s).stop0 = s.stop0 := rfl

@[simp] theorem patchAndPad_stop1 (start l : Nat) (s : State) :
    (patchAndPad start l s).stop1 = s.stop1 := rfl

@[simp] theorem patchAndPad_copen (start l : Nat) (s : State) :
    (patchAndPad start l s).copen = s.copen := rfl

@[simp] theorem patchAndPad_popen (start l : Nat) (s : State) :
    (patchAndPad start l s).popen = s.popen := rfl

@[simp] theorem patchAndPad_res0 (start l : Nat) (s : State) :
    (patchAndPad start l s).res0 = s.res0 := rfl

@[simp] theorem patchAndPad_res1 (start l : Nat) (s : State) :
    (patchAndPad start l s).res1 = s.res1 := rfl

@[simp] theorem patchAndPad_err (start l : Nat) (s : State) :
    (patchAndPad start l s).err = s.err := rfl

@[simp] theorem patchAndPad_padTol (start l : Nat) (s : State) :
    (patchAndPad start l s).padTol = s.padTol := rfl

@[simp] theorem patchAndPad_cknown (start l : Nat) (s : State) :
    (patchAndPad start l s).cknown = s.cknown := rfl

@[simp] theorem patchAndPad_pknown (start l : Nat) (s : State) :
    (patchAndPad start l s).pknown = s.pknown := rfl

@[simp] theorem patchAndPad_maxPacket (start l : Nat) (s : State) :
    (patchAndPad start l s).maxPacket = s.maxPacket := rfl

@[simp] theorem patchAndPad_epoch (start l : Nat) (s : State) :
    (patchAndPad start l s).epoch = s.epoch := rfl

@[simp] theorem patchAndPad_pending (start l : Nat) (s : State) :
    (patchAndPad start l s).pending = s.pending := rfl

@[simp] theorem patchAndPad_hostRead (start l : Nat) (s : State) :
    (patchAndPad start l s).hostRead = s.hostRead := rfl

@[simp] theorem patchAndPad_len (start l : Nat) (s : State) :
    (patchAndPad start l s).len = BitVec.ofNat 32 (s.len.toNat + pad l) := by
  simp [patchAndPad]

/-! ## Level views -/

@[simp] theorem State.pos_chunk (s : State) :
    s.pos .chunk = s.pos0 := rfl

@[simp] theorem State.pos_param (s : State) :
    s.pos .param = s.pos1 := rfl

@[simp] theorem State.windowEnd_chunk (s : State) :
    s.windowEnd .chunk = s.end0 := rfl

@[simp] theorem State.windowEnd_param (s : State) :
    s.windowEnd .param = s.end1 := rfl

@[simp] theorem State.stop_chunk (s : State) :
    s.stop .chunk = s.stop0 := rfl

@[simp] theorem State.stop_param (s : State) :
    s.stop .param = s.stop1 := rfl

@[simp] theorem State.res_chunk (s : State) :
    s.res .chunk = s.res0 := rfl

@[simp] theorem State.res_param (s : State) :
    s.res .param = s.res1 := rfl

end Sys2Proof.Machine
end

