-- ==== Sys2Proof/Laws/Memory.lean ====
section
/-! SUPPORT. The laws of the buffer: a read after a write, what a write leaves alone, and that every memory operation keeps the
canonical form, in which equal contents are equal data. -/

namespace Sys2Proof.Machine

open Sys2Proof

/-! ## One byte -/

theorem Memory.lookup_insert (m : Memory) (a : Nat) (b : Byte) (x : Nat) :
    Memory.lookup (Memory.insert m a b) x = if a = x then some b else Memory.lookup m x := by
  induction m with
  | nil => simp [Memory.insert, Memory.lookup]
  | cons c m ih =>
    simp only [Memory.insert]
    split
    · simp [Memory.lookup]
    · split
      · rename_i h; subst h; by_cases hx : c.1 = x <;> simp [Memory.lookup, hx]
      · rename_i h; by_cases hx : c.1 = x
        · have : a ≠ x := fun e => h (e.trans hx.symm)
          simp [Memory.lookup, hx, this]
        · simp [Memory.lookup, hx, ih]

theorem Memory.lookup_put (cap : Nat) (m : Memory) (a : Nat) (b : Byte) (x : Nat) :
    Memory.lookup (Memory.put cap m a b) x = if a < cap ∧ a = x then some b else Memory.lookup m x := by
  unfold Memory.put
  split <;> simp [Memory.lookup_insert, *]

theorem Memory.above_mono {lo lo' : Nat} (h : lo ≤ lo') : ∀ {m : Memory}, Memory.above lo' m = true → Memory.above lo m = true
  | [], _ => rfl
  | c :: m, hm => by
    simp only [Memory.above, Bool.and_eq_true, decide_eq_true_eq] at hm ⊢
    exact ⟨by omega, hm.2⟩

theorem Memory.above_insert {lo a : Nat} (b : Byte) (ha : lo < a) :
    ∀ {m : Memory}, Memory.above lo m = true → Memory.above lo (Memory.insert m a b) = true
  | [], _ => by simp [Memory.insert, Memory.above, ha]
  | c :: m, hm => by
    simp only [Memory.above, Bool.and_eq_true, decide_eq_true_eq] at hm
    simp only [Memory.insert]
    split
    · simp [Memory.above, hm.2, *]
    · split
      · rename_i h; subst h; simp [Memory.above, ha, hm.2]
      · simp [Memory.above, hm.1, Memory.above_insert b (show c.1 < a by omega) hm.2]

/-- A write keeps the canonical form. -/
theorem Memory.wf_insert {m : Memory} (a : Nat) (b : Byte) (hm : Memory.wf m = true) :
    Memory.wf (Memory.insert m a b) = true := by
  cases m with
  | nil => rfl
  | cons c m =>
    simp only [Memory.wf] at hm
    simp only [Memory.insert]
    split
    · simp [Memory.wf, Memory.above, *]
    · split
      · rename_i h; subst h; simpa [Memory.wf] using hm
      · simpa [Memory.wf] using Memory.above_insert b (show c.1 < a by omega) hm

theorem Memory.within_insert {cap : Nat} {m : Memory} {a : Nat} (b : Byte) (ha : a < cap)
    (hm : Memory.within cap m = true) : Memory.within cap (Memory.insert m a b) = true := by
  induction m with
  | nil => simp [Memory.insert, Memory.within, ha]
  | cons c m ih =>
    simp only [Memory.within, List.all_cons, Bool.and_eq_true, decide_eq_true_eq] at hm ih ⊢
    simp only [Memory.insert]
    split
    · simp [ha, hm.1]; simpa using hm.2
    · split
      · simp [ha]; simpa using hm.2
      · simp only [List.all_cons, Bool.and_eq_true, decide_eq_true_eq]; exact ⟨hm.1, ih hm.2⟩

theorem Memory.wf_put {cap : Nat} {m : Memory} (a : Nat) (b : Byte) (hm : Memory.wf m = true) :
    Memory.wf (Memory.put cap m a b) = true := by
  unfold Memory.put; split
  · exact Memory.wf_insert a b hm
  · exact hm

theorem Memory.within_put {cap : Nat} {m : Memory} (a : Nat) (b : Byte) (hm : Memory.within cap m = true) :
    Memory.within cap (Memory.put cap m a b) = true := by
  unfold Memory.put; split
  · exact Memory.within_insert b ‹_› hm
  · exact hm

/-! ## A run of bytes -/

theorem Memory.wf_putRun {cap : Nat} (bytes : List Byte) :
    ∀ {m : Memory} {a : Nat}, Memory.wf m = true → Memory.wf (Memory.putRun cap m a bytes) = true := by
  induction bytes with
  | nil => intro m a hm; exact hm
  | cons b bs ih => intro m a hm; exact ih (Memory.wf_put a b hm)

theorem Memory.within_putRun {cap : Nat} (bytes : List Byte) :
    ∀ {m : Memory} {a : Nat}, Memory.within cap m = true → Memory.within cap (Memory.putRun cap m a bytes) = true := by
  induction bytes with
  | nil => intro m a hm; exact hm
  | cons b bs ih => intro m a hm; exact ih (Memory.within_put a b hm)

/-- What a run of writes leaves at an offset: outside the run, or outside the buffer, what was there. -/
theorem Memory.lookup_putRun (cap : Nat) (bytes : List Byte) :
    ∀ (m : Memory) (a x : Nat), Memory.lookup (Memory.putRun cap m a bytes) x =
      if a ≤ x ∧ x < a + bytes.length ∧ x < cap then bytes[x - a]? else Memory.lookup m x := by
  induction bytes with
  | nil => intro m a x; simp only [Memory.putRun, List.length_nil]; rw [if_neg (by omega)]
  | cons b bs ih =>
    intro m a x
    simp only [Memory.putRun, ih, List.length_cons, Memory.lookup_put]
    by_cases hx : x = a
    · subst hx
      rw [if_neg (by omega)]
      by_cases hc : x < cap
      · rw [if_pos ⟨hc, rfl⟩, if_pos ⟨by omega, by omega, hc⟩]; simp
      · rw [if_neg (by simp [hc]), if_neg (by omega)]
    · have hne : ¬ (a < cap ∧ a = x) := fun h => hx h.2.symm
      rw [if_neg hne]
      by_cases h : a + 1 ≤ x ∧ x < a + 1 + bs.length ∧ x < cap
      · rw [if_pos h, if_pos ⟨by omega, by omega, h.2.2⟩]
        rw [show x - a = (x - (a + 1)) + 1 by omega, List.getElem?_cons_succ]
      · rw [if_neg h, if_neg (by omega)]

/-- Two buffers in canonical form with the same contents are the same data. -/
theorem Memory.ext_of_lookup : ∀ {m m' : Memory}, Memory.wf m = true → Memory.wf m' = true →
    (∀ a, Memory.lookup m a = Memory.lookup m' a) → m = m' := by
  have above_none : ∀ {m : Memory} {lo a : Nat}, Memory.above lo m = true → a ≤ lo → Memory.lookup m a = none := by
    intro m
    induction m with
    | nil => intros; rfl
    | cons c m ih =>
      intro lo a h ha
      simp only [Memory.above, Bool.and_eq_true, decide_eq_true_eq] at h
      simp only [Memory.lookup, if_neg (show ¬ c.1 = a by omega)]
      exact ih h.2 (by omega)
  have wf_of_above : ∀ {m : Memory} {lo : Nat}, Memory.above lo m = true → Memory.wf m = true := by
    intro m lo h
    cases m with
    | nil => rfl
    | cons c m => simp only [Memory.above, Bool.and_eq_true] at h; exact h.2
  intro m
  induction m with
  | nil =>
    intro m' _ _ h
    cases m' with
    | nil => rfl
    | cons c m' => have := h c.1; simp [Memory.lookup] at this
  | cons c m ih =>
    intro m' hm hm' h
    cases m' with
    | nil => have := h c.1; simp [Memory.lookup] at this
    | cons d m' =>
      simp only [Memory.wf] at hm hm'
      have hcd : c.1 = d.1 := by
        rcases Nat.lt_trichotomy c.1 d.1 with hlt | heq | hgt
        · have := h c.1
          simp [Memory.lookup, if_neg (show ¬ d.1 = c.1 by omega), above_none hm' (show c.1 ≤ d.1 by omega)] at this
        · exact heq
        · have := h d.1
          simp [Memory.lookup, if_neg (show ¬ c.1 = d.1 by omega), above_none hm (show d.1 ≤ c.1 by omega)] at this
      have hval : c.2 = d.2 := by
        have := h c.1
        simpa [Memory.lookup, hcd] using this
      have hrest : m = m' := by
        refine ih (wf_of_above hm) (wf_of_above hm') fun a => ?_
        by_cases ha : c.1 = a
        · rw [above_none hm (by omega), above_none hm' (by omega)]
        · have := h a
          simpa [Memory.lookup, ha, show ¬ d.1 = a by omega] using this
      rw [hrest, show c = d from Prod.ext hcd hval]

/-! ## The buffer of a state -/

/-- What a read depends on. -/
theorem bufRead_congr {s t : State} (hb : t.buf = s.buf) (hm : t.maxPacket = s.maxPacket) (he : t.epoch = s.epoch) (a : Nat) :
    bufRead t a = bufRead s a := by
  simp only [bufRead, hb, hm, he]

/-- A read inside a run just written gives the byte written. -/
theorem bufRead_bufWrite_inside {s : State} {a x : Nat} {bytes : List Byte} (hlo : a ≤ x) (hhi : x < a + bytes.length)
    (hcap : x < s.maxPacket) : bufRead (bufWrite a bytes s) x = bytes[x - a]'(by omega) := by
  simp only [bufRead, bufWrite_buf, Memory.lookup_putRun, if_pos (And.intro hlo (And.intro hhi hcap)),
    List.getElem?_eq_getElem (show x - a < bytes.length by omega)]

/-- A read outside a run just written gives what it gave before. -/
theorem bufRead_bufWrite_outside {s : State} {a x : Nat} {bytes : List Byte} (h : x < a ∨ a + bytes.length ≤ x) :
    bufRead (bufWrite a bytes s) x = bufRead s x := by
  have hl : Memory.lookup (bufWrite a bytes s).buf x = Memory.lookup s.buf x := by
    rw [bufWrite_buf, Memory.lookup_putRun, if_neg (by omega)]
  unfold bufRead
  rw [hl]; rfl

theorem bufRead_pushBytes (bytes : List Byte) (s : State) (a : Nat) :
    bufRead (pushBytes bytes s) a = bufRead (bufWrite s.len.toNat bytes s) a :=
  bufRead_congr rfl rfl rfl a

/-- Every write of a run keeps the buffer legal. -/
theorem bufferLegal_bufWrite {s : State} (a : Nat) (bytes : List Byte) (h : BufferLegal s) :
    BufferLegal (bufWrite a bytes s) :=
  ⟨Memory.wf_putRun bytes h.1, Memory.within_putRun bytes h.2⟩

/-- An append keeps the buffer legal. -/
theorem bufferLegal_pushBytes {s : State} (bytes : List Byte) (h : BufferLegal s) : BufferLegal (pushBytes bytes s) :=
  bufferLegal_bufWrite s.len.toNat bytes h

theorem bufferLegal_reset : BufferLegal State.reset := by decide

end Sys2Proof.Machine
end

