-- ==== Sys2Proof/Laws/Ops.lean ====
section
/-! SUPPORT. For each shared operation, one lemma that says what it can do: the framing of a command by refusal and fault
entry, the appends, the bounded reads, the host's writes, and the step. -/

namespace Sys2Proof.Machine

open Sys2Proof

@[simp] theorem isFatal_iff {s : State} : s.isFatal = true ↔ s.err.kind ≠ .none := by simp [State.isFatal]

@[simp] theorem isFatal_false_iff {s : State} : s.isFatal = false ↔ s.err.kind = .none := by simp [State.isFatal]

/-- A command always answers a next state. -/
theorem command_eq (rule : State → Effect) (s : State) :
    command rule s = .next (if s.isFatal then s else settle s (rule s)) := rfl

/-- What a command answers, by its cases: refused, faulted, or complete. -/
theorem command_next {rule : State → Effect} {s t : State} (h : command rule s = .next t) :
    (s.err.kind ≠ .none ∧ t = s) ∨ (s.err.kind = .none ∧ ∃ e, rule s = .error e ∧ t = fatal e s)
      ∨ (s.err.kind = .none ∧ rule s = .ok t) := by
  simp only [command, Host.Outcome.next.injEq] at h
  by_cases hf : s.err.kind = .none
  · rw [if_neg (by simp [hf])] at h
    cases hr : rule s with
    | error e => rw [hr] at h; exact .inr (.inl ⟨hf, e, rfl, h.symm⟩)
    | ok u => rw [hr] at h; exact .inr (.inr ⟨hf, congrArg _ h⟩)
  · rw [if_pos (by simpa using hf)] at h
    exact .inl ⟨hf, h.symm⟩

theorem command_fatal {rule : State → Effect} {s : State} (h : s.err.kind ≠ .none) : command rule s = .next s := by
  simp [command, h]

theorem command_ok {rule : State → Effect} {s t : State} (h : s.err.kind = .none) (hr : rule s = .ok t) :
    command rule s = .next t := by
  simp [command, State.isFatal, h, hr, settle]

theorem command_error {rule : State → Effect} {s : State} {e : Trap} (h : s.err.kind = .none) (hr : rule s = .error e) :
    command rule s = .next (fatal e s) := by
  simp [command, State.isFatal, h, hr, settle]

theorem append_some {bytes : List Byte} {s t : State} (h : append bytes s = some t) :
    s.len.toNat + bytes.length ≤ s.maxPacket ∧ t = pushBytes bytes s := by
  by_cases hf : s.len.toNat + bytes.length ≤ s.maxPacket
  · simp only [append, fits, decide_eq_true hf, if_true, Option.some.injEq] at h
    exact ⟨hf, h.symm⟩
  · simp [append, fits, hf] at h

theorem append_none {bytes : List Byte} {s : State} (h : append bytes s = none) :
    s.maxPacket < s.len.toNat + bytes.length := by
  by_cases hf : s.len.toNat + bytes.length ≤ s.maxPacket
  · simp [append, fits, hf] at h
  · omega

/-- `appendThen` appends all the bytes, or faults with nothing written. -/
theorem appendThen_eq (bytes : List Byte) (done : State → State) (s : State) :
    appendThen bytes done s =
      if s.len.toNat + bytes.length ≤ s.maxPacket then .ok (done (pushBytes bytes s))
      else .error ⟨.bufferFull, .bufFull, s.len, 0⟩ := by
  by_cases h : s.len.toNat + bytes.length ≤ s.maxPacket <;> simp [appendThen, append, fits, bufferFull, h]

/-- `closeFrame` faults on a frame too long, then on a full buffer, and else patches and pads. -/
theorem closeFrame_eq (start : Word) (done : State → State) (s : State) :
    closeFrame start done s =
      if 65535 < s.len.toNat - start.toNat then .error ⟨.invalidLength, .frameTooLong, start, 0⟩
      else if s.len.toNat + pad (s.len.toNat - start.toNat) ≤ s.maxPacket then
        .ok (done (patchAndPad start.toNat (s.len.toNat - start.toNat) s))
      else .error ⟨.bufferFull, .bufFull, s.len, 0⟩ := by
  by_cases h : 65535 < s.len.toNat - start.toNat
  · simp [closeFrame, h]
  · by_cases h' : s.len.toNat + pad (s.len.toNat - start.toNat) ≤ s.maxPacket <;>
      simp [closeFrame, fits, bufferFull, h, h']

/-- `extractField` needs a frame, then faults outside the value, and else writes `VAL` alone. -/
theorem extractField_eq (i : Instr) (lv : Level) (off : Half) (n : Nat) (value : Word) (s : State) :
    extractField i lv off n value s =
      if s.frameValid lv = true then
        if (s.frameVlen lv).toNat < off.toNat + n then
          .error ⟨.truncated, .valOob, BitVec.ofNat 32 (valueOffset s lv off), 0⟩
        else .ok { s with val := value }
      else badSequence i := by
  cases hv : s.frameValid lv <;> simp [extractField, outsideValue, hv]

/-- `rejectValue` always faults. -/
theorem rejectValue_error (i : Instr) (kind : ErrKind) (cause : ErrCause) (lv : Level) (s : State) :
    ∃ e, rejectValue i kind cause lv s = .error e := by
  unfold rejectValue badSequence
  split <;> exact ⟨_, rfl⟩

theorem curRead_some {lv : Level} {n : Nat} {s t : State} {a : Nat} (h : curRead lv n s = some (a, t)) :
    n ≤ curRemaining s lv ∧ a = (s.pos lv).toNat ∧ t = s.setPos lv (BitVec.ofNat 32 (a + n)) := by
  simp only [curRead] at h
  split at h
  · cases h
  · simp only [Option.some.injEq, Prod.mk.injEq] at h
    exact ⟨by omega, h.1.symm, h.1 ▸ h.2.symm⟩

theorem curRead_none {lv : Level} {n : Nat} {s : State} (h : curRead lv n s = none) : curRemaining s lv < n := by
  simp only [curRead] at h
  split at h
  · assumption
  · cases h

/-- A padding length is below 4, and the padded length is a multiple of 4 (00_scope.md rule R6). -/
theorem pad_spec (l : Nat) : pad l ≤ 3 ∧ (l + pad l) % 4 = 0 := by unfold pad; omega

/-- `writeLen` starts a call, or faults `BAD_LEN`, or is ignored. -/
theorem writeLen_eq (v : Word) (s : State) :
    writeLen v s =
      if v.toNat ≤ s.maxPacket then startActions { s with len := v }
      else if s.err.kind = .none then fatal ⟨.illegalCommand, .badLen, v, 0⟩ s else s := by
  unfold writeLen fatalUnlessFatal
  by_cases h : v.toNat ≤ s.maxPacket
  · rw [if_pos h, if_neg (by omega)]
  · rw [if_neg h, if_pos (by omega)]
    by_cases hf : s.err.kind = .none <;> simp [State.isFatal, hf]

/-- The number of registry entries is read off `PKNOWN` alone (log 2). -/
theorem State.nPreg_congr {s t : State} (h : t.pknown = s.pknown) : t.nPreg = s.nPreg := congrArg List.length h

@[simp] theorem State.reset_nPreg : State.reset.nPreg = Config.nPreg := List.length_replicate ..

@[simp] theorem hostReset_nPreg (s : State) : (hostReset s).nPreg = s.nPreg := List.length_replicate ..

/-- No register write changes the number of registry entries. -/
@[simp] theorem writeReg_nPreg (r : Reg) (v : Word) (s : State) : (writeReg r v s).nPreg = s.nPreg := by
  cases r
  case len => rw [writeReg, writeLen_eq]; split <;> [rfl; split] <;> rfl
  case pknown i => exact List.length_set ..
  all_goals rfl

/-- The slots of `PKNOWN` are `48 .. 48 + N_PREG - 1` (10_state.md rule R13). -/
theorem regAt_pknown {n : Nat} {slot : BitVec 6} {i : Fin 16} :
    regAt n slot = some (.pknown i) ↔ slot.toNat = 48 + i.val ∧ i.val < n := by
  constructor
  · intro h
    unfold regAt at h
    split at h
    · exact absurd (List.mem_of_getElem? h) (by simp [fixedRegs])
    · split at h
      · cases h
      · split at h
        · cases h; constructor <;> simp <;> omega
        · cases h
  · rintro ⟨h, hn⟩
    unfold regAt
    rw [if_neg (by omega), dif_neg (by omega), dif_pos (by omega)]
    simp [h]

/-- Every command answers a next state. -/
theorem exec_next (i : Instr) (s : State) : ∃ t, exec i s = .next t := by
  cases i <;> exact ⟨_, rfl⟩

/-- What a step does, by the host's oldest access. -/
theorem step_cons {s : State} {a : HostAccess} {rest : List HostAccess} (h : s.pending = a :: rest) :
    step s = takeAccess a { s with pending := rest } := by
  simp only [step, fetchAccess, h]

theorem step_nil {s : State} (h : s.pending = []) : step s = .next s := by
  simp only [step, fetchAccess, h]

end Sys2Proof.Machine
end

