-- ==== Sys2Proof/Laws/Framer.lean ====
section
/-! SUPPORT. What parsing a frame can answer, what one pass of the framing loop can do, and that the loop's bound on the number
of passes is always enough (40_control_cursor.md rule R55). -/

namespace Sys2Proof.Machine

open Sys2Proof

/-- What `parseFrame` says when it answers a frame: the header's fields, all of it inside the window. -/
theorem parseFrame_frame {s : State} {lv : Level} {ty : Half} {fl : Byte} {ln : Half} {vo : Word} {vl : Half} {nx : Word}
    (h : parseFrame s lv = .frame ty fl ln vo vl nx) :
    ty = headerType s lv (s.pos lv).toNat ∧ fl = headerFlags s lv (s.pos lv).toNat ∧ ln = headerLength s (s.pos lv).toNat
      ∧ 4 ≤ ln.toNat ∧ ln.toNat + pad ln.toNat ≤ curRemaining s lv
      ∧ vo = BitVec.ofNat 32 ((s.pos lv).toNat + 4) ∧ vl = BitVec.ofNat 16 (ln.toNat - 4)
      ∧ nx = BitVec.ofNat 32 ((s.pos lv).toNat + ln.toNat + pad ln.toNat)
      ∧ badPadding s (s.pos lv).toNat ln.toNat = none := by
  simp only [parseFrame] at h
  split at h; · cases h
  split at h; · cases h
  split at h; · cases h
  split at h; · cases h
  split at h; · cases h
  split at h; · cases h
  rename_i hp
  simp only [Parsed.frame.injEq] at h
  obtain ⟨h1, h2, h3, h4, h5, h6⟩ := h
  subst h3
  exact ⟨h1.symm, h2.symm, rfl, by omega, by omega, h4.symm, h5.symm, h6.symm, hp⟩

/-- A window never reaches past `2^32`. -/
theorem pos_add_remaining {s : State} {lv : Level} {n : Nat} (hn : 0 < n) (h : n ≤ curRemaining s lv) :
    (s.pos lv).toNat + n ≤ (s.windowEnd lv).toNat ∧ (s.pos lv).toNat + n < 2 ^ 32 := by
  have := (s.windowEnd lv).isLt
  unfold curRemaining at h
  omega

/-- The offset behind a frame that was parsed, as a number. -/
theorem parseFrame_next_toNat {s : State} {lv : Level} {ty : Half} {fl : Byte} {ln : Half} {vo : Word} {vl : Half}
    {nx : Word} (h : parseFrame s lv = .frame ty fl ln vo vl nx) :
    nx.toNat = (s.pos lv).toNat + ln.toNat + pad ln.toNat ∧ vo.toNat = (s.pos lv).toNat + 4 ∧ vl.toNat = ln.toNat - 4
      ∧ nx.toNat ≤ (s.windowEnd lv).toNat := by
  obtain ⟨-, -, -, h4, hrem, hvo, hvl, hnx, -⟩ := parseFrame_frame h
  obtain ⟨hle, hlt⟩ := pos_add_remaining (by omega) hrem
  have hl := ln.isLt
  subst hvo hvl hnx
  simp only [BitVec.toNat_ofNat]
  omega

/-- A pass that goes on has moved the cursor behind a frame inside the window and changed nothing else. -/
theorem framePass_skip {s t : State} {lv : Level} (h : framePass s lv = .skip t) :
    s.stop lv = false ∧ ∃ ty fl ln vo vl nx, parseFrame s lv = .frame ty fl ln vo vl nx ∧ known s lv ty = false
      ∧ action lv ty = 0b10 ∧ t = s.setPos lv nx := by
  unfold framePass at h
  split at h; · cases h
  rename_i hs
  refine ⟨by simpa using hs, ?_⟩
  split at h
  · cases h
  · cases h
  · rename_i ty fl ln vo vl nx hp
    split at h; · cases h
    rename_i hk
    unfold policy at h
    split at h; · cases h
    split at h; · cases h
    split at h
    · rename_i ha
      simp only [Pass.skip.injEq] at h
      exact ⟨ty, fl, ln, vo, vl, nx, hp, by simpa using hk, ha, h.symm⟩
    · cases h

/-- Where a pass ends the command, how it ends. -/
theorem framePass_stop {s t : State} {lv : Level} (h : framePass s lv = .stop t) :
    t = endWalk s lv
    ∨ (s.stop lv = false ∧ ∃ kind cause info, parseFrame s lv = .bad kind cause info ∧ t = fatal ⟨kind, cause, info, 0⟩ s)
    ∨ (s.stop lv = false ∧ ∃ ty fl ln vo vl nx, parseFrame s lv = .frame ty fl ln vo vl nx ∧
        (t = returnFrame s lv ty fl ln vo vl nx (known s lv ty)
          ∨ (known s lv ty = false ∧ action lv ty = 0b00
              ∧ t = fatal ⟨.unrecognizedType, .unkStopReport, vo - 4, typeDetail lv ty⟩ s)
          ∨ (known s lv ty = false ∧ action lv ty = 0b01 ∧ t = endWalk (s.setStop lv true) lv))) := by
  unfold framePass at h
  split at h
  · exact .inl (Pass.stop.inj h).symm
  rename_i hs
  have hs' : s.stop lv = false := by simpa using hs
  split at h
  · exact .inl (Pass.stop.inj h).symm
  · rename_i kind cause info hp
    exact .inr (.inl ⟨hs', kind, cause, info, hp, (Pass.stop.inj h).symm⟩)
  · rename_i ty fl ln vo vl nx hp
    refine .inr (.inr ⟨hs', ty, fl, ln, vo, vl, nx, hp, ?_⟩)
    split at h
    · rename_i hk
      exact .inl (by rw [hk]; exact (Pass.stop.inj h).symm)
    · rename_i hk
      have hk' : known s lv ty = false := by simpa using hk
      unfold policy at h
      split at h
      · rename_i ha
        exact .inr (.inl ⟨hk', ha, (Pass.stop.inj h).symm⟩)
      · split at h
        · rename_i ha
          exact .inr (.inr ⟨hk', ha, (Pass.stop.inj h).symm⟩)
        · split at h
          · cases h
          · exact .inl (by rw [hk']; exact (Pass.stop.inj h).symm)

@[simp] theorem State.setPos_pos (s : State) (lv : Level) (v : Word) : (s.setPos lv v).pos lv = v := by cases lv <;> rfl

@[simp] theorem State.setPos_windowEnd (s : State) (lv lv' : Level) (v : Word) :
    (s.setPos lv v).windowEnd lv' = s.windowEnd lv' := by cases lv <;> cases lv' <;> rfl

/-- A skipped frame takes at least 4 bytes of the window. -/
theorem remaining_skip {s t : State} {lv : Level} (h : framePass s lv = .skip t) :
    curRemaining t lv + 4 ≤ curRemaining s lv := by
  obtain ⟨-, ty, fl, ln, vo, vl, nx, hp, -, -, rfl⟩ := framePass_skip h
  obtain ⟨-, -, -, h4, hrem, -⟩ := parseFrame_frame hp
  obtain ⟨hnx, -, -, hend⟩ := parseFrame_next_toNat hp
  unfold curRemaining at *
  simp only [State.setPos_pos, State.setPos_windowEnd]
  omega

/-- The number of passes does not matter once it is above a quarter of the window. -/
theorem framePasses_enough {lv : Level} : ∀ {m n : Nat} {s : State}, curRemaining s lv < 4 * m → curRemaining s lv < 4 * n →
    framePasses lv m s = framePasses lv n s
  | 0, _, _, h, _ => absurd h (by omega)
  | _ + 1, 0, _, _, h => absurd h (by omega)
  | m + 1, n + 1, s, hm, hn => by
    unfold framePasses
    cases hp : framePass s lv with
    | stop t => rfl
    | skip t => have := remaining_skip hp; exact framePasses_enough (by omega) (by omega)

/-- R87 as an equation: one pass, and the loop again where the pass skipped a frame. -/
theorem nextFrame_eq (lv : Level) (s : State) :
    nextFrame lv s = match framePass s lv with
      | .stop t => t
      | .skip t => nextFrame lv t := by
  unfold nextFrame
  rw [framePasses]
  cases hp : framePass s lv with
  | stop t => rfl
  | skip t => have := remaining_skip hp; exact framePasses_enough (by omega) (by omega)

/-- Induction along the loop: what holds where a pass ends the command, and is carried back over a skip, holds of
`NextFrame`. -/
theorem nextFrame_induct {lv : Level} {P : State → State → Prop} (hstop : ∀ s t, framePass s lv = .stop t → P s t)
    (hskip : ∀ s t u, framePass s lv = .skip t → P t u → P s u) (s : State) : P s (nextFrame lv s) := by
  have key : ∀ n s, curRemaining s lv < n → P s (nextFrame lv s) := by
    intro n
    induction n with
    | zero => intro s h; omega
    | succ n ih =>
      intro s h
      rw [nextFrame_eq]
      cases hp : framePass s lv with
      | stop t => exact hstop s t hp
      | skip t => have := remaining_skip hp; exact hskip s t _ hp (ih t (by omega))
  exact key _ s (Nat.lt_succ_self _)

end Sys2Proof.Machine
end

