-- ==== Sys2Proof/Laws/PerInstr.lean ====
section
/-! SUPPORT. Per command: its word matches its own row of the opcode map (30_encoding.md rule R47), whatever its operands. -/

namespace Sys2Proof.Laws

open Sys2Proof

/-- The word of the command matches the row that carries its mnemonic. -/
def EncodesInItsRow.Statement (i : Instr) : Prop :=
  ∃ r ∈ opcodeMap, r.mnemonic = i.mnemonic ∧ r.accepts (encode i) = true

/-- A word with no operand bits outside the row's own matches the row. -/
theorem accepts_commandWord {r : Row} {a8 : Byte} {imm : Half} (ha : a8 &&& ~~~ r.format.operandBits.extractLsb' 16 8 = 0)
    (hi : imm &&& ~~~ r.format.operandBits.extractLsb' 0 16 = 0) :
    r.accepts (commandWord r.op a8 imm) = true := by
  have key : r.format.operandBits =
      (0 : Byte) ++ r.format.operandBits.extractLsb' 16 8 ++ r.format.operandBits.extractLsb' 0 16 := by
    cases r.format <;> decide
  have hop : r.op &&& ~~~ (0 : Byte) = r.op := BitVec.and_allOnes
  have hmatch : r.op ++ (0 : Byte) ++ (0 : Half) = r.op ++ (0 : BitVec 24) := by
    generalize r.op = x; revert x; decide +kernel
  simp only [Row.accepts, Row.mask, Row.matchWord, commandWord, beq_iff_eq]
  rw [key, BitVec.not_append, BitVec.not_append, BitVec.and_append, BitVec.and_append, ha, hi, hop, hmatch]

theorem byteImm_fits (b : Byte) : byteImm b &&& ~~~ (0x00FF : Half) = 0 := by revert b; decide +kernel

theorem levelA8_fits (lv : Level) : levelA8 lv &&& ~~~ (0x01 : Byte) = 0 := by cases lv <;> decide

theorem half_fits (k : Half) : k &&& ~~~ (0xFFFF : Half) = 0 := BitVec.and_zero

theorem byte_fits (b : Byte) : b &&& ~~~ (0xFF : Byte) = 0 := BitVec.and_zero

theorem EncodesInItsRow.nop : EncodesInItsRow.Statement (.nop) :=
  ⟨⟨"NOP", 0x00, .n⟩, by decide, rfl, by decide⟩

theorem EncodesInItsRow.start : EncodesInItsRow.Statement (.start) :=
  ⟨⟨"START", 0x01, .n⟩, by decide, rfl, by decide⟩

theorem EncodesInItsRow.crcInit : EncodesInItsRow.Statement (.crcInit) :=
  ⟨⟨"CRC.INIT", 0x10, .n⟩, by decide, rfl, by decide⟩

theorem EncodesInItsRow.crcByte (b : Byte) : EncodesInItsRow.Statement (.crcByte b) :=
  ⟨⟨"CRC.BYTE", 0x11, .b⟩, by decide, rfl, accepts_commandWord rfl (byteImm_fits b)⟩

theorem EncodesInItsRow.crcFin : EncodesInItsRow.Statement (.crcFin) :=
  ⟨⟨"CRC.FIN", 0x12, .n⟩, by decide, rfl, by decide⟩

theorem EncodesInItsRow.hdrDec : EncodesInItsRow.Statement (.hdrDec) :=
  ⟨⟨"HDR.DEC", 0x20, .n⟩, by decide, rfl, by decide⟩

theorem EncodesInItsRow.hdrEnc : EncodesInItsRow.Statement (.hdrEnc) :=
  ⟨⟨"HDR.ENC", 0x21, .n⟩, by decide, rfl, by decide⟩

theorem EncodesInItsRow.csumVerify : EncodesInItsRow.Statement (.csumVerify) :=
  ⟨⟨"CSUM.VERIFY", 0x22, .n⟩, by decide, rfl, by decide⟩

theorem EncodesInItsRow.csumPatch : EncodesInItsRow.Statement (.csumPatch) :=
  ⟨⟨"CSUM.PATCH", 0x23, .n⟩, by decide, rfl, by decide⟩

theorem EncodesInItsRow.chkNext : EncodesInItsRow.Statement (.chkNext) :=
  ⟨⟨"CHK.NEXT", 0x30, .n⟩, by decide, rfl, by decide⟩

theorem EncodesInItsRow.prmEnter (k : Half) : EncodesInItsRow.Statement (.prmEnter k) :=
  ⟨⟨"PRM.ENTER", 0x31, .h⟩, by decide, rfl, accepts_commandWord rfl (half_fits k)⟩

theorem EncodesInItsRow.prmNext : EncodesInItsRow.Statement (.prmNext) :=
  ⟨⟨"PRM.NEXT", 0x32, .n⟩, by decide, rfl, by decide⟩

theorem EncodesInItsRow.valU8 (lv : Level) (off : Half) : EncodesInItsRow.Statement (.valU8 lv off) :=
  ⟨⟨"VAL.U8", 0x33, .v⟩, by decide, rfl, accepts_commandWord (levelA8_fits lv) (half_fits off)⟩

theorem EncodesInItsRow.valU16 (lv : Level) (off : Half) : EncodesInItsRow.Statement (.valU16 lv off) :=
  ⟨⟨"VAL.U16", 0x34, .v⟩, by decide, rfl, accepts_commandWord (levelA8_fits lv) (half_fits off)⟩

theorem EncodesInItsRow.valU32 (lv : Level) (off : Half) : EncodesInItsRow.Statement (.valU32 lv off) :=
  ⟨⟨"VAL.U32", 0x35, .v⟩, by decide, rfl, accepts_commandWord (levelA8_fits lv) (half_fits off)⟩

theorem EncodesInItsRow.valReject (lv : Level) : EncodesInItsRow.Statement (.valReject lv) :=
  ⟨⟨"VAL.REJECT", 0x36, .l⟩, by decide, rfl, accepts_commandWord (levelA8_fits lv) rfl⟩

theorem EncodesInItsRow.valBadlen (lv : Level) : EncodesInItsRow.Statement (.valBadlen lv) :=
  ⟨⟨"VAL.BADLEN", 0x37, .l⟩, by decide, rfl, accepts_commandWord (levelA8_fits lv) rfl⟩

theorem EncodesInItsRow.bufPut (b : Byte) : EncodesInItsRow.Statement (.bufPut b) :=
  ⟨⟨"BUF.PUT", 0x40, .b⟩, by decide, rfl, accepts_commandWord rfl (byteImm_fits b)⟩

theorem EncodesInItsRow.chkOpen (type flags : Byte) : EncodesInItsRow.Statement (.chkOpen type flags) :=
  ⟨⟨"CHK.OPEN", 0x41, .t⟩, by decide, rfl, accepts_commandWord (byte_fits flags) (byteImm_fits type)⟩

theorem EncodesInItsRow.chkClose : EncodesInItsRow.Statement (.chkClose) :=
  ⟨⟨"CHK.CLOSE", 0x42, .n⟩, by decide, rfl, by decide⟩

theorem EncodesInItsRow.prmOpen (k : Half) : EncodesInItsRow.Statement (.prmOpen k) :=
  ⟨⟨"PRM.OPEN", 0x43, .h⟩, by decide, rfl, accepts_commandWord rfl (half_fits k)⟩

theorem EncodesInItsRow.prmClose : EncodesInItsRow.Statement (.prmClose) :=
  ⟨⟨"PRM.CLOSE", 0x44, .n⟩, by decide, rfl, by decide⟩

end Sys2Proof.Laws
end

