-- ==== Sys2Proof/Tests/Slice0.lean ====
section
/-! SUPPORT. Tests: words written out from 30_encoding.md rules R45 to R49, the refusals of ill-formed words, the constant table of
41_crc32c.md rule R61, single steps of 95_test_vectors.md (each names its vector), and for every statement with hypotheses a
state and operands that meet them, clause by clause, at the boundary values. -/

open Sys2Proof Sys2Proof.Machine Sys2Proof.Statements

namespace Sys2Proof.Tests

/-! One theorem after another: the kernel evaluations below wait for each other, each in a thread of its own. -/

set_option Elab.async false

/-! ## Helpers -/

/-- Bytes laid out from an offset. -/
def cells : Nat → List Byte → Memory
  | _, [] => []
  | a, b :: bs => (a, b) :: cells (a + 1) bs

/-- A unit with `MAX_PACKET` = 64 and `N_PREG` = 16 that holds the bytes at offset 0 and has just begun a call over them. -/
def holding (bytes : List Byte) : State :=
  startActions { State.reset with
    maxPacket := 64, pknown := List.replicate 16 0, buf := cells 0 bytes, len := BitVec.ofNat 32 bytes.length }

/-- A unit with the smallest registry but one, `N_PREG` = 2. -/
def twoEntries : State := { holding [] with pknown := [0, 0] }

/-- S1's header bytes (95_test_vectors.md section 1). -/
def docHeader : List Byte := [0, 1, 0, 2, 0, 0, 0, 1, 0, 0, 0, 0]

/-- Only chunk type 0x04 is known. -/
def knows04 : Vector Word 8 := (Vector.replicate 8 (0 : Word)).set 0 0x10

/-- Parameter types 0x0005 and 0x8008 are known. -/
def knowsParams : List (BitVec 17) := [0x10005, 0x18008] ++ List.replicate 14 0

/-- The start of the vectors of section 5.1: the header decoded, the cursor at the body. -/
def atBody (body : List Byte) : State :=
  { holding (docHeader ++ body) with
    cknown := knows04, pos0 := 12, hdrValid := true, srcPort := 1, dstPort := 2, vtag := 1 }

/-- The start of the vectors of section 5.2: a bare parameter list. -/
def atParams (bytes : List Byte) : State := { holding bytes with pknown := knowsParams }

/-- The body of vector T0 and its state after `CHK.NEXT`. -/
def bodyT0 : List Byte := [0x04, 0, 0, 9, 0xAA, 0xBB, 0xCC, 0xDD, 0xEE, 0, 0, 0]

def inChunk : State :=
  { atBody bodyT0 with pos0 := 24, res0 := .frame, cf := ⟨0x04, 0, 9, 16, 5, true, true⟩ }

/-- The buffer of vector Q3 and its state after `PRM.NEXT`. -/
def inParam : State :=
  { atParams [0x80, 0x08, 0, 6, 0xC0, 0xC1, 0, 0] with
    pos1 := 8, res1 := .frame, pf := ⟨0x8008, 6, 4, 2, true, true⟩ }

/-- A FATAL unit. -/
def faulted : State := fatal ⟨.illegalCommand, .illegalEncoding, 0x02000000, 0⟩ (holding docHeader)

/-- The header of S1 with its checksum patched (95_test_vectors.md section 2.5). -/
def patched : State := holding [0, 1, 0, 2, 0, 0, 0, 1, 0x69, 0x91, 0xF7, 0x51]

/-- A parameter is open in an open chunk. -/
def bothOpen : State :=
  { holding [1, 0, 0, 0, 0, 5, 0, 0, 0xC0] with copen := true, popen := true, cstart := 0, pstart := 4 }

/-- A chunk is open with one value byte. -/
def chunkOpen : State := { holding [4, 3, 0, 0, 0xAA] with copen := true, cstart := 0 }

/-- The outcome is a next state of which the test holds. -/
def answers (o : Host.Outcome State Fault Refusal) (p : State → Bool) : Bool :=
  match o with
  | .next t => p t
  | _ => false

/-- `ERR`, `ERR_INFO`, `ERR_TYPE`, `STATUS` as the host reads them. -/
def errors (s : State) : List Word := [statusWord s, errWord s, s.err.info, errTypeWord s]

/-! ## Words (R45 to R49) -/

theorem test_decode_nop : decodeTableWord 32 0x00000000 = some (.nop) ∧ encode (.nop) = 0x00000000 := by decide

theorem test_decode_start : decodeTableWord 32 0x01000000 = some (.start) ∧ encode (.start) = 0x01000000 := by decide

theorem test_decode_crcInit : decodeTableWord 32 0x10000000 = some (.crcInit) ∧ encode (.crcInit) = 0x10000000 := by decide

theorem test_decode_crcByte : decodeTableWord 32 0x110000FF = some (.crcByte 0xFF) ∧ encode (.crcByte 0xFF) = 0x110000FF := by decide

theorem test_decode_crcFin : decodeTableWord 32 0x12000000 = some (.crcFin) ∧ encode (.crcFin) = 0x12000000 := by decide

theorem test_decode_hdrDec : decodeTableWord 32 0x20000000 = some (.hdrDec) ∧ encode (.hdrDec) = 0x20000000 := by decide

theorem test_decode_hdrEnc : decodeTableWord 32 0x21000000 = some (.hdrEnc) ∧ encode (.hdrEnc) = 0x21000000 := by decide

theorem test_decode_csumVerify : decodeTableWord 32 0x22000000 = some (.csumVerify) ∧ encode (.csumVerify) = 0x22000000 := by decide

theorem test_decode_csumPatch : decodeTableWord 32 0x23000000 = some (.csumPatch) ∧ encode (.csumPatch) = 0x23000000 := by decide

theorem test_decode_chkNext : decodeTableWord 32 0x30000000 = some (.chkNext) ∧ encode (.chkNext) = 0x30000000 := by decide

theorem test_decode_prmEnter : decodeTableWord 32 0x31008010 = some (.prmEnter 0x8010) ∧ encode (.prmEnter 0x8010) = 0x31008010 := by decide

theorem test_decode_prmNext : decodeTableWord 32 0x32000000 = some (.prmNext) ∧ encode (.prmNext) = 0x32000000 := by decide

theorem test_decode_valU8 : decodeTableWord 32 0x3300FFFE = some (.valU8 .chunk 0xFFFE) ∧ encode (.valU8 .chunk 0xFFFE) = 0x3300FFFE := by decide

theorem test_decode_valU16 : decodeTableWord 32 0x34018001 = some (.valU16 .param 0x8001) ∧ encode (.valU16 .param 0x8001) = 0x34018001 := by decide

theorem test_decode_valU32 : decodeTableWord 32 0x35010004 = some (.valU32 .param 4) ∧ encode (.valU32 .param 4) = 0x35010004 := by decide

theorem test_decode_valReject : decodeTableWord 32 0x36010000 = some (.valReject .param) ∧ encode (.valReject .param) = 0x36010000 := by decide

theorem test_decode_valBadlen : decodeTableWord 32 0x37000000 = some (.valBadlen .chunk) ∧ encode (.valBadlen .chunk) = 0x37000000 := by decide

theorem test_decode_bufPut : decodeTableWord 32 0x400000AA = some (.bufPut 0xAA) ∧ encode (.bufPut 0xAA) = 0x400000AA := by decide

theorem test_decode_chkOpen : decodeTableWord 32 0x41030004 = some (.chkOpen 0x04 0x03) ∧ encode (.chkOpen 0x04 0x03) = 0x41030004 := by decide

theorem test_decode_chkClose : decodeTableWord 32 0x42000000 = some (.chkClose) ∧ encode (.chkClose) = 0x42000000 := by decide

theorem test_decode_prmOpen : decodeTableWord 32 0x43008008 = some (.prmOpen 0x8008) ∧ encode (.prmOpen 0x8008) = 0x43008008 := by decide

theorem test_decode_prmClose : decodeTableWord 32 0x44000000 = some (.prmClose) ∧ encode (.prmClose) = 0x44000000 := by decide

/-- Every must-be-zero bit of the formats is checked: the lowest and the highest of each row, and the unused operations on both sides
of each block (R48). -/
theorem test_mustBeZero_N :
    [0x00000001, 0x01800000, 0x10000001, 0x12008000, 0x20010000, 0x21000100, 0x22800000, 0x23000001, 0x30000001, 0x32000001,
     0x42010000, 0x44000001].all (fun w : Word => decode w matches .error .mustBeZero) = true := by decide

theorem test_mustBeZero_operands :
    [0x11000100, 0x11010000, 0x40008000, 0x40800000, 0x31010000, 0x31800000, 0x43010000, 0x33020000, 0x34800000, 0x35020000,
     0x36000001, 0x36020000, 0x37008000, 0x37800000, 0x41000100, 0x41008000].all
      (fun w : Word => decode w matches .error .mustBeZero) = true := by decide

theorem test_unusedOps :
    [0x02000000, 0x0F000000, 0x13000000, 0x1F000000, 0x24000000, 0x2F000000, 0x38000000, 0x3F000000, 0x45000000, 0xFFFFFFFF].all
      (fun w : Word => decode w matches .error .unusedOp) = true := by decide

/-- The well-formedness checks refuse an ill-formed word of each format and of each row, and accept the words of R49. -/
theorem test_wellFormed_refuses :
    [0x00000001, 0x01000001, 0x10000001, 0x11000100, 0x12000001, 0x20000001, 0x21000001, 0x22000001, 0x23000001, 0x30000001,
     0x31010000, 0x32000001, 0x33020000, 0x34020000, 0x35020000, 0x36000001, 0x37000001, 0x40000100, 0x41000100, 0x42000001,
     0x43010000, 0x44000001].any legalWord = false := by decide

theorem test_wellFormed_accepts :
    [0x00000000, 0x01000000, 0x10000000, 0x110000FF, 0x12000000, 0x20000000, 0x21000000, 0x22000000, 0x23000000, 0x30000000,
     0x3100FFFF, 0x32000000, 0x3301FFFF, 0x3401FFFF, 0x3501FFFF, 0x36010000, 0x37010000, 0x400000FF, 0x41FF00FF, 0x42000000,
     0x4300FFFF, 0x44000000].all legalWord = true := by decide

/-- R47's columns `match` and `mask`, as printed. -/
theorem test_opcodeMap_match : opcodeMap.map Row.matchWord =
    [0x00000000, 0x01000000, 0x10000000, 0x11000000, 0x12000000, 0x20000000, 0x21000000, 0x22000000, 0x23000000, 0x30000000,
     0x31000000, 0x32000000, 0x33000000, 0x34000000, 0x35000000, 0x36000000, 0x37000000, 0x40000000, 0x41000000, 0x42000000,
     0x43000000, 0x44000000] := by decide

theorem test_opcodeMap_mask : opcodeMap.map Row.mask =
    [0xFFFFFFFF, 0xFFFFFFFF, 0xFFFFFFFF, 0xFFFFFF00, 0xFFFFFFFF, 0xFFFFFFFF, 0xFFFFFFFF, 0xFFFFFFFF, 0xFFFFFFFF, 0xFFFFFFFF,
     0xFFFF0000, 0xFFFFFFFF, 0xFFFE0000, 0xFFFE0000, 0xFFFE0000, 0xFFFEFFFF, 0xFFFEFFFF, 0xFFFFFF00, 0xFF00FF00, 0xFFFFFFFF,
     0xFFFF0000, 0xFFFFFFFF] := by decide

theorem test_pseudo : put16 0x000A = [.bufPut 0, .bufPut 0x0A] ∧ put32 0xDEADBEEF = [.bufPut 0xDE, .bufPut 0xAD, .bufPut 0xBE,
    .bufPut 0xEF] ∧ crcStr [1, 2] = [.crcByte 1, .crcByte 2] := by decide

/-- `withFetchWord` makes the word the next step's, from reset. -/
theorem test_withFetchWord : answers (step (State.reset.withFetchWord 32 0x10000000)) (fun t => t.crcAcc == 0xFFFFFFFF) = true := by
  decide

/-! ## CRC32c (R61, R63) -/

/-- The table as R61 prints it, entries 0 to 63. -/
theorem test_crcTab_0 : (List.range 64).map (fun i => crcTab (BitVec.ofNat 8 (0 + i))) =
    [0x00000000, 0xF26B8303, 0xE13B70F7, 0x1350F3F4, 0xC79A971F, 0x35F1141C, 0x26A1E7E8, 0xD4CA64EB,
     0x8AD958CF, 0x78B2DBCC, 0x6BE22838, 0x9989AB3B, 0x4D43CFD0, 0xBF284CD3, 0xAC78BF27, 0x5E133C24,
     0x105EC76F, 0xE235446C, 0xF165B798, 0x030E349B, 0xD7C45070, 0x25AFD373, 0x36FF2087, 0xC494A384,
     0x9A879FA0, 0x68EC1CA3, 0x7BBCEF57, 0x89D76C54, 0x5D1D08BF, 0xAF768BBC, 0xBC267848, 0x4E4DFB4B,
     0x20BD8EDE, 0xD2D60DDD, 0xC186FE29, 0x33ED7D2A, 0xE72719C1, 0x154C9AC2, 0x061C6936, 0xF477EA35,
     0xAA64D611, 0x580F5512, 0x4B5FA6E6, 0xB93425E5, 0x6DFE410E, 0x9F95C20D, 0x8CC531F9, 0x7EAEB2FA,
     0x30E349B1, 0xC288CAB2, 0xD1D83946, 0x23B3BA45, 0xF779DEAE, 0x05125DAD, 0x1642AE59, 0xE4292D5A,
     0xBA3A117E, 0x4851927D, 0x5B016189, 0xA96AE28A, 0x7DA08661, 0x8FCB0562, 0x9C9BF696, 0x6EF07595] := by
  decide +kernel

/-- The table as R61 prints it, entries 64 to 127. -/
theorem test_crcTab_1 : (List.range 64).map (fun i => crcTab (BitVec.ofNat 8 (64 + i))) =
    [0x417B1DBC, 0xB3109EBF, 0xA0406D4B, 0x522BEE48, 0x86E18AA3, 0x748A09A0, 0x67DAFA54, 0x95B17957,
     0xCBA24573, 0x39C9C670, 0x2A993584, 0xD8F2B687, 0x0C38D26C, 0xFE53516F, 0xED03A29B, 0x1F682198,
     0x5125DAD3, 0xA34E59D0, 0xB01EAA24, 0x42752927, 0x96BF4DCC, 0x64D4CECF, 0x77843D3B, 0x85EFBE38,
     0xDBFC821C, 0x2997011F, 0x3AC7F2EB, 0xC8AC71E8, 0x1C661503, 0xEE0D9600, 0xFD5D65F4, 0x0F36E6F7,
     0x61C69362, 0x93AD1061, 0x80FDE395, 0x72966096, 0xA65C047D, 0x5437877E, 0x4767748A, 0xB50CF789,
     0xEB1FCBAD, 0x197448AE, 0x0A24BB5A, 0xF84F3859, 0x2C855CB2, 0xDEEEDFB1, 0xCDBE2C45, 0x3FD5AF46,
     0x7198540D, 0x83F3D70E, 0x90A324FA, 0x62C8A7F9, 0xB602C312, 0x44694011, 0x5739B3E5, 0xA55230E6,
     0xFB410CC2, 0x092A8FC1, 0x1A7A7C35, 0xE811FF36, 0x3CDB9BDD, 0xCEB018DE, 0xDDE0EB2A, 0x2F8B6829] := by
  decide +kernel

/-- The table as R61 prints it, entries 128 to 191. -/
theorem test_crcTab_2 : (List.range 64).map (fun i => crcTab (BitVec.ofNat 8 (128 + i))) =
    [0x82F63B78, 0x709DB87B, 0x63CD4B8F, 0x91A6C88C, 0x456CAC67, 0xB7072F64, 0xA457DC90, 0x563C5F93,
     0x082F63B7, 0xFA44E0B4, 0xE9141340, 0x1B7F9043, 0xCFB5F4A8, 0x3DDE77AB, 0x2E8E845F, 0xDCE5075C,
     0x92A8FC17, 0x60C37F14, 0x73938CE0, 0x81F80FE3, 0x55326B08, 0xA759E80B, 0xB4091BFF, 0x466298FC,
     0x1871A4D8, 0xEA1A27DB, 0xF94AD42F, 0x0B21572C, 0xDFEB33C7, 0x2D80B0C4, 0x3ED04330, 0xCCBBC033,
     0xA24BB5A6, 0x502036A5, 0x4370C551, 0xB11B4652, 0x65D122B9, 0x97BAA1BA, 0x84EA524E, 0x7681D14D,
     0x2892ED69, 0xDAF96E6A, 0xC9A99D9E, 0x3BC21E9D, 0xEF087A76, 0x1D63F975, 0x0E330A81, 0xFC588982,
     0xB21572C9, 0x407EF1CA, 0x532E023E, 0xA145813D, 0x758FE5D6, 0x87E466D5, 0x94B49521, 0x66DF1622,
     0x38CC2A06, 0xCAA7A905, 0xD9F75AF1, 0x2B9CD9F2, 0xFF56BD19, 0x0D3D3E1A, 0x1E6DCDEE, 0xEC064EED] := by
  decide +kernel

/-- The table as R61 prints it, entries 192 to 255. -/
theorem test_crcTab_3 : (List.range 64).map (fun i => crcTab (BitVec.ofNat 8 (192 + i))) =
    [0xC38D26C4, 0x31E6A5C7, 0x22B65633, 0xD0DDD530, 0x0417B1DB, 0xF67C32D8, 0xE52CC12C, 0x1747422F,
     0x49547E0B, 0xBB3FFD08, 0xA86F0EFC, 0x5A048DFF, 0x8ECEE914, 0x7CA56A17, 0x6FF599E3, 0x9D9E1AE0,
     0xD3D3E1AB, 0x21B862A8, 0x32E8915C, 0xC083125F, 0x144976B4, 0xE622F5B7, 0xF5720643, 0x07198540,
     0x590AB964, 0xAB613A67, 0xB831C993, 0x4A5A4A90, 0x9E902E7B, 0x6CFBAD78, 0x7FAB5E8C, 0x8DC0DD8F,
     0xE330A81A, 0x115B2B19, 0x020BD8ED, 0xF0605BEE, 0x24AA3F05, 0xD6C1BC06, 0xC5914FF2, 0x37FACCF1,
     0x69E9F0D5, 0x9B8273D6, 0x88D28022, 0x7AB90321, 0xAE7367CA, 0x5C18E4C9, 0x4F48173D, 0xBD23943E,
     0xF36E6F75, 0x0105EC76, 0x12551F82, 0xE03E9C81, 0x34F4F86A, 0xC69F7B69, 0xD5CF889D, 0x27A40B9E,
     0x79B737BA, 0x8BDCB4B9, 0x988C474D, 0x6AE7C44E, 0xBE2DA0A5, 0x4C4623A6, 0x5F16D052, 0xAD7D5351] := by
  decide +kernel

/-- 95_test_vectors.md section 2.1. -/
theorem test_crc32c_check : crc32c [0x31, 0x32, 0x33, 0x34, 0x35, 0x36, 0x37, 0x38, 0x39] = 0xE3069283 := by decide +kernel

theorem test_crc32c_zeros_ones : crc32c (List.replicate 32 0) = 0x8A9136AA ∧ crc32c (List.replicate 32 0xFF) = 0x62A8AB43
    ∧ crc32c [] = 0 := by decide +kernel

/-! ## Single steps -/

/-- X12. -/
theorem test_nop : answers (exec .nop faulted) (· == faulted) = true := by decide +kernel

/-- X11. -/
theorem test_start : answers (exec .start faulted) (fun t => errors t == [0, 0, 0, 0] && t.end0 == 12 && t.pos0 == 0) = true := by
  decide +kernel

/-- Section 2.3, rows 1, 2, 11. -/
theorem test_crcInit : answers (exec .crcInit (holding [])) (fun t => t.crcAcc == 0xFFFFFFFF && t.crcOut == 0) = true := by
  decide +kernel

theorem test_crcByte : answers (exec (.crcByte 0x31) { holding [] with crcAcc := 0xFFFFFFFF })
    (fun t => t.crcAcc == 0x6F0A661C && t.crcOut == 0) = true := by decide +kernel

theorem test_crcFin : answers (exec .crcFin { holding [] with crcAcc := 0x1CF96D7C })
    (fun t => t.crcAcc == 0x1CF96D7C && t.crcOut == 0xE3069283) = true := by decide +kernel

/-- P1 step 4, and H2. -/
theorem test_hdrDec : answers (exec .hdrDec (holding docHeader))
    (fun t => [t.srcPort, t.dstPort] == [1, 2] && [t.vtag, t.cksum, t.pos0, statusWord t] == [1, 0, 12, 1]) = true := by
  decide +kernel

theorem test_hdrDec_short : answers (exec .hdrDec (holding (docHeader.take 11))) (fun t => errors t == [0x800, 0x11, 0, 0]) = true := by
  decide +kernel

/-- H9 and H7. -/
theorem test_hdrEnc : answers (exec .hdrEnc { holding [] with srcPort := 0x5678, dstPort := 0xABCD, vtag := 0x01020304 })
    (fun t => t.len == 12 && bufBytes t 0 12 == [0x56, 0x78, 0xAB, 0xCD, 1, 2, 3, 4, 0, 0, 0, 0]) = true := by decide +kernel

theorem test_hdrEnc_full : answers (exec .hdrEnc (holding docHeader)) (fun t => errors t == [0x800, 0xD7, 0x21000000, 0]) = true := by
  decide +kernel

/-- P1 step 5, and H3. -/
theorem test_csumVerify : answers (exec .csumVerify (holding docHeader))
    (fun t => statusWord t == 6 && t.crcAcc == 0x966E08AE && t.crcOut == 0x6991F751) = true := by decide +kernel

theorem test_csumVerify_short : answers (exec .csumVerify (holding (docHeader.take 11)))
    (fun t => errors t == [0x800, 0x11, 11, 0]) = true := by decide +kernel

/-- P1 step 7, and H4. -/
theorem test_csumPatch : answers (exec .csumPatch (holding docHeader))
    (fun t => t.cksum == 0x6991F751 && bufBytes t 0 12 == [0, 1, 0, 2, 0, 0, 0, 1, 0x69, 0x91, 0xF7, 0x51]) = true := by
  decide +kernel

theorem test_csumPatch_short : answers (exec .csumPatch (holding (docHeader.take 5)))
    (fun t => errors t == [0x800, 0x11, 5, 0]) = true := by decide +kernel

/-- T44 (a skip, then a bad frame) and T39 (a notice). -/
theorem test_chkNext_skip_fault : answers (exec .chkNext (atBody [0xBF, 0, 0, 4, 0x04, 0, 0, 2]))
    (fun t => errors t == [0x800, 0x32, 16, 0] && t.pos0 == 16) = true := by decide +kernel

theorem test_chkNext_notice : answers (exec .chkNext (atBody [0xFF, 5, 0, 4, 0x04, 0, 0, 4]))
    (fun t => [statusWord t, cfHdrWord t, t.cf.voff, t.pos0] == [0x2009, 0x000405FF, 16, 16]) = true := by decide +kernel

/-- R89 by hand: the value is the 5 bytes at 16. -/
theorem test_prmEnter : answers (exec (.prmEnter 2) inChunk) (fun t => [t.pos1, t.end1] == [18, 21] && !t.stop1) = true := by
  decide +kernel

theorem test_prmEnter_oob : answers (exec (.prmEnter 6) inChunk) (fun t => errors t == [0x800, 0x91, 22, 0] && t.end1 == 24) = true := by
  decide +kernel

/-- Q9 and Q6. -/
theorem test_prmNext_skip : answers (exec .prmNext (atParams [0x80, 1, 0, 4, 0, 5, 0, 8, 0xC0, 0xA8, 0, 1]))
    (fun t => [statusWord t, pfHdrWord t, t.pf.voff, t.pos1] == [0x4060, 0x00080005, 8, 12]) = true := by decide +kernel

theorem test_prmNext_unknown : answers (exec .prmNext (atParams [0, 1, 0, 4])) (fun t => errors t == [0x800, 0x74, 0, 0x40001]) = true := by
  decide +kernel

/-- T3 and T4. -/
theorem test_valU8 : answers (exec (.valU8 .chunk 4) inChunk) (fun t => t.val == 0xEE) = true := by decide +kernel

theorem test_valU8_oob : answers (exec (.valU8 .chunk 5) inChunk) (fun t => errors t == [0x800, 0x91, 0x15, 0]) = true := by
  decide +kernel

/-- T6 and Q4. -/
theorem test_valU16 : answers (exec (.valU16 .chunk 3) inChunk) (fun t => t.val == 0xDDEE) = true := by decide +kernel

theorem test_valU16_oob : answers (exec (.valU16 .param 1) inParam) (fun t => errors t == [0x800, 0x91, 5, 0]) = true := by
  decide +kernel

/-- T8 and T10. -/
theorem test_valU32 : answers (exec (.valU32 .chunk 1) inChunk) (fun t => t.val == 0xBBCCDDEE) = true := by decide +kernel

theorem test_valU32_oob : answers (exec (.valU32 .chunk 65535) inChunk) (fun t => errors t == [0x800, 0x91, 0x1000F, 0]) = true := by
  decide +kernel

/-- T46. -/
theorem test_valReject : answers (exec (.valReject .chunk) inChunk) (fun t => errors t == [0x800, 0x85, 12, 4] && t.pos0 == 24) = true := by
  decide +kernel

/-- T47 and Q17. -/
theorem test_valBadlen : answers (exec (.valBadlen .chunk) inChunk) (fun t => errors t == [0x800, 0xF2, 12, 4]) = true := by
  decide +kernel

theorem test_valBadlen_param : answers (exec (.valBadlen .param) inParam) (fun t => errors t == [0x800, 0xF2, 0, 0x68008]) = true := by
  decide +kernel

/-- W9, first byte, and W16's full buffer. -/
theorem test_bufPut : answers (exec (.bufPut 0xDE) (holding [])) (fun t => t.len == 1 && bufRead t 0 == 0xDE) = true := by
  decide +kernel

theorem test_bufPut_full : answers (exec (.bufPut 0xFF) { holding [] with len := 64 })
    (fun t => errors t == [0x800, 0xA6, 0x40, 0]) = true := by decide +kernel

/-- P2 step 8, and W12's form. -/
theorem test_chkOpen : answers (exec (.chkOpen 4 3) (holding docHeader))
    (fun t => [statusWord t, t.len, t.cstart] == [0x200, 16, 12] && bufBytes t 12 4 == [4, 3, 0, 0]) = true := by decide +kernel

theorem test_chkOpen_twice : answers (exec (.chkOpen 2 0) chunkOpen) (fun t => errors t == [0xA00, 0xD7, 0x41000002, 0]) = true := by
  decide +kernel

/-- P2's chunk with one value byte, by hand from R101, and W15's form. -/
theorem test_chkClose : answers (exec .chkClose chunkOpen)
    (fun t => t.len == 8 && !t.copen && bufBytes t 0 8 == [4, 3, 0, 5, 0xAA, 0, 0, 0]) = true := by decide +kernel

theorem test_chkClose_param_open : answers (exec .chkClose bothOpen) (fun t => errors t == [0xE00, 0xD7, 0x42000000, 0]) = true := by
  decide +kernel

/-- W7's open, and W14's form. -/
theorem test_prmOpen : answers (exec (.prmOpen 0x8008) (holding []))
    (fun t => [statusWord t, t.len, t.pstart] == [0x400, 4, 0] && bufBytes t 0 4 == [0x80, 8, 0, 0]) = true := by decide +kernel

theorem test_prmOpen_twice : answers (exec (.prmOpen 6) bothOpen) (fun t => errors t == [0xE00, 0xD7, 0x43000006, 0]) = true := by
  decide +kernel

/-- A parameter with one value byte, by hand from R101, and W11. -/
theorem test_prmClose : answers (exec .prmClose bothOpen)
    (fun t => t.len == 12 && t.copen && !t.popen && bufBytes t 4 8 == [0, 5, 0, 5, 0xC0, 0, 0, 0]) = true := by decide +kernel

theorem test_prmClose_none : answers (exec .prmClose (holding [])) (fun t => errors t == [0x800, 0xD7, 0x44000000, 0]) = true := by
  decide +kernel

/-- X0, X1, X7, and section 8.1's accesses. -/
theorem test_lenWrite : answers (takeAccess (.regWrite 6 65) (holding docHeader)) (fun t => errors t == [0x800, 0xE7, 0x41, 0] && t.len == 12)
    ∧ answers (takeAccess (.regWrite 6 64) (holding docHeader)) (fun t => t.len == 64 && t.end0 == 64) = true := by decide +kernel

theorem test_hostAccess : answers (takeAccess (.regWrite 1 0xFFFFFFFF) faulted) (fun t => hostRegRead 1 t == 1)
    ∧ answers (takeAccess (.regWrite 48 0xFFFFFFFF) (holding [])) (fun t => hostRegRead 48 t == 0x1FFFF)
    ∧ answers (takeAccess (.regWrite 13 0x12345678) (holding [])) (fun t => hostRegRead 13 t == 0x5678)
    ∧ answers (takeAccess (.regWrite 39 0x80000000) (holding [])) (fun t => hostRegRead 39 t == 0x80000000)
    ∧ answers (takeAccess (.bufWrite 64 0x5A) (holding [])) (fun t => bufRead t 64 == 0)
    ∧ answers (takeAccess (.bufWrite 3 0x5A) (holding [])) (fun t => bufRead t 3 == 0x5A) = true := by decide +kernel

/-- R25, R31 at the ends of a registry of two entries: entry 1 is written and read, entry 2 is a reserved offset. -/
theorem test_hostAccess_smallRegistry : answers (takeAccess (.regWrite 49 0xFFFFFFFF) twoEntries) (fun t => t.pknown == [0, 0x1FFFF]
      && hostRegRead 49 t == 0x1FFFF)
    ∧ answers (takeAccess (.regWrite 50 0xFFFFFFFF) twoEntries) (fun t => t.pknown == [0, 0] && hostRegRead 50 t == 0) = true := by
  decide +kernel

/-! ## Hypotheses met

Each theorem shows a concrete state and operands that meet the hypotheses of the statement it names, one clause at a time. -/

/-- The invariant as a test. -/
def meets (s : State) : Bool :=
  decide (CapacityLegal s) && decide (RegistryLegal s) && decide (BufferLegal s) && decide (CursorsInBounds s) && decide (ChunkFrameCoherent s)
    && decide (ParamFrameCoherent s) && decide (ResultCoherent s.res0 s.cf.valid s.cf.known)
    && decide (ResultCoherent s.res1 s.pf.valid s.pf.known) && decide (FatalOffersNothing s) && decide (OpenFramesInBuffer s)
    && decide (ErrorCoherent s)

theorem inv_of_meets {s : State} (h : meets s = true) : Inv s := by
  simp only [meets, Bool.and_eq_true, decide_eq_true_eq] at h
  obtain ⟨⟨⟨⟨⟨⟨⟨⟨⟨⟨h1, h2⟩, h3⟩, h4⟩, h5⟩, h6⟩, h7⟩, h8⟩, h9⟩, h10⟩, h11⟩ := h
  exact ⟨h1, h2, h3, h4, h5, h6, h7, h8, h9, h10, h11⟩

theorem witness_EncodeOfDecodeIsTheWord : decode 0x41030004 = .ok (.chkOpen 0x04 0x03) := by decide

theorem witness_DecodeFollowsTheOpcodeMap : (⟨"CRC.BYTE", 0x11, .b⟩ : Row) ∈ opcodeMap
    ∧ ((0x110000FF : Word) &&& 0xFFFFFF00 = 0x11000000) ∧ (∃ i, decode 0x110000FF = .ok i)
    ∧ (∃ e, decode 0x11000100 = .error e) := ⟨by decide, by decide, ⟨_, rfl⟩, ⟨_, rfl⟩⟩

theorem witness_OperandsAreTheFieldsOfTheWord : decode 0x11000000 = .ok (.crcByte 0) ∧ decode 0x400000FF = .ok (.bufPut 0xFF)
    ∧ decode 0x3100FFFF = .ok (.prmEnter 0xFFFF) ∧ decode 0x4300FFFF = .ok (.prmOpen 0xFFFF)
    ∧ decode 0x3301FFFF = .ok (.valU8 .param 0xFFFF) ∧ decode 0x34000000 = .ok (.valU16 .chunk 0)
    ∧ decode 0x35010000 = .ok (.valU32 .param 0) ∧ decode 0x36000000 = .ok (.valReject .chunk)
    ∧ decode 0x37010000 = .ok (.valBadlen .param) ∧ decode 0x41FF00FF = .ok (.chkOpen 0xFF 0xFF) := by decide

/-- A state whose next access issues a word. -/
def issuing (w : Word) (s : State) : State := { s with pending := [.regWrite 0 w] }

theorem witness_StepRunsTheDecodedCommand : (holding []).pending = []
    ∧ (issuing 0x10000000 (holding [])).pending = .regWrite 0 0x10000000 :: [] ∧ decode 0x10000000 = .ok .crcInit := by decide

theorem witness_DispatchOrderOfACommandWord :
    (issuing 0x00000000 faulted).pending = [.regWrite 0 0x00000000] ∧ decode 0x00000000 = .ok .nop ∧ decode 0x01000000 = .ok .start
    ∧ decode 0x10000000 ≠ .ok .nop ∧ decode 0x10000000 ≠ .ok .start ∧ decode 0xFFFFFFFF ≠ .ok .nop ∧ decode 0xFFFFFFFF ≠ .ok .start
    ∧ faulted.err.kind ≠ .none ∧ (holding []).err.kind = .none ∧ legalWord 0x01000001 = false ∧ decode 0x10000000 = .ok .crcInit := by
  decide

theorem witness_FatalUnitRefusesCommands : faulted.err.kind ≠ .none ∧ (.crcInit : Instr) ≠ .nop ∧ (.crcInit : Instr) ≠ .start
    ∧ legalWord 0xFFFFFFFF = false ∧ faulted.maxPacket < (65 : Word).toNat ∧ 15 < faulted.nPreg ∧ faulted.nPreg ≤ 16 := by decide

theorem witness_FaultsArePrecise : ∃ t, (holding docHeader).err.kind = .none ∧ exec .hdrEnc (holding docHeader) = .next t
    ∧ t.err.kind ≠ .none := ⟨_, by decide, rfl, by decide⟩

/-- A fault of `CHK.NEXT` behind a skipped frame (T44). -/
theorem witness_FaultsArePrecise_skip : ∃ t, (atBody [0xBF, 0, 0, 4, 4, 0, 0, 2]).err.kind = .none
    ∧ exec .chkNext (atBody [0xBF, 0, 0, 4, 4, 0, 0, 2]) = .next t ∧ t.err.kind ≠ .none ∧ t.pos0 = 16 :=
  ⟨_, by decide, rfl, by decide +kernel, by decide +kernel⟩

theorem witness_CommandsRaiseOnlyTheirCauses : ∃ t, (holding docHeader).err.kind = .none ∧ exec .prmClose (holding docHeader) = .next t
    ∧ t.err.kind ≠ .none := ⟨_, by decide, rfl, by decide⟩

theorem witness_FrameFaultsReportTheFrame : ∃ t, exec (nextCommand .param) (atParams [0, 5, 0]) = .next t ∧ t.err.kind ≠ .none
    ∧ t.err.cause = .frameHdrShort := ⟨_, rfl, by decide +kernel, by decide +kernel⟩

theorem witness_FrameFaultsReportTheFrame_padAbsent : ∃ t, exec (nextCommand .chunk) (atBody (bodyT0.take 11)) = .next t
    ∧ t.err.kind ≠ .none ∧ t.err.cause = .padAbsent := ⟨_, rfl, by decide +kernel, by decide +kernel⟩

/-- The last of three padding bytes, `j = 2` (T16). -/
theorem witness_FrameFaultsReportTheFrame_padNonzero : ∃ t, exec (nextCommand .chunk) (atBody (bodyT0.take 11 ++ [0x80])) = .next t
    ∧ t.err.kind ≠ .none ∧ t.err.cause = .padNonzero := ⟨_, rfl, by decide +kernel, by decide +kernel⟩

theorem witness_NopChangesNothing : (0x00000001 : Word).extractLsb' 24 8 = 0 ∧ (0x00000001 : Word) ≠ 0
    ∧ (0x00800000 : Word).extractLsb' 24 8 = 0 ∧ (0x00800000 : Word) ≠ 0 := by decide

theorem witness_StartBeginsACall : (64 : Word).toNat ≤ faulted.maxPacket := by decide

theorem witness_CrcInitAndByteWriteTheAccumulator : (holding []).err.kind = .none := by decide

theorem witness_CrcFinGivesTheChecksum :
    ({ holding [] with pending := (.crcInit :: (crcStr [0x31, 0x32] ++ [.crcFin])).map issue ++ [.regRead 18] } : State).pending
      = (.crcInit :: (crcStr [0x31, 0x32] ++ [.crcFin])).map issue ++ [.regRead 18] ∧ (holding []).err.kind = .none := by decide

/-- The continuation: `CRC_ACC` stands after `31 32`, and one more byte and `CRC.FIN` are issued. -/
theorem witness_CrcFinGivesTheChecksum_continued :
    let s : State := { holding [] with crcAcc := crc32c [0x31, 0x32] ^^^ 0xFFFFFFFF,
                                       pending := (crcStr [0x33] ++ [Instr.crcFin]).map issue ++ [] }
    s.err.kind = .none ∧ s.crcAcc = crc32c [0x31, 0x32] ^^^ 0xFFFFFFFF
    ∧ s.pending = (crcStr [0x33] ++ [Instr.crcFin]).map issue ++ [] := ⟨by decide, rfl, rfl⟩

/-- A packet that verifies, and the packet with one byte changed: offset 0, outside the checksum field. -/
theorem witness_SingleByteMutationIsDetected : ∃ u, patched.err.kind = .none ∧ exec .csumVerify patched = .next u
    ∧ u.err.kind = .none ∧ u.ckBad = false ∧ bufWrite 0 [1] patched = { patched with buf := (bufWrite 0 [1] patched).buf }
    ∧ 0 < patched.len.toNat ∧ bufRead (bufWrite 0 [1] patched) 0 ≠ bufRead patched 0
    ∧ ∀ a, a ≠ 0 → bufRead (bufWrite 0 [1] patched) a = bufRead patched a :=
  ⟨_, by decide, rfl, by decide +kernel, by decide +kernel, rfl, by decide, by decide +kernel,
    fun a ha => bufRead_bufWrite_outside (by simp; omega)⟩

/-- The last byte, offset `LEN - 1`, inside the checksum field. -/
theorem witness_SingleByteMutationIsDetected_last : ∃ u, patched.err.kind = .none ∧ exec .csumVerify patched = .next u
    ∧ u.err.kind = .none ∧ u.ckBad = false ∧ 11 < patched.len.toNat
    ∧ bufRead (bufWrite 11 [0xD1] patched) 11 ≠ bufRead patched 11
    ∧ ∀ a, a ≠ 11 → bufRead (bufWrite 11 [0xD1] patched) a = bufRead patched a :=
  ⟨_, by decide, rfl, by decide +kernel, by decide +kernel, by decide, by decide +kernel,
    fun a ha => bufRead_bufWrite_outside (by simp; omega)⟩

theorem witness_HdrDecLoadsTheHeader :
    ((holding docHeader).err.kind = .none ∧ (holding docHeader).pos0 = 0 ∧ (holding docHeader).hdrValid = false
      ∧ (holding docHeader).end0.toNat = 12)
    ∧ ((holding (docHeader.take 11)).pos0 = 0 ∧ (holding (docHeader.take 11)).hdrValid = false
      ∧ (holding (docHeader.take 11)).end0.toNat < 12)
    ∧ (atBody []).pos0 ≠ 0 ∧ { holding docHeader with hdrValid := true }.hdrValid = true := by decide

theorem witness_HdrEncAppendsTheHeader : { holding [] with maxPacket := 12 }.err.kind = .none ∧ (holding []).len = 0
    ∧ 12 ≤ { holding [] with maxPacket := 12 }.maxPacket ∧ (holding [0]).len ≠ 0 ∧ 12 ≤ (holding [0]).maxPacket := by decide

theorem witness_CsumVerifyComparesTheChecksum : (holding docHeader).err.kind = .none ∧ (holding docHeader).len.toNat = 12
    ∧ (holding (docHeader.take 11)).len.toNat < 12 := by decide

theorem witness_CsumPatchStoresTheChecksum : (holding docHeader).err.kind = .none ∧ 12 ≤ (holding docHeader).maxPacket
    ∧ (holding docHeader).copen = false ∧ (holding docHeader).popen = false ∧ (holding docHeader).len.toNat = 12
    ∧ (holding (docHeader.take 11)).len.toNat < 12 ∧ chunkOpen.copen = true ∧ chunkOpen.err.kind = .none ∧ bothOpen.popen = true
    ∧ Memory.wf (holding docHeader).buf = true := by decide

theorem witness_HeaderRoundTrip : 12 ≤ (holding []).maxPacket
    ∧ { holding [] with pending := setLen 0 :: [Instr.hdrEnc, .csumPatch, .start, .hdrDec].map issue ++ [] }.pending
      = setLen 0 :: [Instr.hdrEnc, .csumPatch, .start, .hdrDec].map issue ++ [] := by decide

/-! The checks of `ParseFrame`: nothing remaining, 1 and 3 bytes remaining, lengths 0 and 3, a length one above what remains, one
padding byte missing, the last padding byte nonzero, and a frame that fills its window. -/

theorem witness_ParseFrameChecksInOrder_short : curRemaining (atBody []) .chunk = 0 ∧ curRemaining (atBody [4]) .chunk = 1
    ∧ curRemaining (atBody [4, 0, 0]) .chunk = 3 := by decide

theorem witness_ParseFrameChecksInOrder_length : curRemaining (atBody [4, 0, 0, 0]) .chunk = 4 ∧ frameLen (atBody [4, 0, 0, 0]) .chunk = 0
    ∧ frameLen (atBody [4, 0, 0, 3]) .chunk = 3 ∧ frameLen (atBody [4, 0, 0, 5]) .chunk = 5
    ∧ curRemaining (atBody [4, 0, 0, 5]) .chunk < 5 := by decide +kernel

theorem witness_ParseFrameChecksInOrder_padding : frameLen (atBody (bodyT0.take 11)) .chunk = 9
    ∧ 9 ≤ curRemaining (atBody (bodyT0.take 11)) .chunk ∧ curRemaining (atBody (bodyT0.take 11)) .chunk < 9 + pad 9
    ∧ frameLen (atBody (bodyT0.take 11 ++ [0x80])) .chunk = 9 ∧ 9 + pad 9 ≤ curRemaining (atBody (bodyT0.take 11 ++ [0x80])) .chunk
    ∧ (atBody (bodyT0.take 11 ++ [0x80])).padTol = false ∧ 2 < pad 9 ∧ bufRead (atBody (bodyT0.take 11 ++ [0x80])) (12 + 9 + 2) ≠ 0
    ∧ ∀ k, k < 2 → bufRead (atBody (bodyT0.take 11 ++ [0x80])) (12 + 9 + k) = 0 := by decide +kernel

theorem witness_ParseFrameChecksInOrder_frame : wellFramed (atBody bodyT0) .chunk ∧ wellFramed (atBody [4, 0, 0, 4]) .chunk
    ∧ wellFramed (atParams [0, 5, 0, 8, 1, 2, 3, 4]) .param :=
  ⟨⟨by decide +kernel, by decide +kernel, .inr (by decide +kernel)⟩, ⟨by decide +kernel, by decide +kernel, .inr (by decide +kernel)⟩,
    ⟨by decide +kernel, by decide +kernel, .inr (by decide +kernel)⟩⟩

theorem witness_NextFollowsTheFramerStep : (atBody []).err.kind = .none ∧ { atBody [] with stop0 := true }.stop .chunk = true
    ∧ (atBody []).stop .chunk = false ∧ parseFrame (atBody []) .chunk = .finished
    ∧ parseFrame (atBody [4, 0, 0, 3]) .chunk = .bad .invalidLength .lenLt4 12 := by decide +kernel

/-- A known type, and unknown types with the four actions. -/
theorem witness_NextFollowsTheFramerStep_types :
    (parseFrame (atBody [4, 0, 0, 4]) .chunk = .frame 4 0 4 16 0 16 ∧ known (atBody [4, 0, 0, 4]) .chunk 4 = true)
    ∧ (parseFrame (atBody [0x3F, 0, 0, 4]) .chunk = .frame 0x3F 0 4 16 0 16 ∧ known (atBody [0x3F, 0, 0, 4]) .chunk 0x3F = false
        ∧ action .chunk 0x3F = 0)
    ∧ (parseFrame (atParams [0x40, 1, 0, 4]) .param = .frame 0x4001 0 4 4 0 4 ∧ known (atParams [0x40, 1, 0, 4]) .param 0x4001 = false
        ∧ action .param 0x4001 = 1)
    ∧ (parseFrame (atBody [0xBF, 0, 0, 4]) .chunk = .frame 0xBF 0 4 16 0 16 ∧ known (atBody [0xBF, 0, 0, 4]) .chunk 0xBF = false
        ∧ action .chunk 0xBF = 2)
    ∧ parseFrame (atParams [0xC0, 1, 0, 4]) .param = .frame 0xC001 0 4 4 0 4 ∧ known (atParams [0xC0, 1, 0, 4]) .param 0xC001 = false
        ∧ action .param 0xC001 = 3 := by decide +kernel

theorem witness_ChkNextReturnsAKnownChunk : (atBody bodyT0).err.kind = .none ∧ (atBody bodyT0).stop0 = false ∧ wellFramed (atBody bodyT0) .chunk
    ∧ known (atBody bodyT0) .chunk ((rd8 (atBody bodyT0) (atBody bodyT0).pos0.toNat).setWidth 16) = true :=
  ⟨by decide, by decide, ⟨by decide +kernel, by decide +kernel, .inr (by decide +kernel)⟩, by decide +kernel⟩

theorem witness_PrmNextReturnsAKnownParameter : (atParams [0, 5, 0, 4]).err.kind = .none ∧ (atParams [0, 5, 0, 4]).stop1 = false
    ∧ wellFramed (atParams [0, 5, 0, 4]) .param
    ∧ known (atParams [0, 5, 0, 4]) .param (rd16 (atParams [0, 5, 0, 4]) (atParams [0, 5, 0, 4]).pos1.toNat) = true :=
  ⟨by decide, by decide, ⟨by decide +kernel, by decide +kernel, .inr (by decide +kernel)⟩, by decide +kernel⟩

theorem witness_EndIsRepeated : ∃ t, (atBody [0x7F, 0, 0, 4, 4, 0, 0, 4]).err.kind = .none
    ∧ exec (nextCommand .chunk) (atBody [0x7F, 0, 0, 4, 4, 0, 0, 4]) = .next t ∧ t.res .chunk = .finished :=
  ⟨_, by decide, rfl, by decide +kernel⟩

theorem witness_PrmEnterSetsTheParameterWindow : inChunk.err.kind = .none ∧ inChunk.cf.valid = true
    ∧ (5 : Half).toNat ≤ inChunk.cf.vlen.toNat ∧ inChunk.cf.vlen.toNat < (6 : Half).toNat ∧ (holding []).cf.valid = false
    ∧ (holding []).err.kind = .none := by decide

theorem witness_ValExtractsTheFieldOrFaults : inChunk.err.kind = .none ∧ inChunk.frameValid .chunk = true
    ∧ (4 : Half).toNat + 1 = (inChunk.frameVlen .chunk).toNat ∧ (inChunk.frameVlen .chunk).toNat < (5 : Half).toNat + 1
    ∧ (3 : Half).toNat + 2 = (inChunk.frameVlen .chunk).toNat ∧ (inChunk.frameVlen .chunk).toNat < (4 : Half).toNat + 2
    ∧ (1 : Half).toNat + 4 = (inChunk.frameVlen .chunk).toNat ∧ (inChunk.frameVlen .chunk).toNat < (2 : Half).toNat + 4
    ∧ inChunk.frameValid .param = false ∧ inParam.err.kind = .none ∧ inParam.frameValid .param = true
    ∧ (0 : Half).toNat + 2 = (inParam.frameVlen .param).toNat := by decide

theorem witness_RejectedValueIsFatal : (inChunk.err.kind = .none ∧ inChunk.frameValid .chunk = true ∧ inChunk.frameKnown .chunk = true)
    ∧ (inParam.err.kind = .none ∧ inParam.frameValid .param = true ∧ inParam.frameKnown .param = true)
    ∧ inChunk.frameValid .param = false ∧ { inChunk with cf := { inChunk.cf with known := false } }.frameKnown .chunk = false := by decide

theorem witness_BufPutAppendsTheByte : { holding [] with len := 63 }.err.kind = .none
    ∧ { holding [] with len := 63 }.len.toNat + 1 = (holding []).maxPacket
    ∧ (holding []).maxPacket < { holding [] with len := 64 }.len.toNat + 1 := by decide

theorem witness_ChkOpenAppendsTheChunkHeader : { holding [] with len := 60 }.err.kind = .none ∧ (holding []).copen = false
    ∧ (holding []).popen = false ∧ { holding [] with len := 60 }.len.toNat + 4 = (holding []).maxPacket
    ∧ (holding []).maxPacket < { holding [] with len := 61 }.len.toNat + 4 ∧ chunkOpen.copen = true ∧ bothOpen.popen = true
    ∧ chunkOpen.err.kind = .none := by decide

/-- A chunk whose padding ends at `MAX_PACKET`, one that does not fit, one of length 65535, one of 65536, and an empty one. -/
def closing (cap : Nat) (start len : Word) : State :=
  { holding [] with maxPacket := cap, len := len, cstart := start, pstart := start, copen := true }

theorem witness_ChkClosePatchesAndPads : (closing 64 56 61).err.kind = .none ∧ (closing 64 56 61).copen = true
    ∧ (closing 64 56 61).popen = false ∧ (56 + 4 ≤ 61 ∧ 61 - 56 ≤ 65535 ∧ 61 + pad (61 - 56) = (closing 64 56 61).maxPacket)
    ∧ (0 + 4 ≤ (closing 70000 0 4).len.toNat) ∧ ((closing 70000 0 65535).len.toNat - 0 = 65535)
    ∧ 65535 < (closing 70000 0 65536).len.toNat - (closing 70000 0 65536).cstart.toNat
    ∧ ((closing 64 57 63).cstart.toNat + 4 ≤ (closing 64 57 63).len.toNat ∧ (closing 64 57 63).maxPacket < 63 + pad (63 - 57))
    ∧ (holding (docHeader)).copen = false ∧ bothOpen.popen = true ∧ bothOpen.err.kind = .none := by decide

/-- W10 and W11: nothing is open and `LEN` is below `CSTART + 4` and `PSTART + 4`, as after reset. -/
theorem witness_ClosePatchesAndPads_empty : (holding []).err.kind = .none ∧ (holding []).copen = false ∧ (holding []).popen = false
    ∧ (holding []).len.toNat < (holding []).cstart.toNat + 4 ∧ (holding []).len.toNat < (holding []).pstart.toNat + 4 := by decide

theorem witness_PrmOpenAppendsTheParameterHeader : { holding [] with len := 60 }.err.kind = .none ∧ (holding []).popen = false
    ∧ { holding [] with len := 60 }.len.toNat + 4 = (holding []).maxPacket
    ∧ (holding []).maxPacket < { holding [] with len := 61 }.len.toNat + 4 ∧ bothOpen.popen = true ∧ bothOpen.err.kind = .none := by decide

theorem witness_PrmClosePatchesAndPads : { closing 64 56 61 with popen := true }.err.kind = .none
    ∧ { closing 64 56 61 with popen := true }.popen = true
    ∧ ((closing 64 56 61).pstart.toNat + 4 ≤ (closing 64 56 61).len.toNat ∧ 61 + pad (61 - 56) = (closing 64 56 61).maxPacket)
    ∧ 65535 < (closing 70000 0 65536).len.toNat - (closing 70000 0 65536).pstart.toNat
    ∧ ((closing 64 57 63).pstart.toNat + 4 ≤ (closing 64 57 63).len.toNat ∧ (closing 64 57 63).maxPacket < 63 + pad (63 - 57))
    ∧ (closing 64 56 61).popen = false := by decide

/-- A chunk of 12 bytes on the wire, and one with a parameter in its value. -/
def planA : ChunkPlan := ⟨4, 3, [0xAA, 0xBB, 0xCC, 0xDD, 0xEE], []⟩
def planB : ChunkPlan := ⟨4, 0, [], [⟨0x8008, [0xC0]⟩]⟩

/-- Two chunks of 12 bytes fill a buffer of 64 from 40. -/
theorem witness_EncoderWritesTheWireFormat :
    let s : State := { holding (List.replicate 40 0) with pending := ([planA, planB].flatMap chunkCommands).map issue ++ [] }
    Inv s ∧ s.err.kind = .none ∧ s.copen = false ∧ s.popen = false ∧ (∀ c ∈ [planA, planB], chunkLength c ≤ 65535)
    ∧ s.len.toNat + ([planA, planB].flatMap chunkBytes).length = s.maxPacket
    ∧ s.pending = ([planA, planB].flatMap chunkCommands).map issue ++ [] :=
  ⟨inv_of_meets (by decide +kernel), by decide, by decide, by decide, by decide +kernel, by decide +kernel, rfl⟩

theorem witness_DecoderReturnsTheChunks :
    let s : State := atBody ([planA, planB].flatMap chunkBytes)
    s.err.kind = .none ∧ s.stop0 = false ∧ (∀ c ∈ [planA, planB], chunkLength c ≤ 65535)
    ∧ (∀ c ∈ [planA, planB], known s .chunk (c.type.setWidth 16) = true)
    ∧ bufBytes s s.pos0.toNat (curRemaining s .chunk) = [planA, planB].flatMap chunkBytes := by decide +kernel

theorem witness_DecoderReturnsTheParameters :
    let ps : List ParamImage := [⟨0x0005, [0xC0, 0xA8, 0, 1]⟩, ⟨0x8008, [0xC0, 0xC1]⟩, ⟨0x0005, []⟩]
    let s : State := atParams (ps.flatMap paramBytes)
    s.err.kind = .none ∧ s.stop1 = false ∧ (∀ p ∈ ps, 4 + p.value.length ≤ 65535) ∧ (∀ p ∈ ps, known s .param p.type = true)
    ∧ bufBytes s s.pos1.toNat (curRemaining s .param) = ps.flatMap paramBytes := by decide +kernel

/-- A bare parameter list of 64 bytes fills the buffer. -/
theorem witness_DecoderReturnsTheParameters_encoded :
    let ps : List ParamImage := [⟨0x0005, [0xC0, 0xA8, 0]⟩, ⟨0x8008, []⟩, ⟨0x0005, List.replicate 48 1⟩]
    let s : State := { faulted with pknown := knowsParams, pending := encodeParamList ps ++ [issue .start] ++ [] }
    Inv s ∧ (∀ p ∈ ps, 4 + p.value.length ≤ 65535) ∧ (ps.flatMap paramBytes).length = s.maxPacket
    ∧ (∀ p ∈ ps, known s .param p.type = true) ∧ s.pending = encodeParamList ps ++ [issue .start] ++ [] :=
  ⟨inv_of_meets (by decide +kernel), by decide +kernel, by decide +kernel, by decide +kernel, rfl⟩

theorem witness_EncodedChunksDecode :
    let s : State := { faulted with
      cknown := knows04, pknown := knowsParams,
      pending := setLen 0 :: ([planA, planB].flatMap chunkCommands ++ [Instr.start]).map issue ++ [] }
    Inv s ∧ (∀ c ∈ [planA, planB], chunkLength c ≤ 65535) ∧ ([planA, planB].flatMap chunkBytes).length ≤ s.maxPacket
    ∧ (∀ c ∈ [planA, planB], known s .chunk (c.type.setWidth 16) = true)
    ∧ s.pending = setLen 0 :: ([planA, planB].flatMap chunkCommands ++ [Instr.start]).map issue ++ []
    ∧ (∀ c ∈ [planA, planB], ∀ p ∈ c.params, known s .param p.type = true) :=
  ⟨inv_of_meets (by decide +kernel), by decide +kernel, by decide +kernel, by decide +kernel, rfl, by decide +kernel⟩

/-- A packet of 12 bytes, the shortest, and one of 64, which fills the buffer. -/
theorem witness_LoadedPacketDecodes :
    let s : State := { faulted with pending := decodePacketStart docHeader ++ [] }
    Inv s ∧ docHeader.length = 12 ∧ docHeader.length ≤ s.maxPacket ∧ s.pending = decodePacketStart docHeader ++ []
      ∧ (List.replicate 64 (0 : Byte)).length = s.maxPacket :=
  ⟨inv_of_meets (by decide +kernel), rfl, by decide, rfl, by decide⟩

theorem witness_PacketRoundTrip :
    let s : State := { faulted with
      cknown := knows04,
      pending := encodePacket 0x1388 0x1389 0xDEADBEEF [planA, planB] ++ [Instr.start, .hdrDec, .csumVerify].map issue ++ [] }
    Inv s ∧ (∀ c ∈ [planA, planB], chunkLength c ≤ 65535) ∧ 12 + ([planA, planB].flatMap chunkBytes).length ≤ s.maxPacket
    ∧ (∀ c ∈ [planA, planB], known s .chunk (c.type.setWidth 16) = true)
    ∧ s.pending = encodePacket 0x1388 0x1389 0xDEADBEEF [planA, planB] ++ [Instr.start, .hdrDec, .csumVerify].map issue ++ [] :=
  ⟨inv_of_meets (by decide +kernel), by decide +kernel, by decide +kernel, by decide +kernel, rfl⟩

/-- The reserved offsets at both ends of each gap, a read-only register, and the registry's last entry and first reserved offset on
units with 16 entries and with 2. -/
theorem witness_RegistersFollowTheMap :
    (∀ n ∈ [28, 31, 40, 47], (28 ≤ (BitVec.ofNat 6 n).toNat ∧ (BitVec.ofNat 6 n).toNat < 32)
      ∨ (40 ≤ (BitVec.ofNat 6 n).toNat ∧ (BitVec.ofNat 6 n).toNat < 48))
    ∧ (15 < (holding []).nPreg ∧ (holding []).pknown[15]? = some 0)
    ∧ (1 < twoEntries.nPreg ∧ twoEntries.pknown[1]? = some 0 ∧ 48 + twoEntries.nPreg = (50 : BitVec 6).toNat)
    ∧ ∀ n ∈ [2, 5, 7, 12, 16, 31, 40, 47, 50, 63], (BitVec.ofNat 6 n).toNat ∉ [0, 1, 6, 13, 14, 15]
      ∧ ¬ (32 ≤ (BitVec.ofNat 6 n).toNat ∧ (BitVec.ofNat 6 n).toNat < 40)
      ∧ ¬ (48 ≤ (BitVec.ofNat 6 n).toNat ∧ (BitVec.ofNat 6 n).toNat < 48 + twoEntries.nPreg) := by decide

theorem witness_LenChangesAsItsRuleSays_write : (64 : Word).toNat = (holding []).maxPacket ∧ (holding []).maxPacket < (65 : Word).toNat
    ∧ (holding []).err.kind = .none ∧ faulted.maxPacket < (65 : Word).toNat ∧ faulted.err.kind ≠ .none := by decide

theorem witness_HostBufferAccess : Memory.within (holding docHeader).maxPacket (holding docHeader).buf = true
    ∧ 63 < (holding docHeader).maxPacket ∧ (holding docHeader).maxPacket ≤ 64 := by decide

theorem witness_ResetLeavesTheResetValues : { inChunk with pending := [.reset] }.pending = .reset :: [] := by decide

theorem witness_ResetMakesTheBufferFreeAgain : { inChunk with pending := [.reset] }.pending = .reset :: [] ∧ 63 < inChunk.maxPacket := by
  decide

theorem witness_EveryStepKeepsTheInvariant : ∃ t, Inv (issuing 0x30000000 (atBody bodyT0))
    ∧ step (issuing 0x30000000 (atBody bodyT0)) = .next t ∧ t.res0 = .frame :=
  ⟨_, inv_of_meets (by decide +kernel), rfl, by decide +kernel⟩

/-- Two states that differ in the byte at `LEN`. -/
theorem witness_NoCommandReadsBeyondLen : ∃ s' t', Inv (holding docHeader)
    ∧ AgreeBelowLen (holding docHeader) (bufWrite 12 [0x77] (holding docHeader))
    ∧ bufWrite 12 [0x77] (holding docHeader) ≠ holding docHeader
    ∧ exec .csumVerify (holding docHeader) = .next s' ∧ exec .csumVerify (bufWrite 12 [0x77] (holding docHeader)) = .next t' :=
  ⟨_, _, inv_of_meets (by decide +kernel),
    ⟨rfl, fun a ha => bufRead_bufWrite_outside (.inl (show a < 12 from ha))⟩, by decide +kernel, rfl, rfl⟩

theorem witness_CommandsWriteOnlyTheirBytes : ∃ t, Inv chunkOpen ∧ exec .chkClose chunkOpen = .next t ∧ t.err.kind = .none
    ∧ mayWrite .chkClose chunkOpen t 3 ∧ mayWrite .chkClose chunkOpen t 7 ∧ ¬ mayWrite .chkClose chunkOpen t 8 :=
  ⟨_, inv_of_meets (by decide +kernel), rfl, by decide +kernel, .inr (.inr (by decide)), .inl (by decide +kernel),
    by rintro (h | h | h) <;> revert h <;> decide +kernel⟩

theorem witness_CommandsWriteOnlyTheirBytes_fault : ∃ t, Inv chunkOpen ∧ exec .prmClose chunkOpen = .next t ∧ t.err.kind ≠ .none :=
  ⟨_, inv_of_meets (by decide +kernel), rfl, by decide +kernel⟩

theorem witness_CommandsKeepTheConfiguration : ∃ t u, exec .chkNext (atBody bodyT0) = .next t
    ∧ step { inChunk with pending := [.reset] } = .next u := ⟨_, _, rfl, rfl⟩

theorem witness_CursorsMoveOnlyByTheirCommands : ∃ t u, exec (.prmEnter 2) inChunk = .next t ∧ exec .prmNext inChunk = .next u
    ∧ (.prmNext : Instr) ∉ [.start, .hdrDec, .chkNext] ∧ (.prmEnter 2 : Instr) ∉ [.start, .hdrDec, .chkNext]
    ∧ (.chkNext : Instr) ∉ [.start, .prmNext] ∧ (∀ k, (.chkNext : Instr) ≠ .prmEnter k) :=
  ⟨_, _, rfl, rfl, by decide, by decide, by decide, (fun _ h => nomatch h)⟩

theorem witness_CursorsOnlyMoveForward : ∃ t, Inv (atBody bodyT0) ∧ exec .chkNext (atBody bodyT0) = .next t
    ∧ (.chkNext : Instr) ≠ .start ∧ (∀ k, (.chkNext : Instr) ≠ .prmEnter k) :=
  ⟨_, inv_of_meets (by decide +kernel), rfl, by decide, (fun _ h => nomatch h)⟩

theorem witness_LenChangesAsItsRuleSays_commands : ∃ t, Inv inChunk ∧ exec .chkNext inChunk = .next t
    ∧ (.chkNext : Instr) ∉ [.hdrEnc, .chkClose, .prmClose] ∧ (∀ b, (.chkNext : Instr) ≠ .bufPut b)
    ∧ (∀ a b, (.chkNext : Instr) ≠ .chkOpen a b) ∧ (∀ a, (.chkNext : Instr) ≠ .prmOpen a) :=
  ⟨_, inv_of_meets (by decide +kernel), rfl, by decide, (fun _ h => nomatch h), (fun _ _ h => nomatch h), (fun _ h => nomatch h)⟩

/-- Two states with the same inputs of a call and nothing else in common. -/
theorem witness_DecodeCallDependsOnItsInputsOnly :
    (∀ i ∈ [Instr.hdrDec, .csumVerify, .chkNext, .valU32 .chunk 1], decodeCommand i = true) ∧ Inv (atBody bodyT0)
    ∧ SameCallInputs (atBody bodyT0) { inChunk with crcAcc := 5, maxPacket := 100, copen := true, val := 9 } :=
  ⟨by decide, inv_of_meets (by decide +kernel), rfl, fun a ha => by
    have : a < 24 := ha
    revert a; decide +kernel, rfl, rfl, rfl⟩

end Sys2Proof.Tests
end

section
/-! Proofs of the statements of 00_scope.md: the padding function (rule R6). -/

namespace Sys2Proof.Machine

/-- The two properties of `pad_spec` determine the padding: it is the only number below 4 that completes the word. -/
theorem pad_eq_iff {l k : Nat} : pad l = k ↔ k ≤ 3 ∧ (l + k) % 4 = 0 := by
  obtain ⟨hle, hmod⟩ := pad_spec l
  constructor
  · rintro rfl
    exact ⟨hle, hmod⟩
  · omega

/-- Settles O25: each value of the table is below 4 and completes a word of its residue, so it is the padding. -/
theorem paddingCompletesTheWord : Obligations.PaddingCompletesTheWord := by
  intro l
  obtain ⟨hle, hmod⟩ := pad_spec l
  refine ⟨hmod, hle, ?_⟩
  split_ifs <;> exact pad_eq_iff.2 (by omega)

end Sys2Proof.Machine
end

section
/-! Proofs of the statements of 10_state.md: the reset table (rule R28) and how `LEN` changes (rule R17). -/

namespace Sys2Proof.Machine

/-! ## The reset -/

/-- R130: a step that takes a reset applies it, whatever the state. -/
theorem step_reset {s : State} {rest : List HostAccess} (h : s.pending = .reset :: rest) :
    step s = .next (hostReset { s with pending := rest }) := step_cons h

/-! The packed registers and the configuration arrays after a reset; every other register is a field that `hostReset` writes. -/

theorem statusWord_hostReset (s : State) : statusWord (hostReset s) = 0 := (by decide : statusWord State.reset = 0)

theorem errWord_hostReset (s : State) : errWord (hostReset s) = 0 := (by decide : errWord State.reset = 0)

theorem cfHdrWord_hostReset (s : State) : cfHdrWord (hostReset s) = 0 := (by decide : cfHdrWord State.reset = 0)

theorem pfHdrWord_hostReset (s : State) : pfHdrWord (hostReset s) = 0 := (by decide : pfHdrWord State.reset = 0)

theorem cknown_hostReset (s : State) (i : Fin 8) : (hostReset s).cknown[i] = 0 := Vector.getElem_replicate i.isLt

theorem pknown_hostReset (s : State) : (hostReset s).pknown = List.replicate s.nPreg 0 := rfl

/-- Settles O51: the step is `hostReset`, which writes each plain register with 0; the packed words and the arrays have their
lemmas. -/
theorem resetLeavesTheResetValues : Obligations.ResetLeavesTheResetValues := by
  intro s rest h
  exact ⟨_, step_reset h, rfl, rfl, rfl, rfl, rfl, rfl, rfl, rfl, rfl, rfl, rfl, rfl, rfl, rfl, statusWord_hostReset _,
    errWord_hostReset _, rfl, rfl, cfHdrWord_hostReset _, rfl, rfl, pfHdrWord_hostReset _, rfl, rfl, rfl,
    cknown_hostReset _, pknown_hostReset _⟩

/-! ## What the shared operations do to `LEN` -/

/-- R17: slot 6 is `LEN`, and writing it is `writeLen`. -/
theorem takeAccess_write_len (v : Word) (s : State) : takeAccess (.regWrite 6 v) s = .next (writeLen v s) := rfl

/-- A refused or faulted command leaves `LEN` alone, so `LEN` after a command is `LEN` before it or what its rule leaves. -/
theorem command_len {P : Word → Prop} {rule : State → Effect} {s t : State} (h : command rule s = .next t) (hs : P s.len)
    (hrule : ∀ u, rule s = .ok u → P u.len) : P t.len := by
  obtain ⟨-, rfl⟩ | ⟨-, e, -, rfl⟩ | ⟨-, hr⟩ := command_next h
  · exact hs
  · exact hs
  · exact hrule t hr

theorem command_keeps_len {rule : State → Effect} {s t : State} (h : command rule s = .next t)
    (hrule : ∀ u, rule s = .ok u → u.len = s.len) : t.len = s.len :=
  command_len (P := (· = s.len)) h rfl hrule

theorem command_grows_len {rule : State → Effect} {s t : State} (h : command rule s = .next t)
    (hrule : ∀ u, rule s = .ok u → s.len.toNat ≤ u.len.toNat) : s.len.toNat ≤ t.len.toNat :=
  command_len (P := (s.len.toNat ≤ ·.toNat)) h le_rfl hrule

/-- R5: a rule that completes has passed its `require`. -/
theorem require_eq_ok {c : Prop} [Decidable c] {e : Trap} {r : Effect} {u : State}
    (h : (if c then .error e else r) = Except.ok u) : ¬ c ∧ r = .ok u := by
  split at h
  · cases h
  · next hc => exact ⟨hc, h⟩

/-- An append that fits does not wrap `LEN`, as `MAX_PACKET` is below `2^31`. -/
theorem pushBytes_len_toNat {bytes : List Byte} {s : State} (hcap : s.maxPacket ≤ 2 ^ 31 - 1)
    (hfit : s.len.toNat + bytes.length ≤ s.maxPacket) : (pushBytes bytes s).len.toNat = s.len.toNat + bytes.length := by
  rw [pushBytes_len, BitVec.toNat_ofNat, Nat.mod_eq_of_lt (by omega)]

theorem patchAndPad_len_toNat {start l : Nat} {s : State} (hcap : s.maxPacket ≤ 2 ^ 31 - 1)
    (hfit : s.len.toNat + pad l ≤ s.maxPacket) : (patchAndPad start l s).len.toNat = s.len.toNat + pad l := by
  rw [patchAndPad_len, BitVec.toNat_ofNat, Nat.mod_eq_of_lt (by omega)]

theorem appendThen_grows_len {bytes : List Byte} {done : State → State} {s u : State} (hcap : s.maxPacket ≤ 2 ^ 31 - 1)
    (h : appendThen bytes done s = .ok u) (hdone : ∀ t, (done t).len = t.len) : s.len.toNat ≤ u.len.toNat := by
  rw [appendThen_eq] at h
  split at h
  · next hfit =>
    cases h
    rw [hdone, pushBytes_len_toNat hcap hfit]
    exact Nat.le_add_right _ _
  · cases h

theorem closeFrame_grows_len {start : Word} {done : State → State} {s u : State} (hcap : s.maxPacket ≤ 2 ^ 31 - 1)
    (h : closeFrame start done s = .ok u) (hdone : ∀ t, (done t).len = t.len) : s.len.toNat ≤ u.len.toNat := by
  rw [closeFrame_eq] at h
  split at h
  · cases h
  · split at h
    · next hfit =>
      cases h
      rw [hdone, patchAndPad_len_toNat hcap hfit]
      exact Nat.le_add_right _ _
    · cases h

/-! ## The decoding commands keep `LEN` -/

@[simp] theorem endWalk_len (s : State) (lv : Level) : (endWalk s lv).len = s.len := by simp [endWalk]

@[simp] theorem returnFrame_len (s : State) (lv : Level) (ty : Half) (fl : Byte) (ln : Half) (vo : Word) (vl : Half) (nx : Word)
    (kn : Bool) : (returnFrame s lv ty fl ln vo vl nx kn).len = s.len := by simp [returnFrame]

@[simp] theorem nextFrame_len (lv : Level) (s : State) : (nextFrame lv s).len = s.len := by
  refine nextFrame_induct (P := fun s t => t.len = s.len) (fun s t h => ?stop) (fun s t u h htu => ?skip) s
  case stop =>
    obtain rfl | ⟨-, _, _, _, -, rfl⟩ | ⟨-, _, _, _, _, _, _, -, rfl | ⟨-, -, rfl⟩ | ⟨-, -, rfl⟩⟩ := framePass_stop h <;> simp
  case skip =>
    obtain ⟨-, _, _, _, _, _, _, -, -, -, rfl⟩ := framePass_skip h
    simpa using htu

theorem extractField_keeps_len {i : Instr} {lv : Level} {off : Half} {n : Nat} {value : Word} {s u : State}
    (h : extractField i lv off n value s = .ok u) : u.len = s.len := by
  rw [extractField_eq] at h
  split at h
  · split at h <;> cases h
    rfl
  · cases h

theorem curRead_keeps_len {lv : Level} {n a : Nat} {s t : State} (h : curRead lv n s = some (a, t)) : t.len = s.len := by
  obtain ⟨-, -, rfl⟩ := curRead_some h
  simp

/-! ## The commands and `LEN` -/

/-- R17: the six appending commands, the only ones that may change `LEN`. -/
def appends : Instr → Bool
  | .hdrEnc | .bufPut _ | .chkOpen _ _ | .chkClose | .prmOpen _ | .prmClose => true
  | _ => false

theorem appends_eq_false {i : Instr} (hfixed : i ∉ [.hdrEnc, .chkClose, .prmClose]) (hput : ∀ b, i ≠ .bufPut b)
    (hchk : ∀ a b, i ≠ .chkOpen a b) (hprm : ∀ a, i ≠ .prmOpen a) : appends i = false := by
  cases i with
  | bufPut b => exact absurd rfl (hput b)
  | chkOpen a b => exact absurd rfl (hchk a b)
  | prmOpen a => exact absurd rfl (hprm a)
  | hdrEnc | chkClose | prmClose => simp at hfixed
  | _ => rfl

/-- Per command outside the six: its rule writes other registers and keeps `LEN`. -/
theorem exec_keeps_len {i : Instr} {s t : State} (hi : appends i = false) (h : exec i s = .next t) : t.len = s.len := by
  cases i with
  | nop | start => cases h; rfl
  | crcInit | crcByte | crcFin | chkNext | prmNext =>
    simp only [exec, execCrcInit, execCrcByte, execCrcFin, execChkNext, execPrmNext] at h
    refine command_keeps_len h fun u hu => ?_
    cases hu
    simp
  | hdrDec =>
    simp only [exec, execHdrDec] at h
    refine command_keeps_len h fun u hu => ?_
    obtain ⟨-, hu⟩ := require_eq_ok hu
    split at hu
    · cases hu
    · next hread => cases hu; simpa using curRead_keeps_len hread
  | csumVerify =>
    simp only [exec, execCsumVerify] at h
    refine command_keeps_len h fun u hu => ?_
    cases (require_eq_ok hu).2
    simp
  | csumPatch | prmEnter =>
    simp only [exec, execCsumPatch, execPrmEnter] at h
    refine command_keeps_len h fun u hu => ?_
    cases (require_eq_ok (require_eq_ok hu).2).2
    simp
  | valU8 | valU16 | valU32 => exact command_keeps_len h fun u => extractField_keeps_len
  | valReject | valBadlen =>
    refine command_keeps_len h fun u hu => ?_
    obtain ⟨e, he⟩ := rejectValue_error _ _ _ _ s
    cases he.symm.trans hu
  | hdrEnc | bufPut | chkOpen | chkClose | prmOpen | prmClose => cases hi

/-- Per appending command: its rule is an append that fits, or `CloseFrame`, or (`HDR.ENC`) begins at `LEN = 0`. -/
theorem exec_grows_len {i : Instr} {s t : State} (hcap : s.maxPacket ≤ 2 ^ 31 - 1) (hi : appends i = true)
    (h : exec i s = .next t) : s.len.toNat ≤ t.len.toNat := by
  cases i with
  | hdrEnc =>
    simp only [exec, execHdrEnc] at h
    refine command_grows_len h fun u hu => ?_
    obtain ⟨hlen, -⟩ := require_eq_ok hu
    simp [not_not.1 hlen]
  | bufPut =>
    simp only [exec, execBufPut] at h
    exact command_grows_len h fun u hu => appendThen_grows_len hcap hu fun _ => rfl
  | chkOpen | prmOpen =>
    simp only [exec, execChkOpen, execPrmOpen] at h
    exact command_grows_len h fun u hu => appendThen_grows_len hcap (require_eq_ok hu).2 fun _ => rfl
  | chkClose | prmClose =>
    simp only [exec, execChkClose, execPrmClose] at h
    exact command_grows_len h fun u hu => closeFrame_grows_len hcap (require_eq_ok hu).2 fun _ => rfl
  | _ => cases hi

/-- Settles O48: a host write is `writeLen`; a command appends, which cannot wrap under R3's bound, or keeps `LEN`. -/
theorem lenChangesAsItsRuleSays : Obligations.LenChangesAsItsRuleSays := by
  refine ⟨fun s v => ?write, fun i s t hs h => ?command, fun s rest h => ⟨_, step_reset h, rfl⟩⟩
  case write =>
    rw [takeAccess_write_len, writeLen_eq]
    refine ⟨fun hle => ?_, fun hlt hk => ?_, fun hlt hk => ?_⟩
    · rw [if_pos hle]
    · rw [if_neg (by omega), if_pos hk]
    · rw [if_neg (by omega), if_neg hk]
  case command =>
    constructor
    · cases hi : appends i with
      | false => rw [exec_keeps_len hi h]
      | true => exact exec_grows_len hs.capacity.2 hi h
    · intro hfixed hput hchk hprm
      exact exec_keeps_len (appends_eq_false hfixed hput hchk hprm) h

end Sys2Proof.Machine
end

section
/-! Proofs of the statements of 20_memory.md: the host's access to the buffer (rule R32) and to the register map (rule R31). -/

namespace Sys2Proof.Machine

/-! ## The buffer -/

/-- R11: a buffer with no byte at or above its capacity lists nothing there. -/
theorem Memory.lookup_eq_none_of_within {cap a : Nat} {m : Memory} (hm : Memory.within cap m = true) (ha : cap ≤ a) :
    Memory.lookup m a = none := by
  induction m with
  | nil => rfl
  | cons c m ih =>
    simp only [Memory.within, List.all_cons, Bool.and_eq_true, decide_eq_true_eq] at hm ih
    obtain ⟨hc, hm⟩ := hm
    rw [Memory.lookup, if_neg (by omega), ih hm]

theorem bufRead_eq_zero {s : State} {a : Nat} (hs : Memory.within s.maxPacket s.buf = true) (ha : s.maxPacket ≤ a) :
    bufRead s a = 0 := by
  rw [bufRead, Memory.lookup_eq_none_of_within hs ha]
  exact if_neg (by omega)

theorem Memory.put_eq_self {cap a : Nat} (m : Memory) (b : Byte) (ha : cap ≤ a) : Memory.put cap m a b = m :=
  if_neg (by omega)

theorem bufWrite_byte_eq_self {s : State} {a : Nat} (b : Byte) (ha : s.maxPacket ≤ a) : bufWrite a [b] s = s := by
  rw [bufWrite, Memory.putRun, Memory.put_eq_self _ _ ha, Memory.putRun]

/-- Settles O49: the write is a run of one byte, so the byte lies inside the run and every other offset outside it; at or above
`MAX_PACKET` the run writes nothing and, by R11, nothing is listed. -/
theorem hostBufferAccess : Obligations.HostBufferAccess := by
  intro s o b hs
  refine ⟨⟨bufWrite o [b] s, rfl, rfl, fun ho => ?inside, fun a ha => ?outside⟩,
    fun ho => ⟨?ignored, bufRead_eq_zero hs ho⟩, rfl⟩
  case inside =>
    rw [bufRead_bufWrite_inside le_rfl (Nat.lt_succ_self o) ho]
    simp
  case outside =>
    exact bufRead_bufWrite_outside (by rw [List.length_singleton]; omega)
  case ignored =>
    exact congrArg Host.Outcome.next (bufWrite_byte_eq_self b ho)

/-! ## The register map (10_state.md rule R13) -/

theorem regAt_fixed {n : Nat} {slot : BitVec 6} (h : slot.toNat < 28) : regAt n slot = fixedRegs[slot.toNat]? := if_pos h

theorem regAt_cknown (n : Nat) (i : Fin 8) : regAt n (BitVec.ofNat 6 (32 + i)) = some (.cknown i) := by
  have hslot : (BitVec.ofNat 6 (32 + i)).toNat = 32 + i := by rw [BitVec.toNat_ofNat]; omega
  unfold regAt
  rw [if_neg (by omega), dif_pos (by omega)]
  simp [hslot]

theorem regAt_pknown_slot {n i : Nat} (hn : i < n) (hi : i < 16) :
    regAt n (BitVec.ofNat 6 (48 + i)) = some (.pknown ⟨i, hi⟩) :=
  regAt_pknown.2 ⟨by rw [BitVec.toNat_ofNat]; exact Nat.mod_eq_of_lt (by omega), hn⟩

/-- R13: the reserved offsets are what lies behind the fixed registers and outside the two arrays. -/
theorem regAt_eq_none {n : Nat} {slot : BitVec 6} (hfixed : 28 ≤ slot.toNat) (hck : ¬ (32 ≤ slot.toNat ∧ slot.toNat < 40))
    (hpk : ¬ (48 ≤ slot.toNat ∧ slot.toNat < 48 + n)) : regAt n slot = none := by
  unfold regAt
  rw [if_neg (by omega), dif_neg hck, dif_neg hpk]

/-! ## Register reads -/

theorem hostRegRead_eq_elim (slot : BitVec 6) (s : State) :
    hostRegRead slot s = (regAt s.nPreg slot).elim 0 (readReg s) := by
  unfold hostRegRead
  split <;> simp [*]

theorem hostRegRead_reg {slot : BitVec 6} {s : State} {r : Reg} (h : regAt s.nPreg slot = some r) :
    hostRegRead slot s = readReg s r := by rw [hostRegRead_eq_elim, h, Option.elim_some]

theorem hostRegRead_reserved {slot : BitVec 6} {s : State} (h : regAt s.nPreg slot = none) : hostRegRead slot s = 0 := by
  rw [hostRegRead_eq_elim, h, Option.elim_none]

/-- A stretch of the map reads as the registers at its slots. -/
theorem map_hostRegRead {s : State} {slots : List (BitVec 6)} (regs : List Reg)
    (h : slots.map (regAt s.nPreg) = regs.map some) : slots.map (hostRegRead · s) = regs.map (readReg s) := by
  calc slots.map (hostRegRead · s)
      = (slots.map (regAt s.nPreg)).map (·.elim 0 (readReg s)) := by simp [hostRegRead_eq_elim]
    _ = regs.map (readReg s) := by simp [h]

/-- R15: `CTRL` reads as `PAD_TOL` in bit 0. -/
theorem readReg_ctrl (s : State) : readReg s .ctrl = if s.padTol then 1 else 0 := by
  rw [readReg]
  cases s.padTol <;> rfl

theorem readReg_pknown {s : State} {i : Fin 16} {w : BitVec 17} (h : s.pknown[i.val]? = some w) :
    readReg s (.pknown i) = w.setWidth 32 := by rw [readReg, List.getD_eq_getElem?_getD, h, Option.getD_some]

/-! ## Register writes -/

theorem takeAccess_regWrite (slot : BitVec 6) (v : Word) (s : State) :
    takeAccess (.regWrite slot v) s = hostRegWrite slot v s := rfl

theorem takeAccess_write_reg {slot : BitVec 6} {s : State} (r : Reg) (h : regAt s.nPreg slot = some r) (hr : r ≠ .cmd) (v : Word) :
    takeAccess (.regWrite slot v) s = .next (writeReg r v s) := by
  rw [takeAccess_regWrite, hostRegWrite]
  split
  · next hcmd => exact absurd (Option.some.inj (h.symm.trans hcmd)) hr
  · next hreg => rw [Option.some.inj (h.symm.trans hreg)]
  · next hnone => cases h.symm.trans hnone

theorem takeAccess_write_reserved {slot : BitVec 6} {s : State} (h : regAt s.nPreg slot = none) (v : Word) :
    takeAccess (.regWrite slot v) s = .next s := by
  rw [takeAccess_regWrite, hostRegWrite, h]

/-- R31: the registers that no `HostRegWrite` rule names. -/
def Reg.readOnly : Reg → Bool
  | .cmd | .ctrl | .len | .srcPort | .dstPort | .vtag | .cknown _ | .pknown _ => false
  | _ => true

theorem Reg.ne_cmd_of_readOnly {r : Reg} (h : r.readOnly = true) : r ≠ .cmd := by
  rintro rfl
  cases h

theorem writeReg_readOnly {r : Reg} (h : r.readOnly = true) (v : Word) (s : State) : writeReg r v s = s := by
  cases r with
  | cmd | ctrl | len | srcPort | dstPort | vtag | cknown _ | pknown _ => cases h
  | _ => rfl

/-- R13, R31: of the fixed registers, only `CMD`, `CTRL`, `LEN` and the header's two ports and tag can be written. -/
theorem fixedRegs_readOnly : ∀ k : Fin 28, k.val ∉ [0, 1, 6, 13, 14, 15] →
    ∃ r, fixedRegs[k.val]? = some r ∧ r.readOnly = true := by decide

/-- R31: a write anywhere else reaches a read-only register or a reserved offset. -/
theorem takeAccess_write_ignored {slot : BitVec 6} {s : State} (hfixed : slot.toNat ∉ [0, 1, 6, 13, 14, 15])
    (hck : ¬ (32 ≤ slot.toNat ∧ slot.toNat < 40)) (hpk : ¬ (48 ≤ slot.toNat ∧ slot.toNat < 48 + s.nPreg)) (v : Word) :
    takeAccess (.regWrite slot v) s = .next s := by
  by_cases hslot : slot.toNat < 28
  · obtain ⟨r, hr, hro⟩ := fixedRegs_readOnly ⟨slot.toNat, hslot⟩ hfixed
    rw [takeAccess_write_reg r ((regAt_fixed hslot).trans hr) (Reg.ne_cmd_of_readOnly hro), writeReg_readOnly hro]
  · exact takeAccess_write_reserved (regAt_eq_none (by omega) hck hpk) v

/-- Settles O47: each slot of the statement is located on the map; what the access does is then `readReg` or `writeReg` of the
register found, or nothing. -/
theorem registersFollowTheMap : Obligations.RegistersFollowTheMap := by
  intro s
  refine ⟨fun _ => rfl, ?control,
    map_hostRegRead [.pos0, .end0, .pos1, .end1, .remain0, .remain1] rfl,
    map_hostRegRead [.srcPort, .dstPort, .vtag, .cksum, .crcAcc, .crcOut] rfl,
    map_hostRegRead [.cfHdr, .cfVoff, .cfVlen, .pfHdr, .pfVoff, .pfVlen] rfl,
    map_hostRegRead [.val, .cstart, .pstart] rfl,
    fun i => hostRegRead_reg (regAt_cknown s.nPreg i), fun i w hi hw => ?pknownRead, fun slot hslot => ?reservedRead,
    fun v => ?writes, fun slot v hfixed hck hpk => takeAccess_write_ignored hfixed hck hpk v⟩
  case control =>
    rw [← readReg_ctrl]
    exact map_hostRegRead [.cmd, .ctrl, .status, .err, .errInfo, .errType, .len] rfl
  case pknownRead =>
    obtain ⟨hn, -⟩ := List.getElem?_eq_some_iff.1 hw
    rw [hostRegRead_reg (regAt_pknown_slot hn hi), readReg_pknown hw]
  case reservedRead =>
    exact hostRegRead_reserved (regAt_eq_none (by omega) (by omega) (by omega))
  case writes =>
    exact ⟨rfl, takeAccess_write_reg .ctrl rfl nofun v, takeAccess_write_len v s, takeAccess_write_reg .srcPort rfl nofun v,
      takeAccess_write_reg .dstPort rfl nofun v, takeAccess_write_reg .vtag rfl nofun v,
      fun i => takeAccess_write_reg (.cknown i) (regAt_cknown s.nPreg i) nofun v,
      fun i hn hi => takeAccess_write_reg (.pknown ⟨i, hi⟩) (regAt_pknown_slot hn hi) nofun v⟩

end Sys2Proof.Machine
end

section
/-! Proofs of the statements of 30_encoding.md: the decoder against the opcode map (rule R47) and the dispatch of a word written to
`CMD` (rule R48). -/

namespace Sys2Proof

/-! ## The fields of a word and the masks of the opcode map -/

/-- The bits of a word that its field of `len` bits from bit `lo` covers. -/
def fieldMask (lo len : Nat) : Word := (BitVec.allOnes len).setWidth 32 <<< lo

theorem getLsbD_fieldMask (lo len k : Nat) :
    (fieldMask lo len).getLsbD k = (decide (k < 32) && decide (lo ≤ k) && decide (k < lo + len)) := by
  simp only [fieldMask, BitVec.getLsbD_shiftLeft, BitVec.getLsbD_setWidth, BitVec.getLsbD_allOnes]
  grind

/-- A field is 0 when the word has no bit set under the field's mask: bit `lo + j` of the word is bit `j` of the field. -/
theorem extractLsb'_eq_zero_iff {lo len : Nat} {w : Word} : w.extractLsb' lo len = 0 ↔ w &&& fieldMask lo len = 0 := by
  constructor
  · intro hfield
    refine BitVec.eq_of_getLsbD_eq fun k _ => ?_
    have hbit := congrArg (BitVec.getLsbD · (k - lo)) hfield
    grind [getLsbD_fieldMask]
  · intro hmask
    refine BitVec.eq_of_getLsbD_eq fun j _ => ?_
    have hbit := congrArg (BitVec.getLsbD · (lo + j)) hmask
    grind [getLsbD_fieldMask]

theorem and_or_eq_zero_iff {w a b : Word} : w &&& (a ||| b) = 0 ↔ w &&& a = 0 ∧ w &&& b = 0 := by
  rw [BitVec.and_or_distrib_left]
  exact BitVec.or_eq_zero_iff

/-- R45: the fields the decoder requires to be zero are together the bits below `op` that are no operand of the format. -/
theorem reservedZero_iff (f : Format) (w : Word) :
    reservedZero f w = true ↔ w &&& (~~~ f.operandBits &&& fieldMask 0 24) = 0 := by
  cases f <;>
    simp only [reservedZero, a8Field, imm16Field, Bool.and_eq_true, beq_iff_eq, extractLsb'_eq_zero_iff,
      ← and_or_eq_zero_iff] <;> rfl

theorem word_eq_iff {v w : Word} : v = w ↔ opField v = opField w ∧ v.extractLsb' 0 24 = w.extractLsb' 0 24 := by
  have split (u : Word) : u = opField u ++ u.extractLsb' 0 24 := by
    rw [opField, BitVec.extractLsb'_append_extractLsb'_eq_extractLsb' (start₁ := 0) (len₁ := 24) rfl, BitVec.extractLsb'_eq_self]
  constructor
  · rintro rfl
    exact ⟨rfl, rfl⟩
  · rintro ⟨hop, hlow⟩
    rw [split v, split w, hop, hlow]

/-- R45: no operand bit lies in `op`, so a mask keeps the whole of it. -/
theorem opField_and_mask (r : Row) (w : Word) : opField (w &&& r.mask) = opField w := by
  have hmask : r.mask.extractLsb' 24 8 = BitVec.allOnes 8 := by
    rw [Row.mask]
    cases r.format <;> rfl
  rw [opField, BitVec.extractLsb'_and, hmask, BitVec.and_allOnes, opField]

/-- R47 as the decoder computes it: a word matches a row when it has the row's `op` and the must-be-zero bits of its format are 0. -/
theorem and_mask_eq_matchWord_iff {r : Row} {w : Word} :
    w &&& r.mask = r.matchWord ↔ opField w = r.op ∧ reservedZero r.format w = true := by
  have hop : opField r.matchWord = r.op := BitVec.extractLsb'_append_eq_left
  have hlow : r.matchWord.extractLsb' 0 24 = 0 := BitVec.extractLsb'_append_eq_right
  rw [word_eq_iff, opField_and_mask, hop, hlow, extractLsb'_eq_zero_iff, BitVec.and_assoc, reservedZero_iff, Row.mask]

/-! ## The decoder and the opcode map -/

theorem accept_eq_ok_iff {f : Format} {w : Word} {i j : Instr} : accept f w i = .ok j ↔ reservedZero f w = true ∧ i = j := by
  unfold accept
  split <;> simp [*]

/-- What a word's decoding comes to: the check of the must-be-zero bits for the row that has the word's `op`, or the refusal of an
`op` that no row has. -/
def DecodedByRow (w : Word) (d : Except Illegal Instr) : Prop :=
  (∃ r ∈ opcodeMap, ∃ i : Instr, opField w = r.op ∧ i.mnemonic = r.mnemonic ∧ d = accept r.format w i)
    ∨ d = .error .unusedOp ∧ ∀ r ∈ opcodeMap, opField w ≠ r.op

/-- The decoder goes through the 22 rows one by one; past the last one, the word's `op` is none of theirs. -/
theorem decode_decodedByRow (w : Word) : DecodedByRow w (decode w) := by
  iterate 22
    refine iteInduction (motive := DecodedByRow w)
      (fun hop => .inl ⟨⟨_, _, _⟩, by simp [opcodeMap], _, hop, rfl, rfl⟩) fun _ => ?_
  refine .inr ⟨rfl, ?_⟩
  simp only [opcodeMap, List.forall_mem_cons, List.not_mem_nil, false_imp_iff, implies_true, and_true]
  and_intros <;> assumption

theorem row_eq_of_op_eq : ∀ r ∈ opcodeMap, ∀ r' ∈ opcodeMap, r.op = r'.op → r = r' := by decide

theorem row_eq_of_mnemonic_eq : ∀ r ∈ opcodeMap, ∀ r' ∈ opcodeMap, r.mnemonic = r'.mnemonic → r = r' := by decide

/-- A word that decodes matches the row of its command. -/
theorem exists_row_of_decode_ok {w : Word} {i : Instr} (h : decode w = .ok i) :
    ∃ r ∈ opcodeMap, i.mnemonic = r.mnemonic ∧ w &&& r.mask = r.matchWord := by
  obtain ⟨r, hr, j, hop, hname, hd⟩ | ⟨hd, -⟩ := decode_decodedByRow w
  · obtain ⟨hzero, rfl⟩ := accept_eq_ok_iff.1 (hd.symm.trans h)
    exact ⟨r, hr, hname, and_mask_eq_matchWord_iff.2 ⟨hop, hzero⟩⟩
  · cases hd.symm.trans h

/-- A word that matches a row decodes to a command of that row: the only row with its `op`. -/
theorem exists_decode_ok_of_row {w : Word} {r : Row} (hr : r ∈ opcodeMap) (h : w &&& r.mask = r.matchWord) :
    ∃ i, decode w = .ok i ∧ i.mnemonic = r.mnemonic := by
  obtain ⟨hop, hzero⟩ := and_mask_eq_matchWord_iff.1 h
  obtain ⟨r', hr', i, hop', hname, hd⟩ | ⟨-, hnone⟩ := decode_decodedByRow w
  · obtain rfl := row_eq_of_op_eq r hr r' hr' (hop.symm.trans hop')
    exact ⟨i, hd.trans (accept_eq_ok_iff.2 ⟨hzero, rfl⟩), hname⟩
  · exact absurd hop (hnone r hr)

/-- R48: the illegal words are those that match no row. -/
theorem decode_error_iff {w : Word} : (∃ e, decode w = .error e) ↔ ∀ r ∈ opcodeMap, w &&& r.mask ≠ r.matchWord := by
  constructor
  · rintro ⟨e, he⟩ r hr hmatch
    obtain ⟨i, hi, -⟩ := exists_decode_ok_of_row hr hmatch
    cases he.symm.trans hi
  · intro hnone
    cases hd : decode w with
    | error e => exact ⟨e, rfl⟩
    | ok i =>
      obtain ⟨r, hr, -, hmatch⟩ := exists_row_of_decode_ok hd
      exact absurd hmatch (hnone r hr)

theorem legalWord_eq_false_iff {w : Word} : legalWord w = false ↔ ∃ e, decode w = .error e := by
  simp [decode_error_iff, legalWord, Row.accepts]

/-- Settles O3: a matching word has its row's `op`, which finds the row; and a mnemonic stands in one row only. -/
theorem decodeFollowsTheOpcodeMap : Obligations.DecodeFollowsTheOpcodeMap := by
  refine ⟨fun w r hr => ⟨exists_decode_ok_of_row hr, ?_⟩, fun w => decode_error_iff⟩
  rintro ⟨i, hi, hname⟩
  obtain ⟨r', hr', hname', hmatch⟩ := exists_row_of_decode_ok hi
  obtain rfl := row_eq_of_mnemonic_eq r hr r' hr' (hname.symm.trans hname')
  exact hmatch

end Sys2Proof

namespace Sys2Proof.Machine

/-! ## The dispatch of a word written to `CMD` -/

/-- R31: slot 0 is `CMD`, and writing it executes the word. -/
theorem step_write_cmd {s : State} {w : Word} {rest : List HostAccess} (h : s.pending = .regWrite 0 w :: rest) :
    step s = executeWord w { s with pending := rest } := step_cons h

theorem executeWord_of_ok {w : Word} {i : Instr} (h : decode w = .ok i) (s : State) : executeWord w s = exec i s := by
  rw [executeWord, h]

theorem executeWord_of_error {w : Word} {e : Illegal} (h : decode w = .error e) (s : State) :
    executeWord w s = .next (fatalUnlessFatal ⟨.illegalCommand, .illegalEncoding, w, 0⟩ s) := by
  rw [executeWord, h]

theorem fatalUnlessFatal_of_fatal {s : State} (h : s.err.kind ≠ .none) (t : Trap) : fatalUnlessFatal t s = s :=
  if_pos (isFatal_iff.2 h)

theorem fatalUnlessFatal_of_not_fatal {s : State} (h : s.err.kind = .none) (t : Trap) : fatalUnlessFatal t s = fatal t s := by
  rw [fatalUnlessFatal, isFatal_false_iff.2 h, if_neg Bool.false_ne_true]

/-- R48 step 4: all commands but `NOP` and `START` go through `command`. -/
theorem exec_eq_command {i : Instr} (hnop : i ≠ .nop) (hstart : i ≠ .start) : ∃ rule, exec i = command rule := by
  cases i with
  | nop => exact absurd rfl hnop
  | start => exact absurd rfl hstart
  | _ => exact ⟨_, rfl⟩

theorem exec_of_fatal {i : Instr} {s : State} (hnop : i ≠ .nop) (hstart : i ≠ .start) (h : s.err.kind ≠ .none) :
    exec i s = .next s := by
  obtain ⟨rule, hrule⟩ := exec_eq_command hnop hstart
  rw [hrule, command_fatal h]

theorem executeWord_of_fatal {w : Word} {s : State} (hnop : decode w ≠ .ok .nop) (hstart : decode w ≠ .ok .start)
    (h : s.err.kind ≠ .none) : executeWord w s = .next s := by
  cases hd : decode w with
  | error e => rw [executeWord_of_error hd, fatalUnlessFatal_of_fatal h]
  | ok i =>
    rw [executeWord_of_ok hd]
    exact exec_of_fatal (fun hi => hnop (hi ▸ hd)) (fun hi => hstart (hi ▸ hd)) h

theorem executeWord_of_illegal {w : Word} {s : State} (hill : legalWord w = false) (h : s.err.kind = .none) :
    executeWord w s = .next (fatal ⟨.illegalCommand, .illegalEncoding, w, 0⟩ s) := by
  obtain ⟨e, he⟩ := legalWord_eq_false_iff.1 hill
  rw [executeWord_of_error he, fatalUnlessFatal_of_not_fatal h]

/-- Settles O7: the step is `executeWord`, whose cases are the word's decoding and the FATAL condition. -/
theorem dispatchOrderOfACommandWord : Obligations.DispatchOrderOfACommandWord := by
  intro s w rest hpending
  rw [step_write_cmd hpending]
  exact ⟨fun hnop => executeWord_of_ok hnop _, fun hstart => executeWord_of_ok hstart _,
    fun hnop hstart hfatal => executeWord_of_fatal hnop hstart hfatal, fun hk hill => executeWord_of_illegal hill hk,
    fun i _ hi => executeWord_of_ok hi _⟩

end Sys2Proof.Machine
end

section
/-! Proofs of the statements of 40_control_cursor.md: the control commands `NOP` (rule R53) and `START` (rule R54). -/

namespace Sys2Proof

/-- R45: format N has no operand bits, so the must-be-zero bits of its words are all those below `op`. -/
theorem reservedZero_n_iff {w : Word} : reservedZero .n w = true ↔ w.extractLsb' 0 24 = 0 := by
  rw [reservedZero_iff, extractLsb'_eq_zero_iff]
  rfl

/-- R48: the decoding of the words with the `op` of `NOP`; only the word 0 is legal. -/
theorem decode_of_opField_eq_zero {w : Word} (h : opField w = 0) :
    decode w = if w = 0 then .ok .nop else .error .mustBeZero := by
  have hzero : reservedZero .n w = true ↔ w = 0 := by
    rw [reservedZero_n_iff, word_eq_iff]
    exact ⟨fun hlow => ⟨h, hlow⟩, And.right⟩
  calc decode w = accept .n w .nop := if_pos h
    _ = if w = 0 then .ok .nop else .error .mustBeZero := if_congr hzero rfl rfl

end Sys2Proof

namespace Sys2Proof.Machine

/-! The two commands do not go through `command`: they have no refusal while FATAL. -/

theorem exec_nop (s : State) : exec .nop s = .next s := rfl

theorem exec_start (s : State) : exec .start s = .next (startActions s) := rfl

/-- Settles O14: a word with `op` 0 decodes by `decode_of_opField_eq_zero`. -/
theorem nopChangesNothing : Obligations.NopChangesNothing := by
  refine ⟨exec_nop, rfl, fun w hop hw => ⟨.mustBeZero, ?_⟩⟩
  rw [decode_of_opField_eq_zero hop, if_neg hw]

/-- Settles O15: `START` and, by R17's cases (`lenChangesAsItsRuleSays`), a legal `LEN` write both come to `startActions`, whose
fields the statement writes out. -/
theorem startBeginsACall : Obligations.StartBeginsACall := by
  obtain ⟨hwrite, -, -⟩ := lenChangesAsItsRuleSays
  refine ⟨rfl, fun s => ⟨exec_start s, fun v hv => ?_⟩⟩
  obtain ⟨hlegal, -, -⟩ := hwrite s v
  exact hlegal hv

end Sys2Proof.Machine
end

section
/-! Proofs of the statements of 41_crc32c.md: the CRC commands (rules R65 to R67), and `CSUM.VERIFY` (42_header_codec.md R72),
which compares the checksum of the packet in the buffer (rule R64). -/

namespace Sys2Proof

/-! ## The word of `CRC.BYTE`, whatever the byte -/

theorem encode_crcByte (b : Byte) : encode (.crcByte b) = 0x11000000 ||| b.setWidth 32 := by revert b; decide +kernel

theorem decode_encode_crcByte (b : Byte) : decode (encode (.crcByte b)) = .ok (.crcByte b) := by revert b; decide +kernel

end Sys2Proof

namespace Sys2Proof.Machine

open Sys2Proof.Statements

/-! ## One CRC command -/

theorem exec_crcInit {s : State} (hs : s.err.kind = .none) : exec .crcInit s = .next { s with crcAcc := crcOnes } := by
  rw [exec, execCrcInit]
  exact command_ok hs (by rfl)

theorem exec_crcByte {s : State} (hs : s.err.kind = .none) (b : Byte) :
    exec (.crcByte b) s = .next { s with crcAcc := crcUpd s.crcAcc b } := by
  rw [exec, execCrcByte]
  exact command_ok hs (by rfl)

theorem exec_crcFin {s : State} (hs : s.err.kind = .none) :
    exec .crcFin s = .next { s with crcOut := s.crcAcc ^^^ crcOnes } := by
  rw [exec, execCrcFin]
  exact command_ok hs (by rfl)

/-- Settles O16: neither rule can fault, so each command completes in the state its rule writes. -/
theorem crcInitAndByteWriteTheAccumulator : Obligations.CrcInitAndByteWriteTheAccumulator :=
  ⟨rfl, encode_crcByte, fun _ hs => ⟨exec_crcInit hs, exec_crcByte hs⟩⟩

/-! ## A run of issued commands -/

theorem run_succ {M : Host.Core} {s t : M.State} (k : Nat) (h : M.step s = .next t) : M.run (k + 1) s = M.run k t := by
  rw [Host.Core.run, h]

theorem step_issue {s : State} {i : Instr} {rest : List HostAccess} (h : s.pending = issue i :: rest)
    (hi : decode (encode i) = .ok i) : step s = exec i { s with pending := rest } :=
  (step_write_cmd h).trans (executeWord_of_ok hi _)

/-- R37: a run whose oldest access issues a command goes on from the state the command leaves. -/
theorem run_issue {s t : State} {i : Instr} {rest : List HostAccess} (k : Nat) (h : s.pending = issue i :: rest)
    (hi : decode (encode i) = .ok i) (ht : exec i { s with pending := rest } = .next t) :
    core.run (k + 1) s = core.run k t :=
  run_succ (M := core) k ((step_issue h hi).trans ht)

/-! ## The CRC of a byte sequence -/

/-- R63, R67: what `CRC_ACC` holds when `CRC_OUT` is the checksum of the bytes. -/
theorem crc32c_xor_crcOnes (d : List Byte) : crc32c d ^^^ crcOnes = crcRun crcOnes d := by
  rw [crc32c, BitVec.xor_assoc, BitVec.xor_self, BitVec.xor_zero]

theorem crcRun_crcRun (acc : Word) (d e : List Byte) : crcRun (crcRun acc d) e = crcRun acc (d ++ e) := List.foldl_append.symm

/-- R49, R66: `CRC.STR` runs the accumulator over its bytes. -/
theorem run_crcStr {s : State} {d : List Byte} {rest : List HostAccess} (k : Nat) (hs : s.err.kind = .none)
    (h : s.pending = (crcStr d).map issue ++ rest) :
    core.run (d.length + k) s = core.run k { s with crcAcc := crcRun s.crcAcc d, pending := rest } := by
  induction d generalizing s with
  | nil =>
    obtain rfl : s.pending = rest := h
    rw [List.length_nil, Nat.zero_add]
    rfl
  | cons b d ih =>
    have hbyte := run_issue (d.length + k) h (decode_encode_crcByte b) (exec_crcByte (by exact hs) b)
    rw [List.length_cons, Nat.add_right_comm]
    exact hbyte.trans (ih hs rfl)

theorem run_crcStr_crcFin {s : State} {d : List Byte} {rest : List HostAccess} (hs : s.err.kind = .none)
    (h : s.pending = (crcStr d ++ [Instr.crcFin]).map issue ++ rest) :
    core.run (d.length + 1) s = .next
      { s with crcAcc := crcRun s.crcAcc d, crcOut := crcRun s.crcAcc d ^^^ crcOnes, pending := rest } := by
  rw [List.map_append, List.append_assoc] at h
  exact (run_crcStr 1 hs h).trans (run_issue 0 rfl rfl (exec_crcFin (by exact hs)))

/-- R67's continuation: from the accumulator of `d`, the bytes `e` and `CRC.FIN` give the CRC32c of the longer sequence. -/
theorem run_crcStr_crcFin_continued {s : State} {d e : List Byte} {rest : List HostAccess} (hs : s.err.kind = .none)
    (hacc : s.crcAcc = crc32c d ^^^ crcOnes) (h : s.pending = (crcStr e ++ [Instr.crcFin]).map issue ++ rest) :
    core.run (e.length + 1) s = .next
      { s with crcAcc := crc32c (d ++ e) ^^^ crcOnes, crcOut := crc32c (d ++ e), pending := rest } := by
  have hrun : crcRun s.crcAcc e = crcRun crcOnes (d ++ e) := by rw [hacc, crc32c_xor_crcOnes, crcRun_crcRun]
  rw [run_crcStr_crcFin hs h, hrun, crc32c_xor_crcOnes, crc32c]

/-- Settles O17: `CRC.INIT` leaves the accumulator of the empty sequence, so the second clause is the continuation from there. -/
theorem crcFinGivesTheChecksum : Obligations.CrcFinGivesTheChecksum := by
  refine ⟨rfl, fun s hs => exec_crcFin hs, fun s d rest hs h => ?_, fun s d e rest => run_crcStr_crcFin_continued⟩
  have hinit := run_issue (d.length + 1) h rfl (exec_crcInit (by exact hs))
  exact hinit.trans (run_crcStr_crcFin_continued (d := []) hs rfl rfl)

/-! ## The checksum of the packet in the buffer -/

theorem map_packetByte {s : State} {a : Nat} (n : Nat) (ha : 12 ≤ a) :
    (List.range n).map (fun i => packetByte s (a + i)) = bufBytes s a n :=
  List.map_congr_left fun _ _ => if_neg (by omega)

/-- R64: the byte stream is the packet with four zeros for its checksum field. -/
theorem packetBytes_eq {s : State} (hlen : 12 ≤ s.len.toNat) :
    packetBytes s = bufBytes s 0 8 ++ [0, 0, 0, 0] ++ bufBytes s 12 (s.len.toNat - 12) := by
  obtain ⟨n, hn⟩ := Nat.exists_eq_add_of_le hlen
  have hheader : (List.range 12).map (packetByte s) = bufBytes s 0 8 ++ [0, 0, 0, 0] := rfl
  rw [packetBytes, hn, List.range_add, List.map_append, List.map_map, hheader, Nat.add_sub_cancel_left,
    ← map_packetByte n le_rfl]
  rfl

theorem packetCrc_eq {s : State} (hlen : 12 ≤ s.len.toNat) :
    packetCrc s = { s with crcAcc := packetChecksum s ^^^ crcOnes, crcOut := packetChecksum s } := by
  rw [packetCrc, packetChecksum, packetBytes_eq hlen, crc32c_xor_crcOnes, crc32c]

/-- Settles O22: the rule faults below 12 bytes, and else writes what `PacketCrc` leaves and the two flags. -/
theorem csumVerifyComparesTheChecksum : Obligations.CsumVerifyComparesTheChecksum := by
  refine ⟨rfl, fun s hs => ?_⟩
  rw [exec, execCsumVerify]
  refine ⟨fun hlen => command_ok hs ((if_neg (not_lt.2 hlen)).trans ?_), fun hlen => command_error hs (if_pos hlen)⟩
  rw [packetCrc_eq hlen]
  rfl

end Sys2Proof.Machine
end

section
/-! Proofs of the statements of 42_header_codec.md: `HDR.DEC` (rule R70), `HDR.ENC` (rule R71) and `CSUM.PATCH` (rule R73). -/

namespace Sys2Proof.Machine

open Sys2Proof.Statements

/-! ## The window read of `HDR.DEC` -/

theorem curRead_of_le {lv : Level} {n : Nat} {s : State} (h : n ≤ curRemaining s lv) :
    curRead lv n s = some ((s.pos lv).toNat, s.setPos lv (BitVec.ofNat 32 ((s.pos lv).toNat + n))) := if_neg (not_lt.2 h)

theorem curRead_of_lt {lv : Level} {n : Nat} {s : State} (h : curRemaining s lv < n) : curRead lv n s = none := if_pos h

theorem curRemaining_chunk_of_pos0_eq_zero {s : State} (h : s.pos0 = 0) : curRemaining s .chunk = s.end0.toNat := by
  rw [curRemaining, State.pos, h]
  rfl

/-- Settles O20: with `POS0 = 0` the window read is of offset 0 and has 12 bytes exactly when `END0` is at least 12. -/
theorem hdrDecLoadsTheHeader : Obligations.HdrDecLoadsTheHeader := by
  intro s hs
  have hfirst (hpos : s.pos0 = 0) (hvalid : s.hdrValid = false) : ¬ (s.pos0 ≠ 0 ∨ s.hdrValid = true) := by
    simp [hpos, hvalid]
  rw [exec, execHdrDec]
  refine ⟨fun hpos hvalid hend => ?_, fun hpos hvalid hend => ?_, fun hbad => command_error hs (if_pos hbad)⟩
  · refine command_ok hs ((if_neg (hfirst hpos hvalid)).trans ?_)
    rw [curRead_of_le (by rwa [curRemaining_chunk_of_pos0_eq_zero hpos]), State.pos, hpos]
    rfl
  · refine command_error hs ((if_neg (hfirst hpos hvalid)).trans ?_)
    rw [curRead_of_lt (by rwa [curRemaining_chunk_of_pos0_eq_zero hpos]), hpos]

/-! ## The bytes read after a write -/

theorem bufBytes_congr {s t : State} {a n : Nat} (h : ∀ x, a ≤ x → x < a + n → bufRead t x = bufRead s x) :
    bufBytes t a n = bufBytes s a n :=
  List.map_congr_left fun i hi => h (a + i) (Nat.le_add_right a i) (Nat.add_lt_add_left (List.mem_range.1 hi) a)

theorem bufBytes_bufWrite {s : State} {a : Nat} {bytes : List Byte} (hcap : a + bytes.length ≤ s.maxPacket) :
    bufBytes (bufWrite a bytes s) a bytes.length = bytes := by
  refine List.ext_getElem (by simp [bufBytes]) fun i _ hi => ?_
  have hread : bufRead (bufWrite a bytes s) (a + i) = bytes[a + i - a] :=
    bufRead_bufWrite_inside (Nat.le_add_right a i) (by omega) (by omega)
  simpa [bufBytes] using hread

theorem bufBytes_pushBytes {s : State} {bytes : List Byte} (hcap : s.len.toNat + bytes.length ≤ s.maxPacket) :
    bufBytes (pushBytes bytes s) s.len.toNat bytes.length = bytes :=
  (bufBytes_congr fun x _ _ => bufRead_pushBytes bytes s x).trans (bufBytes_bufWrite hcap)

/-! ## `HDR.ENC` -/

theorem headerBytes_length (s : State) : (headerBytes s).length = 12 := rfl

/-- Settles O21: on an empty buffer the append of R52 writes offsets 0 to 11, and leaves all else but `LEN` alone. -/
theorem hdrEncAppendsTheHeader : Obligations.HdrEncAppendsTheHeader := by
  intro s hs hcap
  rw [exec, execHdrEnc]
  refine ⟨fun hlen => ?_, fun hlen => command_error hs (if_pos hlen)⟩
  have hzero : s.len.toNat = 0 := by rw [hlen]; rfl
  have hend : s.len.toNat + (headerBytes s).length = 12 := by rw [hzero, headerBytes_length]
  refine ⟨pushBytes (headerBytes s) s, command_ok hs (if_neg (not_not.2 hlen)), ?_, ?_, fun a ha => ?_⟩
  · rw [pushBytes, hend]
    rfl
  · have hbytes := bufBytes_pushBytes (hend.trans_le hcap)
    rwa [hzero] at hbytes
  · rw [bufRead_pushBytes, bufRead_bufWrite_outside (.inr (hend.trans_le ha))]

/-! ## A word written and read back -/

theorem be32_append (v : Word) :
    v.extractLsb' 24 8 ++ v.extractLsb' 16 8 ++ v.extractLsb' 8 8 ++ v.extractLsb' 0 8 = v := by
  rw [BitVec.extractLsb'_append_extractLsb'_eq_extractLsb' (by rfl),
    BitVec.extractLsb'_append_extractLsb'_eq_extractLsb' (by rfl),
    BitVec.extractLsb'_append_extractLsb'_eq_extractLsb' (by rfl), BitVec.extractLsb'_eq_self]

/-- R33: four bytes that hold a word big-endian read as that word. -/
theorem rd32_of_bufBytes_eq_be32 {s : State} {a : Nat} {v : Word} (h : bufBytes s a 4 = be32 v) : rd32 s a = v := by
  obtain ⟨h0, h1, h2, h3⟩ : bufRead s a = v.extractLsb' 24 8 ∧ bufRead s (a + 1) = v.extractLsb' 16 8
      ∧ bufRead s (a + 2) = v.extractLsb' 8 8 ∧ bufRead s (a + 3) = v.extractLsb' 0 8 := by
    simpa [bufBytes, List.range_succ, be32] using h
  rw [rd32, h0, h1, h2, h3, be32_append]

/-- In canonical form, repeating a run of writes changes nothing. -/
theorem Memory.putRun_putRun_self {cap a : Nat} {m : Memory} {bytes : List Byte} (hm : Memory.wf m = true) :
    Memory.putRun cap (Memory.putRun cap m a bytes) a bytes = Memory.putRun cap m a bytes := by
  have hrun : Memory.wf (Memory.putRun cap m a bytes) = true := Memory.wf_putRun bytes hm
  refine Memory.ext_of_lookup (Memory.wf_putRun bytes hrun) hrun fun x => ?_
  rw [Memory.lookup_putRun, Memory.lookup_putRun]
  split_ifs <;> rfl

/-! ## `CSUM.PATCH` -/

/-- R73: the state a completed `CSUM.PATCH` leaves; `exec_csumPatch` ties it to the command. -/
def patchChecksum (s : State) : State :=
  { bufWrite 8 (be32 (packetChecksum s)) s with
    cksum := packetChecksum s
    crcAcc := packetChecksum s ^^^ crcOnes
    crcOut := packetChecksum s }

theorem exec_csumPatch {s : State} (hs : s.err.kind = .none) (hc : s.copen = false) (hp : s.popen = false)
    (hlen : 12 ≤ s.len.toNat) : exec .csumPatch s = .next (patchChecksum s) := by
  rw [exec, execCsumPatch]
  refine command_ok hs ((if_neg (by simp [hc, hp])).trans ((if_neg (not_lt.2 hlen)).trans ?_))
  rw [packetCrc_eq hlen]
  rfl

/-- R64: the checksum does not depend on the bytes of the checksum field. -/
theorem packetChecksum_congr {s t : State} (hlen : t.len = s.len)
    (h : ∀ a, ¬ (8 ≤ a ∧ a ≤ 11) → bufRead t a = bufRead s a) : packetChecksum t = packetChecksum s := by
  have hbefore : bufBytes t 0 8 = bufBytes s 0 8 := bufBytes_congr fun a _ ha => h a (by omega)
  have hbehind : bufBytes t 12 (s.len.toNat - 12) = bufBytes s 12 (s.len.toNat - 12) :=
    bufBytes_congr fun a ha _ => h a (by omega)
  rw [packetChecksum, packetChecksum, hlen, hbefore, hbehind]

theorem bufRead_patchChecksum (s : State) (a : Nat) :
    bufRead (patchChecksum s) a = bufRead (bufWrite 8 (be32 (packetChecksum s)) s) a := bufRead_congr rfl rfl rfl a

theorem bufRead_patchChecksum_outside {s : State} {a : Nat} (ha : ¬ (8 ≤ a ∧ a ≤ 11)) :
    bufRead (patchChecksum s) a = bufRead s a := by
  have hlength : (be32 (packetChecksum s)).length = 4 := rfl
  rw [bufRead_patchChecksum, bufRead_bufWrite_outside (by omega)]

theorem rd32_patchChecksum {s : State} (hcap : 12 ≤ s.maxPacket) : rd32 (patchChecksum s) 8 = packetChecksum s := by
  have hbytes : bufBytes (bufWrite 8 (be32 (packetChecksum s)) s) 8 4 = be32 (packetChecksum s) := bufBytes_bufWrite hcap
  exact rd32_of_bufBytes_eq_be32 ((bufBytes_congr fun a _ _ => bufRead_patchChecksum s a).trans hbytes)

@[simp] theorem packetChecksum_patchChecksum (s : State) : packetChecksum (patchChecksum s) = packetChecksum s :=
  packetChecksum_congr rfl fun _ ha => bufRead_patchChecksum_outside ha

/-- R73: patching is idempotent, as the checksum it writes is the one it computes again. -/
theorem patchChecksum_patchChecksum {s : State} (hm : Memory.wf s.buf = true) :
    patchChecksum (patchChecksum s) = patchChecksum s := by
  have hbuf : (bufWrite 8 (be32 (packetChecksum s)) (patchChecksum s)).buf = (patchChecksum s).buf :=
    Memory.putRun_putRun_self hm
  rw [patchChecksum, packetChecksum_patchChecksum, bufWrite]
  exact congrArg (fun b => { patchChecksum s with buf := b }) hbuf

/-- Settles O23: the patched packet has the checksum of the packet before, which R72 compares and a second patch writes again. -/
theorem csumPatchStoresTheChecksum : Obligations.CsumPatchStoresTheChecksum := by
  intro s hs hcap
  refine ⟨fun hc hp hlen => ⟨patchChecksum s, exec_csumPatch hs hc hp hlen, rfl, rd32_patchChecksum hcap,
    fun a => bufRead_patchChecksum_outside, ⟨_, (csumVerifyComparesTheChecksum.2 (patchChecksum s) hs).1 hlen, rfl, ?_, hs⟩,
    fun hm => ?_⟩, fun hc hp hlen => ?_, fun hopen => ?_⟩
  · simp [rd32_patchChecksum hcap]
  · have hagain : exec .csumPatch (patchChecksum s) = .next (patchChecksum (patchChecksum s)) := exec_csumPatch hs hc hp hlen
    rw [hagain, patchChecksum_patchChecksum hm]
  · rw [exec, execCsumPatch]
    exact command_error hs ((if_neg (by simp [hc, hp])).trans (if_pos hlen))
  · rw [exec, execCsumPatch]
    exact command_error hs (if_pos hopen)

end Sys2Proof.Machine
end

section
/-! Proofs of the statements of 43_tlv_decode.md: the registries (rules R80, R81), the frame parser (rule R82), the framing loop
(rule R87), `PRM.ENTER` (rule R89), the bounded extractions (rules R91 to R93) and the two rejections (rules R94, R103). -/

namespace Sys2Proof

open Sys2Proof.Statements

/-! ## The word of a command as its fields in their places (30_encoding.md rule R45) -/

/-- The three fields do not overlap, so the word is their bitwise or: bit `k` is of `imm16` below 16, of `a8` below 24, else of
`op`. -/
theorem commandWord_eq_or (op a8 : Byte) (imm : Half) :
    commandWord op a8 imm = op ++ (0 : BitVec 24) ||| a8.setWidth 32 <<< 16 ||| imm.setWidth 32 := by
  ext k hk
  simp only [commandWord, BitVec.getElem_or, BitVec.getElem_append, BitVec.getElem_shiftLeft, BitVec.getElem_setWidth]
  grind

theorem levelA8_shiftLeft (lv : Level) : (levelA8 lv).setWidth 32 <<< 16 = levelWord lv := by cases lv <;> rfl

theorem commandWord_level (op : Byte) (lv : Level) (imm : Half) :
    commandWord op (levelA8 lv) imm = op ++ (0 : BitVec 24) ||| levelWord lv ||| imm.setWidth 32 := by
  rw [commandWord_eq_or, levelA8_shiftLeft]

theorem commandWord_level_zero (op : Byte) (lv : Level) :
    commandWord op (levelA8 lv) 0 = op ++ (0 : BitVec 24) ||| levelWord lv := (commandWord_level op lv 0).trans BitVec.or_zero

/-- A register plus a 16-bit operand, as the rules write offsets, is the sum of the two numbers modulo `2^32`. -/
theorem ofNat_toNat_add_toNat (v : Word) (k : Half) : BitVec.ofNat 32 (v.toNat + k.toNat) = v + k.setWidth 32 := by
  rw [BitVec.ofNat_add, BitVec.ofNat_toNat, BitVec.ofNat_toNat, BitVec.setWidth_eq]

end Sys2Proof

namespace Sys2Proof.Machine

open Sys2Proof.Statements

/-! ## The registries -/

/-- R25, R81: a parameter type is compared with bits 15:0 of the entries whose bit 16 is 1. -/
theorem entryMatches_iff {t : Half} {e : BitVec 17} :
    entryMatches t e = true ↔ e.getLsbD 16 = true ∧ e.extractLsb' 0 16 = t := by
  rw [entryMatches, Bool.and_eq_true, beq_iff_eq]

/-- Settles O27: a type names an existing word of `CKNOWN`, and an entry of `PKNOWN` is a member of the list at its index. -/
theorem registryLookups : Obligations.RegistryLookups := by
  refine fun s => ⟨fun t => ?chunk, fun t => ?param⟩
  case chunk =>
    have hword : t.toNat / 32 < 8 := by have := t.isLt; omega
    have hentry : s.cknown.toList[t.toNat / 32]? = some s.cknown[t.toNat / 32] := by simp [hword]
    have htype : (t.setWidth 16).setWidth 8 = t := by rw [BitVec.setWidth_setWidth_of_le _ (by decide), BitVec.setWidth_eq]
    rw [known, htype, chunkKnown, hentry]
    simp
  case param =>
    rw [known, paramKnown, List.any_eq_true]
    constructor
    · rintro ⟨w, hw, hmatch⟩
      obtain ⟨e, he⟩ := List.mem_iff_getElem?.1 hw
      obtain ⟨hvalid, htype⟩ := entryMatches_iff.1 hmatch
      exact ⟨e, w, (List.getElem?_eq_some_iff.1 he).1, he, hvalid, htype⟩
    · rintro ⟨e, w, -, he, hvalid, htype⟩
      exact ⟨w, List.mem_of_getElem? he, entryMatches_iff.2 ⟨hvalid, htype⟩⟩

/-! ## The frame parser -/

theorem firstNonzero_eq_none {s : State} {a n : Nat} (h : ∀ j, j < n → bufRead s (a + j) = 0) :
    firstNonzero s a n = none := by
  induction n generalizing a with
  | zero => rfl
  | succ n ih =>
    have hfirst : rd8 s a = 0 := h 0 n.succ_pos
    rw [firstNonzero, if_neg (not_not.2 hfirst)]
    exact ih fun j hj => by rw [Nat.succ_add_eq_add_succ]; exact h (j + 1) (by omega)

theorem firstNonzero_eq_some {s : State} {a n j : Nat} (hj : j < n) (hne : bufRead s (a + j) ≠ 0)
    (hzero : ∀ k, k < j → bufRead s (a + k) = 0) : firstNonzero s a n = some (a + j) := by
  induction n generalizing a j with
  | zero => exact absurd hj (Nat.not_lt_zero j)
  | succ n ih =>
    cases j with
    | zero => exact if_pos hne
    | succ j =>
      have hfirst : rd8 s a = 0 := hzero 0 j.succ_pos
      have htail : firstNonzero s (a + 1) n = some (a + 1 + j) := by
        refine ih (by omega) ?_ fun k hk => ?_ <;> rw [Nat.succ_add_eq_add_succ]
        · exact hne
        · exact hzero (k + 1) (by omega)
      rw [firstNonzero, if_neg (not_not.2 hfirst), htail, Nat.succ_add_eq_add_succ]

/-- R82 steps 7 and 8: with the frame and its padding inside the window, only a bad padding byte keeps the frame back. -/
theorem parseFrame_of_inside {s : State} {lv : Level} (hlen : 4 ≤ frameLen s lv)
    (hrem : frameLen s lv + pad (frameLen s lv) ≤ curRemaining s lv) :
    parseFrame s lv = (badPadding s (s.pos lv).toNat (frameLen s lv)).elim
      (.frame (headerType s lv (s.pos lv).toNat) (headerFlags s lv (s.pos lv).toNat) (BitVec.ofNat 16 (frameLen s lv))
        (BitVec.ofNat 32 ((s.pos lv).toNat + 4)) (BitVec.ofNat 16 (frameLen s lv - 4)) (frameNext s lv))
      (fun j => .bad .invalidLength .padNonzero (BitVec.ofNat 32 j)) := by
  have hl : (headerLength s (s.pos lv).toNat).toNat = frameLen s lv := rfl
  have hlength : headerLength s (s.pos lv).toNat = BitVec.ofNat 16 (frameLen s lv) := by
    rw [← hl, BitVec.ofNat_toNat, BitVec.setWidth_eq]
  refine (if_neg (by omega)).trans ((if_neg (by omega)).trans ((if_neg (not_lt.2 hlen)).trans
    ((if_neg (not_lt.2 (Nat.le_of_add_right_le hrem))).trans ((if_neg (not_lt.2 hrem)).trans ?_))))
  rw [hl, hlength]
  cases badPadding s (s.pos lv).toNat (frameLen s lv) <;> rfl

/-- Settles O28: each clause denies the conditions of the steps before its own. -/
theorem parseFrameChecksInOrder : Obligations.ParseFrameChecksInOrder := by
  intro s lv
  refine ⟨fun hend => if_pos hend, fun hsome hshort => ?_, fun hrem hlen => ?_, fun hlen hrem hlong => ?_,
    fun hlen hrem habsent => ?_, fun j hlen hrem htol hj hne hzero => ?_, fun ⟨hlen, hrem, hpad⟩ => ?_⟩
  · exact (if_neg (by omega)).trans (if_pos hshort)
  · exact (if_neg (by omega)).trans ((if_neg (by omega)).trans (if_pos hlen))
  · exact (if_neg (by omega)).trans ((if_neg (by omega)).trans ((if_neg (not_lt.2 hlen)).trans (if_pos hlong)))
  · exact (if_neg (by omega)).trans ((if_neg (by omega)).trans ((if_neg (not_lt.2 hlen)).trans
      ((if_neg (not_lt.2 hrem)).trans (if_pos habsent))))
  · have hbad : badPadding s (s.pos lv).toNat (frameLen s lv) = some ((s.pos lv).toNat + frameLen s lv + j) := by
      rw [badPadding, if_neg (by simp [htol]), firstNonzero_eq_some hj hne hzero]
    rw [parseFrame_of_inside hlen hrem, hbad]
    rfl
  · have hgood : badPadding s (s.pos lv).toNat (frameLen s lv) = none := by
      obtain htol | hzero := hpad
      · exact if_pos htol
      · exact ite_eq_left_iff.2 fun _ => firstNonzero_eq_none hzero
    rw [parseFrame_of_inside hlen hrem, hgood]
    refine ⟨_, _, rfl, ?_, ?_⟩ <;> rintro rfl <;> exact ⟨rfl, rfl⟩

/-! ## One pass of the framing loop, by what stands at the cursor -/

theorem framePass_of_stop {s : State} {lv : Level} (h : s.stop lv = true) : framePass s lv = .stop (endWalk s lv) := if_pos h

theorem framePass_of_finished {s : State} {lv : Level} (hstop : s.stop lv = false) (hp : parseFrame s lv = .finished) :
    framePass s lv = .stop (endWalk s lv) := by
  simp [framePass, hstop, hp]

theorem framePass_of_bad {s : State} {lv : Level} {kind : ErrKind} {cause : ErrCause} {info : Word} (hstop : s.stop lv = false)
    (hp : parseFrame s lv = .bad kind cause info) : framePass s lv = .stop (fatal ⟨kind, cause, info, 0⟩ s) := by
  simp [framePass, hstop, hp]

section Frame

variable {s : State} {lv : Level} {ty : Half} {fl : Byte} {ln : Half} {vo : Word} {vl : Half} {nx : Word}

theorem framePass_of_known (hstop : s.stop lv = false) (hp : parseFrame s lv = .frame ty fl ln vo vl nx)
    (hk : known s lv ty = true) : framePass s lv = .stop (returnFrame s lv ty fl ln vo vl nx true) := by
  simp [framePass, hstop, hp, hk]

theorem framePass_of_unknown (hstop : s.stop lv = false) (hp : parseFrame s lv = .frame ty fl ln vo vl nx)
    (hk : known s lv ty = false) : framePass s lv = policy s lv ty fl ln vo vl nx := by
  simp [framePass, hstop, hp, hk]

/-- R83: action `00` reports the start of the frame, where the cursor still stands. -/
theorem policy_fault (hp : parseFrame s lv = .frame ty fl ln vo vl nx) (ha : action lv ty = 0) :
    policy s lv ty fl ln vo vl nx
      = .stop (fatal ⟨.unrecognizedType, .unkStopReport, s.pos lv, typeDetail lv ty⟩ s) := by
  obtain ⟨-, -, -, -, -, rfl, -⟩ := parseFrame_frame hp
  have hstart : BitVec.ofNat 32 ((s.pos lv).toNat + 4) - 4 = s.pos lv := by
    rw [BitVec.ofNat_add, BitVec.ofNat_toNat, BitVec.setWidth_eq]
    exact BitVec.add_sub_cancel _ _
  rw [policy, if_pos ha, hstart]

theorem policy_stop (ha : action lv ty = 1) : policy s lv ty fl ln vo vl nx = .stop (endWalk (s.setStop lv true) lv) := by
  simp [policy, ha]

theorem policy_skip (ha : action lv ty = 2) : policy s lv ty fl ln vo vl nx = .skip (s.setPos lv nx) := by
  simp [policy, ha]

theorem policy_notice (ha : action lv ty = 3) :
    policy s lv ty fl ln vo vl nx = .stop (returnFrame s lv ty fl ln vo vl nx false) := by
  simp [policy, ha]

end Frame

/-! ## `CHK.NEXT` and `PRM.NEXT` -/

theorem exec_nextCommand {s : State} (hs : s.err.kind = .none) (lv : Level) :
    exec (nextCommand lv) s = .next (nextFrame lv s) := by
  cases lv with
  | chunk => exact command_ok (rule := fun s => .ok (nextFrame .chunk s)) hs rfl
  | param => exact command_ok (rule := fun s => .ok (nextFrame .param s)) hs rfl

theorem exec_nextCommand_of_stop {s t : State} {lv : Level} (hs : s.err.kind = .none) (h : framePass s lv = .stop t) :
    exec (nextCommand lv) s = .next t := by
  rw [exec_nextCommand hs, nextFrame_eq, h]

/-- R85, R87: the command on a frame that is skipped is the command on the frame behind it. -/
theorem exec_nextCommand_of_skip {s t : State} {lv : Level} (hs : s.err.kind = .none) (ht : t.err.kind = .none)
    (h : framePass s lv = .skip t) : exec (nextCommand lv) s = exec (nextCommand lv) t := by
  rw [exec_nextCommand hs, exec_nextCommand ht, nextFrame_eq, h]

/-- Settles O29: each clause is one pass of the loop; only the skip goes on. -/
theorem nextFollowsTheFramerStep : Obligations.NextFollowsTheFramerStep := by
  intro s lv hs
  refine ⟨fun hstop => exec_nextCommand_of_stop hs (framePass_of_stop hstop),
    fun hstop hp => exec_nextCommand_of_stop hs (framePass_of_finished hstop hp),
    fun kind cause info hstop hp => exec_nextCommand_of_stop hs (framePass_of_bad hstop hp),
    fun ty fl ln vo vl nx hstop hp => ⟨fun hk => exec_nextCommand_of_stop hs (framePass_of_known hstop hp hk),
      fun hk ha => ?fault, fun hk ha => ?stop, fun hk ha => ?skip, fun hk ha => ?notice⟩⟩
  case fault => exact exec_nextCommand_of_stop hs ((framePass_of_unknown hstop hp hk).trans (policy_fault hp ha))
  case stop => exact exec_nextCommand_of_stop hs ((framePass_of_unknown hstop hp hk).trans (policy_stop ha))
  case skip =>
    exact exec_nextCommand_of_skip hs (by rwa [State.setPos_err]) ((framePass_of_unknown hstop hp hk).trans (policy_skip ha))
  case notice => exact exec_nextCommand_of_stop hs ((framePass_of_unknown hstop hp hk).trans (policy_notice ha))

/-! ## `PRM.ENTER` -/

/-- Settles O33: the rule's two conditions in their order, its offsets read as sums of registers. -/
theorem prmEnterSetsTheParameterWindow : Obligations.PrmEnterSetsTheParameterWindow := by
  intro s k hs
  rw [exec, execPrmEnter]
  refine ⟨fun hvalid hk => ?_, fun hvalid hk => ?_, fun hvalid => ?_⟩
  · refine command_ok hs ((if_neg (by simp [hvalid])).trans ((if_neg (not_lt.2 hk)).trans ?_))
    rw [enterParams, ofNat_toNat_add_toNat, ofNat_toNat_add_toNat]
    rfl
  · rw [← ofNat_toNat_add_toNat]
    exact command_error hs ((if_neg (by simp [hvalid])).trans (if_pos hk))
  · have hword : encode (.prmEnter k) = 0x31000000 ||| k.setWidth 32 := commandWord_eq_or 0x31 0 k
    rw [← hword]
    exact command_error hs (if_pos (by simp [hvalid]))

/-! ## The bounded extractions -/

theorem ofNat_valueOffset (s : State) (lv : Level) (off : Half) :
    BitVec.ofNat 32 (valueOffset s lv off) = s.frameVoff lv + off.setWidth 32 := ofNat_toNat_add_toNat _ off

/-- R91 to R93, once for the three widths: `n` is the width of the field, `value` reads it, `w` is the command's word. -/
theorem command_extractField {i : Instr} {w : Word} {s : State} (hs : s.err.kind = .none) (lv : Level) (off : Half) (n : Nat)
    (value : State → Word) (hw : encode i = w) :
    (s.frameValid lv = true → off.toNat + n ≤ (s.frameVlen lv).toNat →
      command (fun s => extractField i lv off n (value s) s) s = .next { s with val := value s })
    ∧ (s.frameValid lv = true → (s.frameVlen lv).toNat < off.toNat + n →
      command (fun s => extractField i lv off n (value s) s) s
        = .next (fatal ⟨.truncated, .valOob, s.frameVoff lv + off.setWidth 32, 0⟩ s))
    ∧ (s.frameValid lv = false →
      command (fun s => extractField i lv off n (value s) s) s
        = .next (fatal ⟨.illegalCommand, .badSequence, w, 0⟩ s)) := by
  refine ⟨fun hvalid hin => command_ok hs ?inside, fun hvalid hout => command_error hs ?outside,
    fun hvalid => command_error hs ?noFrame⟩
  case inside => rw [extractField_eq, if_pos hvalid, if_neg (not_lt.2 hin)]
  case outside => rw [extractField_eq, if_pos hvalid, if_pos hout, ofNat_valueOffset]
  case noFrame => rw [extractField_eq, if_neg (by simp [hvalid]), badSequence, hw]

/-- Settles O34: the three commands are one extraction, of 1, 2 and 4 bytes. -/
theorem valExtractsTheFieldOrFaults : Obligations.ValExtractsTheFieldOrFaults := by
  intro s lv off hs
  obtain ⟨hin8, hout8, hno8⟩ := command_extractField (i := .valU8 lv off) hs lv off 1
    (fun s => (rd8 s (valueOffset s lv off)).setWidth 32) (commandWord_level 0x33 lv off)
  obtain ⟨hin16, hout16, hno16⟩ := command_extractField (i := .valU16 lv off) hs lv off 2
    (fun s => (rd16 s (valueOffset s lv off)).setWidth 32) (commandWord_level 0x34 lv off)
  obtain ⟨hin32, hout32, hno32⟩ := command_extractField (i := .valU32 lv off) hs lv off 4
    (fun s => rd32 s (valueOffset s lv off)) (commandWord_level 0x35 lv off)
  exact ⟨hin8, hout8, hno8, hin16, hout16, hno16, hin32, hout32, hno32⟩

/-! ## The rejections -/

/-- R94, R103, once for the two commands: `w` is the command's word. -/
theorem command_rejectValue {i : Instr} {w : Word} {s : State} (hs : s.err.kind = .none) (kind : ErrKind) (cause : ErrCause)
    (lv : Level) (hw : encode i = w) :
    (s.frameValid lv = true → s.frameKnown lv = true →
      command (rejectValue i kind cause lv) s
        = .next (fatal ⟨kind, cause, s.frameVoff lv - 4, typeDetail lv (s.frameType lv)⟩ s))
    ∧ (s.frameValid lv = false ∨ s.frameKnown lv = false →
      command (rejectValue i kind cause lv) s = .next (fatal ⟨.illegalCommand, .badSequence, w, 0⟩ s)) := by
  subst hw
  refine ⟨fun hvalid hknown => command_error hs ?inHand, fun hnone => command_error hs ?noFrame⟩
  case inHand => exact if_neg (by simp [hvalid, hknown])
  case noFrame => exact if_pos (by simpa using hnone)

/-- Settles O35: the two commands are one rejection with two kinds and causes. -/
theorem rejectedValueIsFatal : Obligations.RejectedValueIsFatal := by
  intro s lv hs
  obtain ⟨hreject, hnoReject⟩ := command_rejectValue (i := .valReject lv) hs .malformedValue .valueRejected lv
    (commandWord_level_zero 0x36 lv)
  obtain ⟨hbadlen, hnoBadlen⟩ := command_rejectValue (i := .valBadlen lv) hs .invalidLength .recRemainder lv
    (commandWord_level_zero 0x37 lv)
  exact ⟨fun hvalid hknown => ⟨hreject hvalid hknown, hbadlen hvalid hknown⟩,
    fun hnone => ⟨hnoReject hnone, hnoBadlen hnone⟩⟩

end Sys2Proof.Machine
end

section
/-! Proofs of the statements of 44_tlv_encode.md: `BUF.PUT` (rule R96), the two opening commands (rules R97, R99) and the two
closing commands (rules R98, R100), which share `CloseFrame` (rule R101). -/

namespace Sys2Proof

/-! ## The words of the encoding commands (30_encoding.md rules R45 to R47) -/

theorem byteImm_setWidth (b : Byte) : (byteImm b).setWidth 32 = b.setWidth 32 := by
  ext k hk
  simp only [byteImm, BitVec.getElem_setWidth, BitVec.getLsbD_append]
  grind

theorem encode_bufPut (b : Byte) : encode (.bufPut b) = 0x40000000 ||| b.setWidth 32 := by
  rw [← byteImm_setWidth]
  exact commandWord_eq_or 0x40 0 (byteImm b)

theorem encode_chkOpen (type flags : Byte) :
    encode (.chkOpen type flags) = 0x41000000 ||| flags.setWidth 32 <<< 16 ||| type.setWidth 32 := by
  rw [← byteImm_setWidth type]
  exact commandWord_eq_or 0x41 flags (byteImm type)

theorem encode_prmOpen (type : Half) : encode (.prmOpen type) = 0x43000000 ||| type.setWidth 32 := commandWord_eq_or 0x43 0 type

end Sys2Proof

namespace Sys2Proof.Machine

/-! ## The rule behind a `require` -/

/-- A command depends on its rule only at the state it begins in, so a `require` that holds there can be passed over. -/
theorem command_congr {rule rule' : State → Effect} {s : State} (h : rule s = rule' s) : command rule s = command rule' s := by
  rw [command, command, h]

theorem exec_chkOpen_of_closed {s : State} (type flags : Byte) (hc : s.copen = false) (hp : s.popen = false) :
    exec (.chkOpen type flags) s
      = command (appendThen [type, flags, 0, 0] fun t => { t with cstart := s.len, copen := true }) s := by
  rw [exec, execChkOpen]
  exact command_congr (if_neg (by simp [hc, hp]))

theorem exec_prmOpen_of_closed {s : State} (type : Half) (hp : s.popen = false) :
    exec (.prmOpen type) s = command (appendThen (be16 type ++ [0, 0]) fun t => { t with pstart := s.len, popen := true }) s := by
  rw [exec, execPrmOpen]
  exact command_congr (if_neg (by simp [hp]))

theorem exec_chkClose_of_open {s : State} (hc : s.copen = true) (hp : s.popen = false) :
    exec .chkClose s = command (closeFrame s.cstart fun t => { t with copen := false }) s := by
  rw [exec, execChkClose]
  exact command_congr (if_neg (by simp [hc, hp]))

theorem exec_prmClose_of_open {s : State} (hp : s.popen = true) :
    exec .prmClose s = command (closeFrame s.pstart fun t => { t with popen := false }) s := by
  rw [exec, execPrmClose]
  exact command_congr (if_neg (by simp [hp]))

/-! ## The registers a command writes behind its bytes -/

/-- A command that appends ends by writing registers of its own, none of them the buffer or what a read of it depends on. -/
def KeepsBuffer (done : State → State) : Prop :=
  ∀ t, (done t).buf = t.buf ∧ (done t).maxPacket = t.maxPacket ∧ (done t).epoch = t.epoch

theorem KeepsBuffer.bufRead_eq {done : State → State} (hdone : KeepsBuffer done) (t : State) (a : Nat) :
    bufRead (done t) a = bufRead t a := by
  obtain ⟨hbuf, hmax, hepoch⟩ := hdone t
  exact bufRead_congr hbuf hmax hepoch a

theorem KeepsBuffer.bufBytes_eq {done : State → State} (hdone : KeepsBuffer done) (t : State) (a n : Nat) :
    bufBytes (done t) a n = bufBytes t a n := bufBytes_congr fun x _ _ => hdone.bufRead_eq t x

theorem ofNat_toNat_add (v : Word) (n : Nat) : BitVec.ofNat 32 (v.toNat + n) = v + BitVec.ofNat 32 n := by
  rw [BitVec.ofNat_add, BitVec.ofNat_toNat, BitVec.setWidth_eq]

/-! ## Appending commands -/

/-- An append writes the buffer and `LEN` alone. -/
theorem pushBytes_frame (bytes : List Byte) (s : State) :
    pushBytes bytes s = { s with buf := (pushBytes bytes s).buf, len := s.len + BitVec.ofNat 32 bytes.length } := by
  rw [← ofNat_toNat_add]
  rfl

theorem bufRead_pushBytes_outside {s : State} {bytes : List Byte} {a : Nat}
    (ha : a < s.len.toNat ∨ s.len.toNat + bytes.length ≤ a) : bufRead (pushBytes bytes s) a = bufRead s a :=
  (bufRead_pushBytes bytes s a).trans (bufRead_bufWrite_outside ha)

/-- R52, R96, R97, R99: an append with room for its bytes. -/
theorem command_appendThen_of_fits {bytes : List Byte} {done : State → State} {s : State} (hs : s.err.kind = .none)
    (hdone : KeepsBuffer done) (hfit : s.len.toNat + bytes.length ≤ s.maxPacket) :
    ∃ t, command (appendThen bytes done) s = .next t
      ∧ t = done { s with buf := t.buf, len := s.len + BitVec.ofNat 32 bytes.length }
      ∧ bufBytes t s.len.toNat bytes.length = bytes
      ∧ ∀ a, a < s.len.toNat ∨ s.len.toNat + bytes.length ≤ a → bufRead t a = bufRead s a := by
  obtain ⟨hbuf, -, -⟩ := hdone (pushBytes bytes s)
  refine ⟨done (pushBytes bytes s), command_ok hs ?_, ?_, ?_, fun a ha => ?_⟩
  · rw [appendThen_eq, if_pos hfit]
  · rw [hbuf, ← pushBytes_frame]
  · rw [hdone.bufBytes_eq, bufBytes_pushBytes hfit]
  · rw [hdone.bufRead_eq, bufRead_pushBytes_outside ha]

theorem command_appendThen_of_full {bytes : List Byte} {done : State → State} {s : State} (hs : s.err.kind = .none)
    (hfull : s.maxPacket < s.len.toNat + bytes.length) :
    command (appendThen bytes done) s = .next (fatal ⟨.bufferFull, .bufFull, s.len, 0⟩ s) := by
  refine command_error hs ?_
  rw [appendThen_eq, if_neg (not_le.2 hfull)]

/-- Settles O36: the append of one byte, with no register written behind it. -/
theorem bufPutAppendsTheByte : Obligations.BufPutAppendsTheByte := by
  refine ⟨encode_bufPut, fun s b hs => ?_⟩
  rw [exec, execBufPut]
  refine ⟨fun hfit => ?_, fun hfull => command_appendThen_of_full hs hfull⟩
  obtain ⟨t, hnext, hframe, hbyte, hsame⟩ :=
    command_appendThen_of_fits (bytes := [b]) (done := id) hs (fun _ => ⟨rfl, rfl, rfl⟩) hfit
  exact ⟨t, hnext, hframe, List.head_eq_of_cons_eq hbyte, fun a ha => hsame a (by rw [List.length_singleton]; omega)⟩

/-- Settles O37: with nothing open the rule is the append of the four header bytes. -/
theorem chkOpenAppendsTheChunkHeader : Obligations.ChkOpenAppendsTheChunkHeader := by
  intro s type flags hs
  refine ⟨fun hc hp hfit => ?_, fun hc hp hfull => ?_, fun hopen => ?_⟩
  · rw [exec_chkOpen_of_closed type flags hc hp]
    exact command_appendThen_of_fits hs (fun _ => ⟨rfl, rfl, rfl⟩) hfit
  · rw [exec_chkOpen_of_closed type flags hc hp]
    exact command_appendThen_of_full hs hfull
  · rw [← encode_chkOpen, exec, execChkOpen]
    exact command_error hs (if_pos hopen)

/-- Settles O39: with no parameter open, whatever `COPEN` is, the rule is the append of the four header bytes. -/
theorem prmOpenAppendsTheParameterHeader : Obligations.PrmOpenAppendsTheParameterHeader := by
  intro s type hs
  refine ⟨fun hp hfit => ?_, fun hp hfull => ?_, fun hopen => ?_⟩
  · rw [exec_prmOpen_of_closed type hp]
    exact command_appendThen_of_fits hs (fun _ => ⟨rfl, rfl, rfl⟩) hfit
  · rw [exec_prmOpen_of_closed type hp]
    exact command_appendThen_of_full hs hfull
  · rw [← encode_prmOpen, exec, execPrmOpen]
    exact command_error hs (if_pos hopen)

/-! ## `CloseFrame` -/

/-- R33: two bytes that hold a 16-bit field big-endian read as that field. -/
theorem rd16_of_bufBytes_eq_be16 {s : State} {a : Nat} {v : Half} (h : bufBytes s a 2 = be16 v) : rd16 s a = v := by
  obtain ⟨h0, h1⟩ : bufRead s a = v.extractLsb' 8 8 ∧ bufRead s (a + 1) = v.extractLsb' 0 8 := by
    simpa [bufBytes, List.range_succ, be16] using h
  rw [rd16, h0, h1, BitVec.extractLsb'_append_extractLsb'_eq_extractLsb' (by rfl), BitVec.extractLsb'_eq_self]

/-- Patching and padding write the buffer and `LEN` alone. -/
theorem patchAndPad_frame (start l : Nat) (s : State) :
    patchAndPad start l s = { s with buf := (patchAndPad start l s).buf, len := s.len + BitVec.ofNat 32 (pad l) } := by
  rw [← ofNat_toNat_add, ← patchAndPad_len start l s]
  rfl

/-- The padding begins at `LEN`, so it leaves the patched bytes below alone. -/
theorem bufRead_patchAndPad {start l a : Nat} {s : State} (ha : a < s.len.toNat ∨ s.len.toNat + pad l ≤ a) :
    bufRead (patchAndPad start l s) a = bufRead (bufWrite (start + 2) (be16 (BitVec.ofNat 16 l)) s) a :=
  bufRead_pushBytes_outside (by rwa [List.length_replicate])

theorem bufRead_patchAndPad_outside {start l a : Nat} {s : State} (ha : a < s.len.toNat ∨ s.len.toNat + pad l ≤ a)
    (h2 : a ≠ start + 2) (h3 : a ≠ start + 3) : bufRead (patchAndPad start l s) a = bufRead s a := by
  have hlength : (be16 (BitVec.ofNat 16 l)).length = 2 := rfl
  rw [bufRead_patchAndPad ha, bufRead_bufWrite_outside (by omega)]

/-- R27(f): the frame's header ends at or below `LEN`, so its length field lies in the buffer and below the padding. -/
theorem rd16_patchAndPad {start l : Nat} {s : State} (hheader : start + 4 ≤ s.len.toNat)
    (hfit : s.len.toNat + pad l ≤ s.maxPacket) : rd16 (patchAndPad start l s) (start + 2) = BitVec.ofNat 16 l := by
  have hlength : (be16 (BitVec.ofNat 16 l)).length = 2 := rfl
  have hfield : bufBytes (bufWrite (start + 2) (be16 (BitVec.ofNat 16 l)) s) (start + 2) 2 = be16 (BitVec.ofNat 16 l) :=
    bufBytes_bufWrite (by omega)
  exact rd16_of_bufBytes_eq_be16 ((bufBytes_congr fun x _ hx => bufRead_patchAndPad (.inl (by omega))).trans hfield)

theorem bufBytes_patchAndPad {start l : Nat} {s : State} (hfit : s.len.toNat + pad l ≤ s.maxPacket) :
    bufBytes (patchAndPad start l s) s.len.toNat (pad l) = List.replicate (pad l) 0 := by
  have hzeros := bufBytes_pushBytes (s := bufWrite (start + 2) (be16 (BitVec.ofNat 16 l)) s)
    (bytes := List.replicate (pad l) 0) (by rwa [List.length_replicate])
  rwa [List.length_replicate] at hzeros

section Close

variable {start : Word} {done : State → State} {s : State}

/-- R98, R100, R101: a close of a frame that is not too long, with room for its padding. -/
theorem command_closeFrame_of_fits (hs : s.err.kind = .none) (hdone : KeepsBuffer done)
    (hheader : start.toNat + 4 ≤ s.len.toNat) (hl : s.len.toNat - start.toNat ≤ 65535)
    (hfit : s.len.toNat + pad (s.len.toNat - start.toNat) ≤ s.maxPacket) :
    ∃ t, command (closeFrame start done) s = .next t
      ∧ t = done { s with buf := t.buf, len := s.len + BitVec.ofNat 32 (pad (s.len.toNat - start.toNat)) }
      ∧ rd16 t (start.toNat + 2) = BitVec.ofNat 16 (s.len.toNat - start.toNat)
      ∧ bufBytes t s.len.toNat (pad (s.len.toNat - start.toNat)) = List.replicate (pad (s.len.toNat - start.toNat)) 0
      ∧ ∀ a, a < s.len.toNat ∨ s.len.toNat + pad (s.len.toNat - start.toNat) ≤ a → a ≠ start.toNat + 2 →
          a ≠ start.toNat + 3 → bufRead t a = bufRead s a := by
  obtain ⟨hbuf, -, -⟩ := hdone (patchAndPad start.toNat (s.len.toNat - start.toNat) s)
  refine ⟨done (patchAndPad start.toNat (s.len.toNat - start.toNat) s), command_ok hs ?_, ?_, ?_, ?_, fun a ha h2 h3 => ?_⟩
  · rw [closeFrame_eq, if_neg (not_lt.2 hl), if_pos hfit]
  · rw [hbuf, ← patchAndPad_frame]
  · rw [rd16, hdone.bufRead_eq, hdone.bufRead_eq]
    exact rd16_patchAndPad hheader hfit
  · rw [hdone.bufBytes_eq, bufBytes_patchAndPad hfit]
  · rw [hdone.bufRead_eq, bufRead_patchAndPad_outside ha h2 h3]

theorem command_closeFrame_of_tooLong (hs : s.err.kind = .none) (hl : 65535 < s.len.toNat - start.toNat) :
    command (closeFrame start done) s = .next (fatal ⟨.invalidLength, .frameTooLong, start, 0⟩ s) := by
  refine command_error hs ?_
  rw [closeFrame_eq, if_pos hl]

theorem command_closeFrame_of_full (hs : s.err.kind = .none) (hl : s.len.toNat - start.toNat ≤ 65535)
    (hfull : s.maxPacket < s.len.toNat + pad (s.len.toNat - start.toNat)) :
    command (closeFrame start done) s = .next (fatal ⟨.bufferFull, .bufFull, s.len, 0⟩ s) := by
  refine command_error hs ?_
  rw [closeFrame_eq, if_neg (not_lt.2 hl), if_neg (not_le.2 hfull)]

end Close

/-- Settles O38: with a chunk open and no parameter open the rule is `CloseFrame` from `CSTART`. -/
theorem chkClosePatchesAndPads : Obligations.ChkClosePatchesAndPads := by
  intro s hs l
  refine ⟨fun hc hp hheader hl hfit => ?_, fun hc hp hl => ?_, fun hc hp hl hfull => ?_, fun hbad => ?_⟩
  · rw [exec_chkClose_of_open hc hp]
    exact command_closeFrame_of_fits hs (fun _ => ⟨rfl, rfl, rfl⟩) hheader hl hfit
  · rw [exec_chkClose_of_open hc hp]
    exact command_closeFrame_of_tooLong hs hl
  · rw [exec_chkClose_of_open hc hp]
    exact command_closeFrame_of_full hs hl hfull
  · rw [exec, execChkClose]
    exact command_error hs (if_pos (by simpa using hbad))

/-- Settles O40: with a parameter open, whatever `COPEN` is, the rule is `CloseFrame` from `PSTART`. -/
theorem prmClosePatchesAndPads : Obligations.PrmClosePatchesAndPads := by
  intro s hs l
  refine ⟨fun hp hheader hl hfit => ?_, fun hp hl => ?_, fun hp hl hfull => ?_, fun hp => ?_⟩
  · rw [exec_prmClose_of_open hp]
    exact command_closeFrame_of_fits hs (fun _ => ⟨rfl, rfl, rfl⟩) hheader hl hfit
  · rw [exec_prmClose_of_open hp]
    exact command_closeFrame_of_tooLong hs hl
  · rw [exec_prmClose_of_open hp]
    exact command_closeFrame_of_full hs hl hfull
  · rw [exec, execPrmClose]
    exact command_error hs (if_pos (by simp [hp]))

end Sys2Proof.Machine
end

section
/-! Proofs of the statements of 60_exceptions.md: what the unit refuses while it is FATAL (rule R115). -/

namespace Sys2Proof.Machine

/-- R48 step 4: an illegal word decodes to no command, so to neither of the two that execute while FATAL. -/
theorem takeAccess_illegalWord_of_fatal {w : Word} {s : State} (hill : legalWord w = false) (hs : s.err.kind ≠ .none) :
    takeAccess (.regWrite 0 w) s = .next s := by
  obtain ⟨e, he⟩ := legalWord_eq_false_iff.1 hill
  calc takeAccess (.regWrite 0 w) s
      = executeWord w s := rfl
    _ = .next s := executeWord_of_fatal (by simp [he]) (by simp [he]) hs

/-- Settles O9: the first three clauses are refusals, the `LEN` write's by R17's cases (`lenChangesAsItsRuleSays`). The others
hold in every state: the register map (10_state.md rule R13) gives the register each offset names, and no write but of `CMD` and
`LEN` looks at the FATAL condition. -/
theorem fatalUnitRefusesCommands : Obligations.FatalUnitRefusesCommands := by
  intro s hs
  refine ⟨fun i hnop hstart => exec_of_fatal hnop hstart hs, fun w hill => takeAccess_illegalWord_of_fatal hill hs,
    fun v hv => ?badLen, ?ctrl, ?srcPort, ?dstPort, ?vtag, fun i v => ?cknown, fun i v hn hi => ?pknown, fun _ _ => rfl,
    fun _ => rfl, fun _ => rfl⟩
  case badLen =>
    obtain ⟨hwrite, -, -⟩ := lenChangesAsItsRuleSays
    obtain ⟨-, -, hrefused⟩ := hwrite s v
    exact hrefused hv hs
  case ctrl => exact takeAccess_write_reg .ctrl rfl nofun
  case srcPort => exact takeAccess_write_reg .srcPort rfl nofun
  case dstPort => exact takeAccess_write_reg .dstPort rfl nofun
  case vtag => exact takeAccess_write_reg .vtag rfl nofun
  case cknown => exact takeAccess_write_reg (.cknown i) (regAt_cknown s.nPreg i) nofun v
  case pknown => exact takeAccess_write_reg (.pknown ⟨i, hi⟩) (regAt_pknown_slot hn hi) nofun v

end Sys2Proof.Machine
end

section
/-! Proofs of the statements of 30_encoding.md on the two directions of the encoding and on the operands (rules R45 to R47). -/

namespace Sys2Proof

/-! ## A word and its three fields -/

@[simp] theorem opField_commandWord (op a8 : Byte) (imm : Half) : opField (commandWord op a8 imm) = op := by
  ext k hk
  simp only [opField, commandWord, BitVec.getElem_extractLsb', BitVec.getLsbD_append]
  grind

@[simp] theorem a8Field_commandWord (op a8 : Byte) (imm : Half) : a8Field (commandWord op a8 imm) = a8 := by
  ext k hk
  simp only [a8Field, commandWord, BitVec.getElem_extractLsb', BitVec.getLsbD_append]
  grind

@[simp] theorem imm16Field_commandWord (op a8 : Byte) (imm : Half) : imm16Field (commandWord op a8 imm) = imm :=
  BitVec.extractLsb'_append_eq_right

theorem commandWord_fields (w : Word) : commandWord (opField w) (a8Field w) (imm16Field w) = w := by
  rw [commandWord, opField, a8Field, imm16Field, BitVec.extractLsb'_append_extractLsb'_eq_extractLsb' (by rfl),
    BitVec.extractLsb'_append_extractLsb'_eq_extractLsb' (by rfl), BitVec.extractLsb'_eq_self]

/-! ## The operands inside `a8` and `imm16` (30_encoding.md rule R46) -/

theorem imm16Field_eq (w : Word) : imm16Field w = w.extractLsb' 8 8 ++ byteField w := by
  rw [imm16Field, byteField, BitVec.extractLsb'_append_extractLsb'_eq_extractLsb' (by rfl)]

theorem a8Field_eq (w : Word) : a8Field w = w.extractLsb' 17 7 ++ w.extractLsb' 16 1 := by
  rw [a8Field, BitVec.extractLsb'_append_extractLsb'_eq_extractLsb' (by rfl)]

theorem levelA8_levelField (w : Word) : levelA8 (levelField w) = (0 : BitVec 7) ++ w.extractLsb' 16 1 := by
  have hbit : w.extractLsb' 16 1 = BitVec.ofBool (w.getLsbD 16) := by
    ext k hk
    obtain rfl : k = 0 := by omega
    simp
  rw [hbit, levelField]
  cases w.getLsbD 16 <;> rfl

theorem levelField_eq_param_iff {w : Word} : levelField w = .param ↔ w.getLsbD 16 = true := by
  rw [levelField]
  cases w.getLsbD 16 <;> decide

/-- The low bits of a word are those of its third field. -/
theorem extractLsb'_commandWord_low (op a8 : Byte) (imm : Half) {lo : Nat} (h : lo ≤ 8) :
    (commandWord op a8 imm).extractLsb' lo 8 = imm.extractLsb' lo 8 := by
  ext k hk
  simp only [commandWord, BitVec.getElem_extractLsb', BitVec.getLsbD_append]
  grind

@[simp] theorem byteField_commandWord_byteImm (op a8 b : Byte) : byteField (commandWord op a8 (byteImm b)) = b :=
  (extractLsb'_commandWord_low op a8 (byteImm b) (by decide)).trans BitVec.extractLsb'_append_eq_right

@[simp] theorem highImm_commandWord_byteImm (op a8 b : Byte) : (commandWord op a8 (byteImm b)).extractLsb' 8 8 = 0 :=
  (extractLsb'_commandWord_low op a8 (byteImm b) (by decide)).trans BitVec.extractLsb'_append_eq_left

/-- The bits of a word above the third field, up to `op`, are those of `a8`. -/
theorem getLsbD_commandWord_a8 (op a8 : Byte) (imm : Half) {k : Nat} (h : k < 8) :
    (commandWord op a8 imm).getLsbD (16 + k) = a8.getLsbD k := by
  simp only [commandWord, BitVec.getLsbD_append]
  grind

@[simp] theorem levelField_commandWord (op : Byte) (lv : Level) (imm : Half) :
    levelField (commandWord op (levelA8 lv) imm) = lv := by
  rw [levelField, getLsbD_commandWord_a8 op (levelA8 lv) imm (k := 0) (by decide)]
  cases lv <;> rfl

@[simp] theorem highA8_commandWord_levelA8 (op : Byte) (lv : Level) (imm : Half) :
    (commandWord op (levelA8 lv) imm).extractLsb' 17 7 = 0 := by
  have hbits : (commandWord op (levelA8 lv) imm).extractLsb' 17 7 = (levelA8 lv).extractLsb' 1 7 := by
    ext k hk
    rw [BitVec.getElem_extractLsb', BitVec.getElem_extractLsb',
      show 17 + k = 16 + (1 + k) by omega, getLsbD_commandWord_a8 op (levelA8 lv) imm (by omega)]
  rw [hbits]
  cases lv <;> rfl

/-! ## The commands by operation, format and operands -/

/-- R45, R47: the format of a command's row. -/
def Instr.format : Instr → Format
  | .nop | .start | .crcInit | .crcFin | .hdrDec | .hdrEnc | .csumVerify | .csumPatch => .n
  | .chkNext | .prmNext | .chkClose | .prmClose => .n
  | .crcByte _ | .bufPut _ => .b
  | .prmEnter _ | .prmOpen _ => .h
  | .valReject _ | .valBadlen _ => .l
  | .valU8 _ _ | .valU16 _ _ | .valU32 _ _ => .v
  | .chkOpen _ _ => .t

/-- R46: the command of the same row with its operands read off a word. -/
def Instr.readFrom (w : Word) : Instr → Instr
  | .crcByte _ => .crcByte (byteField w)
  | .bufPut _ => .bufPut (byteField w)
  | .prmEnter _ => .prmEnter (imm16Field w)
  | .prmOpen _ => .prmOpen (imm16Field w)
  | .valU8 _ _ => .valU8 (levelField w) (imm16Field w)
  | .valU16 _ _ => .valU16 (levelField w) (imm16Field w)
  | .valU32 _ _ => .valU32 (levelField w) (imm16Field w)
  | .valReject _ => .valReject (levelField w)
  | .valBadlen _ => .valBadlen (levelField w)
  | .chkOpen _ _ => .chkOpen (byteField w) (a8Field w)
  | i => i

/-! ## Decoding what was encoded -/

/-- Settles O1: the word's `op` selects the command's own row, the row's must-be-zero bits are 0 by the encoder's layout, and each
field holds the operand put there. -/
theorem decodeOfEncodeIsTheCommand : Obligations.DecodeOfEncodeIsTheCommand := by
  intro i
  cases i with
  | nop | start | crcInit | crcFin | hdrDec | hdrEnc | csumVerify | csumPatch | chkNext | prmNext | chkClose | prmClose => rfl
  | crcByte | bufPut | prmEnter | prmOpen | valU8 | valU16 | valU32 | valReject | valBadlen | chkOpen =>
    simp [encode, decode, accept, reservedZero]

/-! ## Encoding what was decoded -/

/-- What a word that decodes has in its fields: the command's `op`, zeros where the format asks for them, and the operands. -/
theorem decode_ok_fields {w : Word} {i : Instr} :
    decode w = .ok i → opField w = opField (encode i) ∧ reservedZero i.format w = true ∧ i.readFrom w = i := by
  iterate 22
    refine iteInduction (motive := (· = Except.ok i → _)) (fun hop h => ?_) fun _ => ?_
    · obtain ⟨hzero, rfl⟩ := accept_eq_ok_iff.1 h
      exact ⟨hop.trans (opField_commandWord _ _ _).symm, hzero, rfl⟩
  exact nofun

/-- R45, R46: a word whose must-be-zero bits are 0 is its `op` and the operands in their places. -/
theorem encode_readFrom {w : Word} {i : Instr} (hop : opField w = opField (encode i)) (hzero : reservedZero i.format w = true) :
    encode (i.readFrom w) = w := by
  conv_rhs => rw [← commandWord_fields w, hop]
  cases i with
  | nop | start | crcInit | crcFin | hdrDec | hdrEnc | csumVerify | csumPatch | chkNext | prmNext | chkClose | prmClose =>
    simp only [Instr.format, reservedZero, Bool.and_eq_true, beq_iff_eq] at hzero
    simp [Instr.readFrom, encode, hzero]
  | crcByte | bufPut =>
    simp only [Instr.format, reservedZero, Bool.and_eq_true, beq_iff_eq] at hzero
    simp [Instr.readFrom, encode, hzero, imm16Field_eq, byteImm]
  | prmEnter | prmOpen =>
    simp only [Instr.format, reservedZero, beq_iff_eq] at hzero
    simp [Instr.readFrom, encode, hzero]
  | valReject | valBadlen =>
    simp only [Instr.format, reservedZero, Bool.and_eq_true, beq_iff_eq] at hzero
    simp [Instr.readFrom, encode, hzero, levelA8_levelField, a8Field_eq]
  | valU8 | valU16 | valU32 =>
    simp only [Instr.format, reservedZero, beq_iff_eq] at hzero
    simp [Instr.readFrom, encode, hzero, levelA8_levelField, a8Field_eq]
  | chkOpen =>
    simp only [Instr.format, reservedZero, beq_iff_eq] at hzero
    simp [Instr.readFrom, encode, hzero, imm16Field_eq, byteImm]

/-- Settles O2: the word's fields determine it, and they are those of the command's word. -/
theorem encodeOfDecodeIsTheWord : Obligations.EncodeOfDecodeIsTheWord := by
  intro w i h
  obtain ⟨hop, hzero, hread⟩ := decode_ok_fields h
  rw [← hread, encode_readFrom hop hzero]

/-- Settles O4: the operands of the command are those read off the word. -/
theorem operandsAreTheFieldsOfTheWord : Obligations.OperandsAreTheFieldsOfTheWord := by
  intro w i h
  obtain ⟨-, -, hread⟩ := decode_ok_fields h
  rw [← hread]
  cases i with
  | crcByte | bufPut | prmEnter | prmOpen => rfl
  | valU8 | valU16 | valU32 => exact ⟨rfl, levelField_eq_param_iff⟩
  | valReject | valBadlen => exact levelField_eq_param_iff
  | chkOpen => exact ⟨rfl, rfl⟩
  | nop | start | crcInit | crcFin | hdrDec | hdrEnc | csumVerify | csumPatch | chkNext | prmNext | chkClose | prmClose =>
    trivial

/-- Settles O5: closed words, which the decoder evaluates. -/
theorem sampleWordsDecode : Obligations.SampleWordsDecode := by
  unfold Obligations.SampleWordsDecode
  decide

end Sys2Proof
end

section
/-! Proofs of statements on the packed registers, the big-endian reads, the step and the reset (10_state.md rules R16, R23, R27,
20_memory.md rules R33, R37, 60_exceptions.md rule R113, 70_reset_and_hazards.md rule R130). -/

namespace Sys2Proof.Machine

/-! ## The packed registers -/

theorem getLsbD_append_ofBool_zero {n : Nat} (x : BitVec n) (b : Bool) : (x ++ BitVec.ofBool b).getLsbD 0 = b := by
  rw [BitVec.getLsbD_append]
  cases b <;> rfl

theorem getLsbD_append_ofBool_succ {n : Nat} (x : BitVec n) (b : Bool) (k : Nat) :
    (x ++ BitVec.ofBool b).getLsbD (k + 1) = x.getLsbD k := by
  simp [BitVec.getLsbD_append]

/-- Settles O50: each bit or field is found by the widths of the fields below it; the codes are closed lists. -/
theorem statusAndErrorLayout : Obligations.StatusAndErrorLayout := by
  refine ⟨fun s => ⟨?bits, ?res0, ?res1, ?statusHigh, ?kind, ?cause, ?errHigh⟩, by decide, by decide, by decide⟩
  case bits =>
    simp only [statusWord, List.range, List.range.loop, List.map, getLsbD_append_ofBool_zero, getLsbD_append_ofBool_succ,
      State.isFatal]
  case kind => exact BitVec.extractLsb'_append_eq_right
  all_goals
    ext k hk
    simp only [statusWord, errWord, BitVec.getElem_extractLsb', BitVec.getLsbD_append]
    grind

/-! ## Numbers of appended fields -/

theorem toNat_append_eq {m n : Nat} (x : BitVec m) (y : BitVec n) : (x ++ y).toNat = x.toNat * 2 ^ n + y.toNat := by
  rw [BitVec.toNat_append, ← Nat.shiftLeft_add_eq_or_of_lt y.isLt, Nat.shiftLeft_eq]

/-- Settles O26: an append of bytes is a sum of multiples of powers of 256. -/
theorem wideReadsAreBigEndian : Obligations.WideReadsAreBigEndian := by
  intro s a
  have hlast : a + 2 + 1 = a + 3 := rfl
  simp only [rd8, rd16, rd32, toNat_append_eq, hlast]
  omega

theorem typeDetail_toNat (lv : Level) (t : Half) :
    (typeDetail lv t).toNat = (levelBit lv).toNat * 2 ^ 18 + (action lv t).toNat * 2 ^ 16 + t.toNat := by
  rw [typeDetail, toNat_append_eq, toNat_append_eq]
  omega

/-- Settles O13: the action is the two top bits of a type of 8 (chunk) or 16 (parameter) bits. -/
theorem typeDetailIsTypeActionAndLevel : Obligations.TypeDetailIsTypeActionAndLevel := by
  refine ⟨fun t => ?chunk, fun t => ?param⟩
  case chunk =>
    have haction : (action .chunk (t.setWidth 16)).toNat = t.toNat / 64 := by
      have := t.isLt
      simp only [action, BitVec.extractLsb'_toNat, BitVec.toNat_setWidth, Nat.shiftRight_eq_div_pow]
      omega
    have htype : (t.setWidth 16).toNat = t.toNat := BitVec.toNat_setWidth_of_le (by decide)
    rw [typeDetail_toNat, haction, htype, show (levelBit .chunk).toNat = 0 from rfl]
    omega
  case param =>
    have haction : (action .param t).toNat = t.toNat / 16384 := by
      have := t.isLt
      simp only [action, BitVec.extractLsb'_toNat, Nat.shiftRight_eq_div_pow]
      omega
    rw [typeDetail_toNat, haction, show (levelBit .param).toNat = 1 from rfl]
    omega

/-! ## The step -/

/-- Settles O6: slot 0 is `CMD`, and the word written there is executed. -/
theorem stepRunsTheDecodedCommand : Obligations.StepRunsTheDecodedCommand :=
  ⟨fun _ => step_nil, fun _ _ _ _ hpending hdecode => (step_write_cmd hpending).trans (executeWord_of_ok hdecode _)⟩

/-- A register write issues a command, or is refused as an illegal word, or writes a register, or is ignored. -/
theorem hostRegWrite_cases {slot : BitVec 6} {v : Word} {s t : State} (h : hostRegWrite slot v s = .next t) :
    (∃ i, decode v = .ok i ∧ exec i s = .next t)
      ∨ t = fatalUnlessFatal ⟨.illegalCommand, .illegalEncoding, v, 0⟩ s
      ∨ (∃ r, regAt s.nPreg slot = some r ∧ t = writeReg r v s) ∨ t = s := by
  unfold hostRegWrite at h
  split at h
  · cases hd : decode v with
    | ok i => exact .inl ⟨i, rfl, (executeWord_of_ok hd s).symm.trans h⟩
    | error e =>
      rw [executeWord_of_error hd] at h
      cases h
      exact .inr (.inl rfl)
  · next r _ hr =>
    cases h
    exact .inr (.inr (.inl ⟨r, hr, rfl⟩))
  · cases h
    exact .inr (.inr (.inr rfl))

theorem hostRegWrite_next (slot : BitVec 6) (v : Word) (s : State) : ∃ t, hostRegWrite slot v s = .next t := by
  unfold hostRegWrite
  split
  · cases hd : decode v with
    | ok i => rw [executeWord_of_ok hd]; exact exec_next i s
    | error e => exact ⟨_, executeWord_of_error hd s⟩
  · exact ⟨_, rfl⟩
  · exact ⟨_, rfl⟩

theorem takeAccess_next (a : HostAccess) (s : State) : ∃ t, takeAccess a s = .next t := by
  cases a with
  | regWrite slot v => exact hostRegWrite_next slot v s
  | regRead | bufRead | bufWrite | reset => exact ⟨_, rfl⟩

/-- Settles O8: with nothing pending the state stays, and every access answers. -/
theorem everyStepAnswersANextState : Obligations.EveryStepAnswersANextState := by
  intro s
  cases h : s.pending with
  | nil => exact ⟨s, step_nil h⟩
  | cons a rest => rw [step_cons h]; exact takeAccess_next a _

/-! ## The reset -/

theorem bufRead_hostReset {s : State} {a : Nat} (ha : a < s.maxPacket) :
    bufRead (hostReset s) a = Config.unwrittenByte (s.epoch + 1) a := if_pos ha

/-- Settles O52: nothing is listed in the buffer of a reset. -/
theorem resetMakesTheBufferFreeAgain : Obligations.ResetMakesTheBufferFreeAgain := by
  intro s rest h
  exact ⟨_, step_reset h, rfl, fun _ ha => bufRead_hostReset ha⟩

/-- R28: the reset values meet the invariant whatever the two parameters are within R3's ranges, and whatever stands on the host's
side. -/
theorem inv_reset_with {pknown : List (BitVec 17)} {cap : Nat} (epoch : Nat) (pending : List HostAccess) (hostRead : Option Word)
    (hcap : 12 ≤ cap ∧ cap ≤ 2 ^ 31 - 1) (hpk : 1 ≤ pknown.length ∧ pknown.length ≤ 16) :
    Inv { State.reset with pknown := pknown, maxPacket := cap, epoch := epoch, pending := pending, hostRead := hostRead } where
  capacity := hcap
  registry := hpk
  buffer := ⟨rfl, rfl⟩
  cursors := ⟨le_rfl, le_rfl, le_rfl, le_rfl, Nat.zero_le _⟩
  chunkFrame := ⟨nofun, fun _ => rfl⟩
  paramFrame := ⟨nofun, fun _ => rfl⟩
  result0 := by unfold ResultCoherent; simp [State.reset, ChunkFrame.clear]
  result1 := by unfold ResultCoherent; simp [State.reset, ParamFrame.clear]
  fatal := fun h => absurd rfl h
  openFrames := ⟨nofun, nofun, nofun⟩
  error := ⟨nofun, rfl, fun _ => ⟨rfl, rfl⟩⟩

/-- Settles O53: the configured parameters lie in R3's ranges. -/
theorem resetMeetsTheInvariant : Obligations.ResetMeetsTheInvariant :=
  inv_reset_with 0 [] none ⟨Config.maxPacket_ge, Config.maxPacket_le⟩ (by simpa using And.intro Config.nPreg_ge Config.nPreg_le)

end Sys2Proof.Machine
end

section
/-! Proofs of the statements of 41_crc32c.md on the byte update (rule R62) and the detection of an error in one byte (rule R68). -/

namespace Sys2Proof.Machine

open Sys2Proof.Statements

/-! ## The byte update as eight shifts -/

theorem crcShift_of_even {c : Word} (h : c.getLsbD 0 = false) : crcShift c = c >>> 1 :=
  if_neg (by rw [h]; exact Bool.false_ne_true)

/-- R61: the loop is linear: what is xored in before a shift can be xored in, shifted, behind it. -/
theorem crcShift_xor (x y : Word) : crcShift (x ^^^ y) = crcShift x ^^^ crcShift y := by
  have hxor : (x ^^^ y).getLsbD 0 = (x.getLsbD 0 ^^ y.getLsbD 0) := BitVec.getLsbD_xor
  unfold crcShift
  rw [hxor, BitVec.ushiftRight_xor_distrib]
  ext k hk
  cases x.getLsbD 0 <;> cases y.getLsbD 0 <;>
    simp [Bool.xor_comm, Bool.xor_left_comm]

theorem crcShift8_xor (x y : Word) : crcShift8 (x ^^^ y) = crcShift8 x ^^^ crcShift8 y := by
  simp only [crcShift8, crcShift_xor]

/-- Eight shifts of a word whose low byte is 0 never meet the polynomial. -/
theorem crcShift8_of_low_zero {c : Word} (h : ∀ k, k < 8 → c.getLsbD k = false) : crcShift8 c = c >>> 8 := by
  have hshift (k : Nat) (hk : k < 8) : crcShift (c >>> k) = c >>> (k + 1) := by
    rw [crcShift_of_even (by simpa using h k hk), BitVec.shiftRight_add]
  have h0 : crcShift c = c >>> 1 := crcShift_of_even (h 0 (by decide))
  rw [crcShift8, h0, hshift 1, hshift 2, hshift 3, hshift 4, hshift 5, hshift 6, hshift 7] <;> decide

/-- Settles O18: the accumulator xor the byte is its low byte, which the table takes through the eight shifts, xor the rest, which the
eight shifts move down. -/
theorem crcUpdateNeedsNoTable : Obligations.CrcUpdateNeedsNoTable := by
  intro acc b
  let low : Word := ((acc ^^^ b.setWidth 32).extractLsb' 0 8).setWidth 32
  have hsplit : acc ^^^ b.setWidth 32 = low ^^^ (acc >>> 8 <<< 8) := by
    ext k hk
    simp only [low, BitVec.getElem_xor, BitVec.getElem_setWidth, BitVec.getElem_shiftLeft, BitVec.getLsbD_extractLsb',
      BitVec.getLsbD_xor, BitVec.getLsbD_setWidth]
    grind
  have hhigh : crcShift8 (acc >>> 8 <<< 8) = acc >>> 8 := by
    rw [crcShift8_of_low_zero fun k hk => by simp [hk]]
    ext k hk
    simp only [BitVec.getElem_ushiftRight, BitVec.getLsbD_shiftLeft, BitVec.getLsbD_ushiftRight]
    grind
  rw [hsplit, crcShift8_xor, hhigh]
  rfl

/-! ## Injectivity -/

/-- A shift loses nothing: its top bit tells whether the polynomial, whose top bit is 1, was xored in. -/
theorem crcShift_eq_zero {c : Word} (h : crcShift c = 0) : c = 0 := by
  cases hlow : c.getLsbD 0 with
  | true =>
    have htop := congrArg (BitVec.getLsbD · 31) h
    simp [crcShift, hlow, crcPoly] at htop
  | false =>
    rw [crcShift_of_even hlow] at h
    ext k hk
    cases k with
    | zero => simpa using hlow
    | succ k =>
      have hbit := congrArg (BitVec.getLsbD · k) h
      simpa [Nat.add_comm, BitVec.getLsbD_eq_getElem hk] using hbit

theorem crcShift8_injective : Function.Injective crcShift8 := by
  intro x y h
  have hzero : crcShift8 (x ^^^ y) = 0 := by rw [crcShift8_xor, h]; exact BitVec.xor_self
  have hxy : x ^^^ y = 0 := by
    iterate 8 replace hzero := crcShift_eq_zero hzero
    exact hzero
  exact BitVec.xor_eq_zero_iff.1 hxy

theorem crcUpd_acc_injective (b : Byte) : Function.Injective (crcUpd · b) := by
  intro x y h
  simp only [crcUpdateNeedsNoTable x b, crcUpdateNeedsNoTable y b] at h
  exact (BitVec.xor_left_inj _).1 (crcShift8_injective h)

theorem crcUpd_byte_injective (acc : Word) : Function.Injective (crcUpd acc) := by
  intro x y h
  rw [crcUpdateNeedsNoTable acc x, crcUpdateNeedsNoTable acc y] at h
  have hword : x.setWidth 32 = y.setWidth 32 := (BitVec.xor_right_inj _).1 (crcShift8_injective h)
  simpa using congrArg (BitVec.setWidth 8) hword

theorem crcRun_injective (bytes : List Byte) : Function.Injective (crcRun · bytes) := by
  induction bytes with
  | nil => exact fun _ _ h => h
  | cons b bs ih => exact ih.comp (crcUpd_acc_injective b)

/-- R68: sequences that differ in one byte have different checksums. -/
theorem crc32c_ne_of_byte_ne {d e : List Byte} {x y : Byte} (h : x ≠ y) : crc32c (d ++ x :: e) ≠ crc32c (d ++ y :: e) := by
  intro heq
  have hrun : crcRun (crcUpd (crcRun crcOnes d) x) e = crcRun (crcUpd (crcRun crcOnes d) y) e := by
    simpa [crc32c, crcRun] using heq
  exact h (crcUpd_byte_injective _ (crcRun_injective e hrun))

/-! ## One byte of the packet -/

/-- R64: outside its field, one byte changed changes the checksum. -/
theorem packetChecksum_ne {s t : State} {k : Nat} (hlen : t.len = s.len) (h12 : 12 ≤ s.len.toNat) (hk : k < s.len.toNat)
    (hfield : ¬ (8 ≤ k ∧ k ≤ 11)) (hne : bufRead t k ≠ bufRead s k) (hsame : ∀ a, a ≠ k → bufRead t a = bufRead s a) :
    packetChecksum t ≠ packetChecksum s := by
  obtain ⟨m, hm⟩ := Nat.exists_eq_add_of_lt hk
  have hsplit (u : State) (hu : u.len = s.len) : packetBytes u
      = (List.range k).map (packetByte u) ++ packetByte u k :: (List.range m).map (fun i => packetByte u (k + 1 + i)) := by
    rw [packetBytes, hu, hm, show k + m + 1 = k + 1 + m by omega, List.range_add, List.range_succ]
    simp [Function.comp_def]
  have hbyte (a : Nat) (ha : a ≠ k) : packetByte t a = packetByte s a := by simp only [packetByte, rd8, hsame a ha]
  have hbefore : (List.range k).map (packetByte t) = (List.range k).map (packetByte s) :=
    List.map_congr_left fun a ha => hbyte a (Nat.ne_of_lt (List.mem_range.1 ha))
  have hbehind : (List.range m).map (fun i => packetByte t (k + 1 + i)) = (List.range m).map (fun i => packetByte s (k + 1 + i)) :=
    List.map_congr_left fun i _ => hbyte _ (by omega)
  have hk' (u : State) : packetByte u k = bufRead u k := if_neg hfield
  rw [packetChecksum, packetChecksum, ← packetBytes_eq h12, ← packetBytes_eq (hlen ▸ h12), hsplit t hlen, hsplit s rfl, hbefore,
    hbehind, hk', hk']
  exact crc32c_ne_of_byte_ne hne

theorem rd32_eq_iff {s t : State} {a : Nat} : rd32 t a = rd32 s a ↔ ∀ x, a ≤ x → x < a + 4 → bufRead t x = bufRead s x := by
  constructor
  · intro h x hlo hhi
    have hnum := congrArg BitVec.toNat h
    simp only [rd32, toNat_append_eq] at hnum
    have hx : x = a ∨ x = a + 1 ∨ x = a + 2 ∨ x = a + 3 := by omega
    obtain rfl | rfl | rfl | rfl := hx <;> refine BitVec.eq_of_toNat_eq ?_ <;> omega
  · intro h
    rw [rd32, rd32, h a, h (a + 1), h (a + 2), h (a + 3)] <;> omega

/-- R72: what the flag of a completed `CSUM.VERIFY` says. -/
theorem exec_csumVerify_flag {s u : State} (hs : s.err.kind = .none) (h : exec .csumVerify s = .next u)
    (hu : u.err.kind = .none) : 12 ≤ s.len.toNat ∧ u.ckBad = decide (packetChecksum s ≠ rd32 s 8) := by
  obtain ⟨hok, hshort⟩ := csumVerifyComparesTheChecksum.2 s hs
  by_cases h12 : 12 ≤ s.len.toNat
  · cases h.symm.trans (hok h12)
    exact ⟨h12, rfl⟩
  · cases h.symm.trans (hshort (by omega))
    exact absurd hu nofun

/-- Settles O19: in the checksum field the change is to the stored word alone, outside it to the computed one alone. -/
theorem singleByteMutationIsDetected : Obligations.SingleByteMutationIsDetected := by
  intro s t u k hs hexec hu hgood ht hk hne hsame
  obtain ⟨h12, hflag⟩ := exec_csumVerify_flag hs hexec hu
  have hlen : t.len = s.len := by rw [ht]
  have ht' : t.err.kind = .none := by rw [ht]; exact hs
  have hmatch : packetChecksum s = rd32 s 8 := by simpa [hgood] using hflag
  have hbad : packetChecksum t ≠ rd32 t 8 := by
    by_cases hfield : 8 ≤ k ∧ k ≤ 11
    · have hsum : packetChecksum t = packetChecksum s := packetChecksum_congr hlen fun a ha => hsame a (by rintro rfl; exact ha hfield)
      rw [hsum, hmatch]
      exact fun heq => hne (rd32_eq_iff.1 heq.symm k (by omega) (by omega))
    · have hword : rd32 t 8 = rd32 s 8 := rd32_eq_iff.2 fun x _ _ => hsame x (by omega)
      rw [hword, ← hmatch]
      exact packetChecksum_ne hlen h12 hk hfield hne hsame
  exact ⟨_, (csumVerifyComparesTheChecksum.2 t ht').1 (hlen ▸ h12), ht', rfl, decide_eq_true hbad⟩

end Sys2Proof.Machine
end

section
/-! What a command can do, said once: the walk of `NextFrame` (43_tlv_decode.md rule R87) and the cases of every command. The statements
on all commands are derived from these in the sections that follow. -/

namespace Sys2Proof.Machine

open Sys2Proof.Statements

/-! ## The framing loop -/

/-- Where the cursor of a level may stand after skips: not behind where it began, and moved only inside the window. -/
def Ahead (s : State) (lv : Level) (p : Word) : Prop :=
  (s.pos lv).toNat ≤ p.toNat ∧ (p = s.pos lv ∨ p.toNat ≤ (s.windowEnd lv).toNat)

@[simp] theorem State.setPos_self (s : State) (lv : Level) : s.setPos lv (s.pos lv) = s := by cases lv <;> rfl

@[simp] theorem State.setPos_setPos (s : State) (lv : Level) (v w : Word) : (s.setPos lv v).setPos lv w = s.setPos lv w := by
  cases lv <;> rfl

theorem ahead_self (s : State) (lv : Level) : Ahead s lv (s.pos lv) := ⟨le_rfl, .inl rfl⟩

theorem ahead_next {s : State} {lv : Level} {ty : Half} {fl : Byte} {ln : Half} {vo : Word} {vl : Half} {nx : Word}
    (h : parseFrame s lv = .frame ty fl ln vo vl nx) : Ahead s lv nx := by
  obtain ⟨hnx, -, -, hend⟩ := parseFrame_next_toNat h
  exact ⟨by omega, .inr hend⟩

theorem Ahead.trans {s : State} {lv : Level} {p q : Word} (hp : Ahead s lv p) (hq : Ahead (s.setPos lv p) lv q) : Ahead s lv q := by
  obtain ⟨hlo, hhi⟩ := hp
  obtain ⟨hlo', hhi'⟩ := hq
  simp only [State.setPos_pos, State.setPos_windowEnd] at hlo' hhi'
  refine ⟨hlo.trans hlo', ?_⟩
  obtain rfl | hhi' := hhi'
  · exact hhi
  · exact .inr hhi'

/-- R27(a): where the cursor is inside its window, it stays there. -/
theorem Ahead.le_windowEnd {s : State} {lv : Level} {p : Word} (hp : Ahead s lv p)
    (hs : (s.pos lv).toNat ≤ (s.windowEnd lv).toNat) : p.toNat ≤ (s.windowEnd lv).toNat := by
  obtain ⟨-, rfl | hhi⟩ := hp
  · exact hs
  · exact hhi

/-- The loop's last pass, from the cursor the skips before it left. -/
theorem nextFrame_last_pass (lv : Level) (s : State) :
    ∃ p, Ahead s lv p ∧ framePass (s.setPos lv p) lv = .stop (nextFrame lv s) := by
  refine nextFrame_induct (P := fun s t => ∃ p, Ahead s lv p ∧ framePass (s.setPos lv p) lv = .stop t) (fun s t h => ?stop)
    (fun s t u h htu => ?skip) s
  case stop => exact ⟨s.pos lv, ahead_self s lv, by rwa [State.setPos_self]⟩
  case skip =>
    obtain ⟨-, ty, fl, ln, vo, vl, nx, hp, -, -, rfl⟩ := framePass_skip h
    obtain ⟨p, hahead, hpass⟩ := htu
    exact ⟨p, (ahead_next hp).trans hahead, by rwa [State.setPos_setPos] at hpass⟩

/-- What `NextFrame` can end in: the walk's end, by its window, by `STOP` or by a frame of action `01`; a returned frame; or a fault at
the frame where the cursor stands. -/
theorem nextFrame_elim {lv : Level} {s : State} {P : State → Prop}
    (ended : ∀ p, Ahead s lv p → P (endWalk (s.setPos lv p) lv))
    (stopped : ∀ p, Ahead s lv p → P (endWalk ((s.setPos lv p).setStop lv true) lv))
    (returned : ∀ p ty fl ln vo vl nx kn, Ahead s lv p → parseFrame (s.setPos lv p) lv = .frame ty fl ln vo vl nx →
      P (returnFrame (s.setPos lv p) lv ty fl ln vo vl nx kn))
    (bad : ∀ p kind cause info, Ahead s lv p → parseFrame (s.setPos lv p) lv = .bad kind cause info →
      P (fatal ⟨kind, cause, info, 0⟩ (s.setPos lv p)))
    (unknown : ∀ p ty, Ahead s lv p →
      P (fatal ⟨.unrecognizedType, .unkStopReport, p, typeDetail lv ty⟩ (s.setPos lv p))) :
    P (nextFrame lv s) := by
  obtain ⟨p, hahead, hpass⟩ := nextFrame_last_pass lv s
  obtain h | ⟨-, kind, cause, info, hp, h⟩ | ⟨hstop, ty, fl, ln, vo, vl, nx, hp, h | ⟨hk, ha, -⟩ | ⟨-, -, h⟩⟩ :=
    framePass_stop hpass
  · exact h ▸ ended p hahead
  · exact h ▸ bad p kind cause info hahead hp
  · exact h ▸ returned p ty fl ln vo vl nx _ hahead hp
  · have hfault := policy_fault hp ha
    rw [State.setPos_pos, ← framePass_of_unknown hstop hp hk, hpass] at hfault
    exact Pass.stop.inj hfault ▸ unknown p ty hahead
  · exact h ▸ stopped p hahead

/-- The part of the state that a call view covers, put in place of the state's own. -/
def State.withView (s : State) (v : CallView) : State :=
  { s with
    pos0 := v.pos0, end0 := v.end0, pos1 := v.pos1, end1 := v.end1, cf := v.cf, pf := v.pf, val := v.val, hdrValid := v.hdrValid
    ckDone := v.ckDone, ckBad := v.ckBad, stop0 := v.stop0, stop1 := v.stop1, res0 := v.res0, res1 := v.res1, err := v.err }

@[simp] theorem State.withView_callView (s : State) : s.withView (callView s) = s := rfl

/-- The framing commands change nothing outside the call view. -/
theorem nextFrame_frame (lv : Level) (s : State) : nextFrame lv s = s.withView (callView (nextFrame lv s)) := by
  refine nextFrame_elim (P := fun t => t = s.withView (callView t)) ?_ ?_ ?_ ?_ ?_ <;> intros <;> cases lv <;> rfl

/-- What both framing commands leave of the call view. -/
theorem nextFrame_keeps (lv : Level) (s : State) :
    (nextFrame lv s).end0 = s.end0 ∧ (nextFrame lv s).end1 = s.end1 ∧ (nextFrame lv s).val = s.val
      ∧ (nextFrame lv s).ckDone = s.ckDone ∧ (nextFrame lv s).ckBad = s.ckBad := by
  refine nextFrame_elim (P := fun t => t.end0 = s.end0 ∧ t.end1 = s.end1 ∧ t.val = s.val ∧ t.ckDone = s.ckDone
    ∧ t.ckBad = s.ckBad) ?_ ?_ ?_ ?_ ?_ <;> intros <;> cases lv <;> exact ⟨rfl, rfl, rfl, rfl, rfl⟩

/-- The cursor of the level moves forward. -/
theorem nextFrame_pos_le (lv : Level) (s : State) : (s.pos lv).toNat ≤ ((nextFrame lv s).pos lv).toNat := by
  refine nextFrame_elim (P := fun t => (s.pos lv).toNat ≤ (t.pos lv).toNat) (fun p h => ?_) (fun p h => ?_)
    (fun p ty fl ln vo vl nx kn h hp => ?_) (fun p kind cause info h _ => ?_) (fun p ty h => ?_)
  case refine_3 =>
    obtain ⟨hle, -⟩ := h.trans (ahead_next hp)
    cases lv <;> exact hle
  all_goals cases lv <;> exact h.1

/-- The cursor of the other level stays. -/
theorem nextFrame_chunk_pos1 (s : State) : (nextFrame .chunk s).pos1 = s.pos1 := by
  refine nextFrame_elim (P := (·.pos1 = s.pos1)) ?_ ?_ ?_ ?_ ?_ <;> intros <;> rfl

theorem nextFrame_param_pos0 (s : State) : (nextFrame .param s).pos0 = s.pos0 := by
  refine nextFrame_elim (P := (·.pos0 = s.pos0)) ?_ ?_ ?_ ?_ ?_ <;> intros <;> rfl

/-! ## What the frame parser reads -/

theorem firstNonzero_congr {s t : State} {n : Nat} : ∀ {a : Nat}, (∀ x, a ≤ x → x < a + n → bufRead t x = bufRead s x) →
    firstNonzero t a n = firstNonzero s a n := by
  induction n with
  | zero => exact fun _ => rfl
  | succ n ih =>
    intro a h
    have hfirst : rd8 t a = rd8 s a := h a le_rfl (by omega)
    rw [firstNonzero, firstNonzero, hfirst, ih fun x hlo hhi => h x (by omega) (by omega)]

/-- The header of a frame of at least 4 bytes is read inside the window. -/
theorem header_congr {s t : State} {lv : Level} (a : Nat) (h : ∀ x, a ≤ x → x < a + 4 → bufRead t x = bufRead s x) :
    headerType t lv a = headerType s lv a ∧ headerFlags t lv a = headerFlags s lv a ∧ headerLength t a = headerLength s a := by
  have h0 := h a le_rfl (by omega)
  have h1 := h (a + 1) (by omega) (by omega)
  have hlen : headerLength t a = headerLength s a := by
    rw [headerLength, headerLength, rd16, rd16, h (a + 2) (by omega) (by omega), h (a + 2 + 1) (by omega) (by omega)]
  cases lv with
  | chunk => exact ⟨by rw [headerType, headerType, rd8, rd8, h0], h1, hlen⟩
  | param => exact ⟨by rw [headerType, headerType, rd16, rd16, h0, h1], rfl, hlen⟩

/-- R35(a), R82: the parser depends on the cursor, the window, `PAD_TOL` and the bytes below the window's end. -/
theorem parseFrame_congr {s t : State} {lv : Level} (hpos : t.pos lv = s.pos lv) (hend : t.windowEnd lv = s.windowEnd lv)
    (htol : t.padTol = s.padTol) (hbytes : ∀ a, a < (s.windowEnd lv).toNat → bufRead t a = bufRead s a) :
    parseFrame t lv = parseFrame s lv := by
  have hrem : curRemaining t lv = curRemaining s lv := by rw [curRemaining, curRemaining, hpos, hend]
  by_cases h4 : curRemaining s lv < 4
  · unfold parseFrame
    simp only [hrem, hpos, if_pos h4]
  · have hinside (x : Nat) (hx : x < (s.pos lv).toNat + curRemaining s lv) : x < (s.windowEnd lv).toNat := by
      unfold curRemaining at hx h4; omega
    obtain ⟨htype, hflags, hlen⟩ := header_congr (lv := lv) (s.pos lv).toNat fun x _ hx => hbytes x (hinside x (by omega))
    unfold parseFrame
    simp only [hrem, hpos, htype, hflags, hlen]
    generalize (headerLength s (s.pos lv).toNat).toNat = l
    by_cases hpad : curRemaining s lv < l + pad l
    · simp only [if_pos hpad]
    · have hbad : badPadding t (s.pos lv).toNat l = badPadding s (s.pos lv).toNat l := by
        rw [badPadding, badPadding, htol, firstNonzero_congr fun x _ hx => hbytes x (hinside x (by omega))]
      rw [hbad]

/-! ## The faults of the frame parser -/

theorem firstNonzero_spec {s : State} {n : Nat} : ∀ {a x : Nat}, firstNonzero s a n = some x →
    ∃ j, x = a + j ∧ j < n ∧ bufRead s (a + j) ≠ 0 ∧ ∀ k, k < j → bufRead s (a + k) = 0 := by
  induction n with
  | zero => exact nofun
  | succ n ih =>
    intro a x h
    rw [firstNonzero] at h
    split at h
    · next hne =>
      cases h
      exact ⟨0, rfl, n.succ_pos, hne, nofun⟩
    · next hzero =>
      obtain ⟨j, rfl, hj, hne, hbefore⟩ := ih h
      refine ⟨j + 1, by omega, by omega, by rwa [← Nat.succ_add_eq_add_succ], fun k hk => ?_⟩
      cases k with
      | zero => exact not_not.1 hzero
      | succ k => rw [← Nat.succ_add_eq_add_succ]; exact hbefore k (by omega)

/-- R82: the fault of a bad frame: kind and cause belong together, and the reported offset is the frame's start, or where its
padding should begin, or its first nonzero padding byte. -/
theorem parseFrame_bad {s : State} {lv : Level} {kind : ErrKind} {cause : ErrCause} {info : Word}
    (h : parseFrame s lv = .bad kind cause info) :
    kind = causeKind cause ∧
      (cause ∈ [.frameHdrShort, .lenLt4, .lenGtRemain] ∧ info = s.pos lv
        ∨ cause = .padAbsent ∧ info.toNat = (s.pos lv).toNat + frameLen s lv
        ∨ cause = .padNonzero ∧ ∃ j, j ≤ 2 ∧ info.toNat = (s.pos lv).toNat + frameLen s lv + j
            ∧ bufRead s ((s.pos lv).toNat + frameLen s lv + j) ≠ 0
            ∧ ∀ k, k < j → bufRead s ((s.pos lv).toNat + frameLen s lv + k) = 0) := by
  have hl : (headerLength s (s.pos lv).toNat).toNat = frameLen s lv := rfl
  simp only [parseFrame, hl] at h
  split at h; · cases h
  split at h
  · cases h; exact ⟨rfl, .inl ⟨by simp, rfl⟩⟩
  split at h
  · cases h; exact ⟨rfl, .inl ⟨by simp, rfl⟩⟩
  split at h
  · cases h; exact ⟨rfl, .inl ⟨by simp, rfl⟩⟩
  split at h
  · cases h
    obtain ⟨-, hlt⟩ := pos_add_remaining (s := s) (lv := lv) (n := frameLen s lv) (by omega) (by omega)
    exact ⟨rfl, .inr (.inl ⟨rfl, by rw [BitVec.toNat_ofNat]; omega⟩)⟩
  split at h
  · next x hx =>
    cases h
    have hsome : firstNonzero s ((s.pos lv).toNat + frameLen s lv) (pad (frameLen s lv)) = some x := by
      rw [badPadding] at hx
      split at hx
      · cases hx
      · exact hx
    obtain ⟨j, rfl, hj, hne, hbefore⟩ := firstNonzero_spec hsome
    obtain ⟨hpad, -⟩ := pad_spec (frameLen s lv)
    obtain ⟨-, hlt⟩ := pos_add_remaining (s := s) (lv := lv) (n := frameLen s lv + j) (by omega) (by omega)
    exact ⟨rfl, .inr (.inr ⟨rfl, j, by omega, by rw [BitVec.toNat_ofNat]; omega, hne, hbefore⟩)⟩
  · cases h

/-! ## The commands -/

/-- What a command that completes has found true of the state, and the state it leaves. -/
inductive Completes (s : State) : Instr → State → Prop
  | crcInit : Completes s .crcInit { s with crcAcc := crcOnes }
  | crcByte (b : Byte) : Completes s (.crcByte b) { s with crcAcc := crcUpd s.crcAcc b }
  | crcFin : Completes s .crcFin { s with crcOut := s.crcAcc ^^^ crcOnes }
  | hdrDec : s.pos0 = 0 → 12 ≤ s.end0.toNat → Completes s .hdrDec (loadHeader (s.setPos .chunk 12) 0)
  | hdrEnc : s.len = 0 → Completes s .hdrEnc (pushBytes (headerBytes s) s)
  | csumVerify : 12 ≤ s.len.toNat → Completes s .csumVerify
      { s with crcAcc := packetChecksum s ^^^ crcOnes, crcOut := packetChecksum s, ckDone := true,
               ckBad := decide (packetChecksum s ≠ rd32 s 8) }
  | csumPatch : 12 ≤ s.len.toNat → Completes s .csumPatch (patchChecksum s)
  | chkNext : Completes s .chkNext (nextFrame .chunk s)
  | prmEnter (k : Half) : s.cf.valid = true → k.toNat ≤ s.cf.vlen.toNat → Completes s (.prmEnter k) (enterParams k s)
  | prmNext : Completes s .prmNext (nextFrame .param s)
  | valU8 (lv : Level) (off : Half) : s.frameValid lv = true → off.toNat + 1 ≤ (s.frameVlen lv).toNat →
      Completes s (.valU8 lv off) { s with val := (rd8 s (valueOffset s lv off)).setWidth 32 }
  | valU16 (lv : Level) (off : Half) : s.frameValid lv = true → off.toNat + 2 ≤ (s.frameVlen lv).toNat →
      Completes s (.valU16 lv off) { s with val := (rd16 s (valueOffset s lv off)).setWidth 32 }
  | valU32 (lv : Level) (off : Half) : s.frameValid lv = true → off.toNat + 4 ≤ (s.frameVlen lv).toNat →
      Completes s (.valU32 lv off) { s with val := rd32 s (valueOffset s lv off) }
  | bufPut (b : Byte) : s.len.toNat + 1 ≤ s.maxPacket → Completes s (.bufPut b) (pushBytes [b] s)
  | chkOpen (type flags : Byte) : s.copen = false → s.popen = false → s.len.toNat + 4 ≤ s.maxPacket →
      Completes s (.chkOpen type flags) { pushBytes [type, flags, 0, 0] s with cstart := s.len, copen := true }
  | chkClose : s.copen = true → s.popen = false → s.len.toNat + pad (s.len.toNat - s.cstart.toNat) ≤ s.maxPacket →
      Completes s .chkClose { patchAndPad s.cstart.toNat (s.len.toNat - s.cstart.toNat) s with copen := false }
  | prmOpen (type : Half) : s.popen = false → s.len.toNat + 4 ≤ s.maxPacket →
      Completes s (.prmOpen type) { pushBytes (be16 type ++ [0, 0]) s with pstart := s.len, popen := true }
  | prmClose : s.popen = true → s.len.toNat + pad (s.len.toNat - s.pstart.toNat) ≤ s.maxPacket →
      Completes s .prmClose { patchAndPad s.pstart.toNat (s.len.toNat - s.pstart.toNat) s with popen := false }

/-- What executing a command comes to (30_encoding.md rule R48 steps 2 to 4 and 6). -/
inductive Ran (s : State) (i : Instr) : State → Prop
  | nop : i = .nop → Ran s i s
  | start : i = .start → Ran s i (startActions s)
  | refused : s.err.kind ≠ .none → Ran s i s
  | faulted (e : Trap) : s.err.kind = .none → e.cause ∈ causesOf i → e.kind = causeKind e.cause → Ran s i (fatal e s)
  | completed (t : State) : s.err.kind = .none → Completes s i t → Ran s i t

/-- What a command's rule may answer. -/
def RuleAnswers (s : State) (i : Instr) : Effect → Prop
  | .ok t => Completes s i t
  | .error e => e.cause ∈ causesOf i ∧ e.kind = causeKind e.cause

theorem Ran.of_command {s t : State} {i : Instr} {rule : State → Effect} (h : command rule s = .next t)
    (hrule : RuleAnswers s i (rule s)) : Ran s i t := by
  obtain ⟨hf, rfl⟩ | ⟨hs, e, he, rfl⟩ | ⟨hs, ht⟩ := command_next h
  · exact .refused hf
  · rw [he] at hrule
    obtain ⟨hcause, hkind⟩ := hrule
    exact .faulted e hs hcause hkind
  · rw [ht] at hrule
    exact .completed t hs hrule

theorem ruleAnswers_badSequence {s : State} {i : Instr} (h : .badSequence ∈ causesOf i) : RuleAnswers s i (badSequence i) := ⟨h, rfl⟩

theorem ruleAnswers_appendThen {s : State} {i : Instr} {bytes : List Byte} {done : State → State}
    (hcause : .bufFull ∈ causesOf i) (h : s.len.toNat + bytes.length ≤ s.maxPacket → Completes s i (done (pushBytes bytes s))) :
    RuleAnswers s i (appendThen bytes done s) := by
  rw [appendThen_eq]
  split
  · next hfit => exact h hfit
  · exact ⟨hcause, rfl⟩

theorem ruleAnswers_closeFrame {s : State} {i : Instr} {start : Word} {done : State → State}
    (hlong : .frameTooLong ∈ causesOf i) (hfull : .bufFull ∈ causesOf i)
    (h : s.len.toNat + pad (s.len.toNat - start.toNat) ≤ s.maxPacket →
      Completes s i (done (patchAndPad start.toNat (s.len.toNat - start.toNat) s))) :
    RuleAnswers s i (closeFrame start done s) := by
  rw [closeFrame_eq]
  split
  · exact ⟨hlong, rfl⟩
  · split
    · next hfit => exact h hfit
    · exact ⟨hfull, rfl⟩

theorem ruleAnswers_extractField {s : State} {i : Instr} {lv : Level} {off : Half} {n : Nat} {value : Word}
    (hseq : .badSequence ∈ causesOf i) (hoob : .valOob ∈ causesOf i)
    (h : s.frameValid lv = true → off.toNat + n ≤ (s.frameVlen lv).toNat → Completes s i { s with val := value }) :
    RuleAnswers s i (extractField i lv off n value s) := by
  rw [extractField_eq]
  split
  · next hvalid =>
    split
    · exact ⟨hoob, rfl⟩
    · next hin => exact h hvalid (not_lt.1 hin)
  · exact ruleAnswers_badSequence hseq

theorem ruleAnswers_rejectValue {s : State} {i : Instr} {cause : ErrCause} {lv : Level} (hseq : .badSequence ∈ causesOf i)
    (hcause : cause ∈ causesOf i) : RuleAnswers s i (rejectValue i (causeKind cause) cause lv s) := by
  unfold rejectValue
  split
  · exact ruleAnswers_badSequence hseq
  · exact ⟨hcause, rfl⟩

/-- Every execution of every command is one of the cases of `Ran`. -/
theorem exec_ran {i : Instr} {s t : State} (h : exec i s = .next t) : Ran s i t := by
  cases i with
  | nop => cases h; exact .nop rfl
  | start => cases h; exact .start rfl
  | crcInit =>
    rw [exec, execCrcInit] at h
    exact Ran.of_command h Completes.crcInit
  | crcByte b =>
    rw [exec, execCrcByte] at h
    exact Ran.of_command h (Completes.crcByte b)
  | crcFin =>
    rw [exec, execCrcFin] at h
    exact Ran.of_command h Completes.crcFin
  | chkNext =>
    rw [exec, execChkNext] at h
    exact Ran.of_command h Completes.chkNext
  | prmNext =>
    rw [exec, execPrmNext] at h
    exact Ran.of_command h Completes.prmNext
  | hdrDec =>
    rw [exec, execHdrDec] at h
    refine Ran.of_command h ?_
    split
    · exact ruleAnswers_badSequence (by simp [causesOf])
    · next hfirst =>
      have hpos : s.pos0 = 0 := by simp at hfirst; exact hfirst.1
      split
      · exact ⟨by simp [causesOf], rfl⟩
      · next hread =>
        obtain ⟨hrem, rfl, rfl⟩ := curRead_some hread
        rw [curRemaining_chunk_of_pos0_eq_zero hpos] at hrem
        rw [State.pos_chunk, hpos]
        exact .hdrDec hpos hrem
  | hdrEnc =>
    rw [exec, execHdrEnc] at h
    refine Ran.of_command h ?_
    split
    · exact ruleAnswers_badSequence (by simp [causesOf])
    · next hlen => exact .hdrEnc (not_not.1 hlen)
  | csumVerify =>
    rw [exec, execCsumVerify] at h
    refine Ran.of_command h ?_
    split
    · exact ⟨by simp [causesOf], rfl⟩
    · next hlen =>
      rw [packetCrc_eq (not_lt.1 hlen)]
      exact .csumVerify (not_lt.1 hlen)
  | csumPatch =>
    rw [exec, execCsumPatch] at h
    refine Ran.of_command h ?_
    split
    · exact ruleAnswers_badSequence (by simp [causesOf])
    · split
      · exact ⟨by simp [causesOf], rfl⟩
      · next hlen =>
        rw [packetCrc_eq (not_lt.1 hlen)]
        exact .csumPatch (not_lt.1 hlen)
  | prmEnter k =>
    rw [exec, execPrmEnter] at h
    refine Ran.of_command h ?_
    split
    · exact ruleAnswers_badSequence (by simp [causesOf])
    · next hvalid =>
      split
      · exact ⟨by simp [causesOf], rfl⟩
      · next hk => exact .prmEnter k (by simpa using hvalid) (not_lt.1 hk)
  | valU8 lv off =>
    rw [exec, execValU8] at h
    exact Ran.of_command h (ruleAnswers_extractField (by simp [causesOf]) (by simp [causesOf]) (.valU8 lv off))
  | valU16 lv off =>
    rw [exec, execValU16] at h
    exact Ran.of_command h (ruleAnswers_extractField (by simp [causesOf]) (by simp [causesOf]) (.valU16 lv off))
  | valU32 lv off =>
    rw [exec, execValU32] at h
    exact Ran.of_command h (ruleAnswers_extractField (by simp [causesOf]) (by simp [causesOf]) (.valU32 lv off))
  | valReject lv =>
    rw [exec, execValReject] at h
    exact Ran.of_command h (ruleAnswers_rejectValue (cause := .valueRejected) (by simp [causesOf]) (by simp [causesOf]))
  | valBadlen lv =>
    rw [exec, execValBadlen] at h
    exact Ran.of_command h (ruleAnswers_rejectValue (cause := .recRemainder) (by simp [causesOf]) (by simp [causesOf]))
  | bufPut b =>
    rw [exec, execBufPut] at h
    exact Ran.of_command h (ruleAnswers_appendThen (by simp [causesOf]) (.bufPut b))
  | chkOpen type flags =>
    rw [exec, execChkOpen] at h
    refine Ran.of_command h ?_
    split
    · exact ruleAnswers_badSequence (by simp [causesOf])
    · next hopen =>
      obtain ⟨hc, hp⟩ : s.copen = false ∧ s.popen = false := by simpa using hopen
      exact ruleAnswers_appendThen (by simp [causesOf]) (.chkOpen type flags hc hp)
  | prmOpen type =>
    rw [exec, execPrmOpen] at h
    refine Ran.of_command h ?_
    split
    · exact ruleAnswers_badSequence (by simp [causesOf])
    · next hp => exact ruleAnswers_appendThen (by simp [causesOf]) (.prmOpen type (by simpa using hp))
  | chkClose =>
    rw [exec, execChkClose] at h
    refine Ran.of_command h ?_
    split
    · exact ruleAnswers_badSequence (by simp [causesOf])
    · next hopen =>
      obtain ⟨hc, hp⟩ : s.copen = true ∧ s.popen = false := by simpa using hopen
      exact ruleAnswers_closeFrame (by simp [causesOf]) (by simp [causesOf]) (.chkClose hc hp)
  | prmClose =>
    rw [exec, execPrmClose] at h
    refine Ran.of_command h ?_
    split
    · exact ruleAnswers_badSequence (by simp [causesOf])
    · next hp => exact ruleAnswers_closeFrame (by simp [causesOf]) (by simp [causesOf]) (.prmClose (by simpa using hp))

end Sys2Proof.Machine
end

section
/-! Proofs of the statements of 60_exceptions.md on what a fault writes and reports (rules R111, R112, R114, R121), and of
43_tlv_decode.md on single framing commands (rules R87, R88, R90). -/

namespace Sys2Proof.Machine

open Sys2Proof.Statements

/-! ## Faults -/

/-- A framing command of a unit that was not FATAL faults only in its last pass, at the frame where the cursor stands. -/
theorem nextFrame_fault_elim {lv : Level} {s : State} {P : State → Prop} (hs : s.err.kind = .none)
    (bad : ∀ p kind cause info, Ahead s lv p → parseFrame (s.setPos lv p) lv = .bad kind cause info →
      P (fatal ⟨kind, cause, info, 0⟩ (s.setPos lv p)))
    (unknown : ∀ p ty, Ahead s lv p → P (fatal ⟨.unrecognizedType, .unkStopReport, p, typeDetail lv ty⟩ (s.setPos lv p)))
    (hfault : (nextFrame lv s).err.kind ≠ .none) : P (nextFrame lv s) := by
  revert hfault
  refine nextFrame_elim (P := fun t => t.err.kind ≠ .none → P t) (fun p _ h => absurd ?_ h) (fun p _ h => absurd ?_ h)
    (fun p ty fl ln vo vl nx kn _ _ h => absurd ?_ h) (fun p kind cause info hp hbad _ => bad p kind cause info hp hbad)
    (fun p ty hp _ => unknown p ty hp) <;> cases lv <;> exact hs

/-- R114: what of the state a fault writes, with the cursors where the fault finds them. -/
def FaultFrame (s t : State) : Prop :=
  t = { s with err := t.err, cf := ⟨0, 0, 0, 0, 0, false, false⟩, pf := ⟨0, 0, 0, 0, false, false⟩, res0 := .none,
               res1 := .none, hdrValid := false, pos0 := t.pos0, pos1 := t.pos1 }

theorem faultFrame_fatal_setPos (e : Trap) (s : State) (lv : Level) (p : Word) : FaultFrame s (fatal e (s.setPos lv p)) := by
  cases lv <;> rfl

theorem nextFrame_faultFrame {lv : Level} {s : State} (hs : s.err.kind = .none) (h : (nextFrame lv s).err.kind ≠ .none) :
    FaultFrame s (nextFrame lv s) :=
  nextFrame_fault_elim hs (fun p _ _ _ _ _ => faultFrame_fatal_setPos _ s lv p) (fun p _ _ => faultFrame_fatal_setPos _ s lv p) h

/-- Settles O10: a fault of a rule is `fatal` of the state the command began in; the framing commands enter theirs behind a cursor
advance. -/
theorem faultsArePrecise : Obligations.FaultsArePrecise := by
  intro i s t hs h hfault
  cases exec_ran h with
  | nop => exact absurd hs hfault
  | start => exact absurd rfl hfault
  | refused hf => exact absurd hs hf
  | faulted => exact ⟨rfl, fun _ => rfl, fun _ => rfl⟩
  | completed _ _ hc =>
    cases hc with
    | chkNext => exact ⟨nextFrame_faultFrame hs hfault, fun hne => absurd rfl hne, fun _ => nextFrame_chunk_pos1 s⟩
    | prmNext => exact ⟨nextFrame_faultFrame hs hfault, fun _ => nextFrame_param_pos0 s, fun hne => absurd rfl hne⟩
    | _ => exact absurd hs hfault

theorem nextFrame_cause {lv : Level} {s : State} (hs : s.err.kind = .none) (h : (nextFrame lv s).err.kind ≠ .none) :
    (nextFrame lv s).err.cause ∈ causesOf (nextCommand lv)
      ∧ (nextFrame lv s).err.kind = causeKind (nextFrame lv s).err.cause := by
  have hcauses : causesOf (nextCommand lv) = [.frameHdrShort, .lenLt4, .lenGtRemain] ++ [.padAbsent, .padNonzero, .unkStopReport] := by
    cases lv <;> rfl
  refine nextFrame_fault_elim (P := fun t => t.err.cause ∈ causesOf (nextCommand lv) ∧ t.err.kind = causeKind t.err.cause) hs
    (fun p kind cause info _ hbad => ?_) (fun p ty _ => ⟨?_, rfl⟩) h
  · obtain ⟨hkind, hcause⟩ := parseFrame_bad hbad
    refine ⟨?_, hkind⟩
    rw [hcauses, fatal_err]
    obtain ⟨hc, -⟩ | ⟨rfl, -⟩ | ⟨rfl, -⟩ := hcause
    · exact List.mem_append_left _ hc
    · simp
    · simp
  · rw [hcauses, fatal_err]
    simp

/-- Settles O11: the rules' causes are those of `exec_ran`, the framing loop's those of the parser and of action `00`. -/
theorem commandsRaiseOnlyTheirCauses : Obligations.CommandsRaiseOnlyTheirCauses := by
  intro i s t hs h hfault
  cases exec_ran h with
  | nop => exact absurd hs hfault
  | start => exact absurd rfl hfault
  | refused hf => exact absurd hs hf
  | faulted e _ hcause hkind => exact ⟨hcause, hkind⟩
  | completed _ _ hc =>
    cases hc with
    | chkNext => exact nextFrame_cause (lv := .chunk) hs hfault
    | prmNext => exact nextFrame_cause (lv := .param) hs hfault
    | _ => exact absurd hs hfault

/-- Settles O12: the cursor has moved over skipped frames only, and the parser reports offsets of the frame it stands at; entering the
fault moves neither the cursor nor a byte. -/
theorem frameFaultsReportTheFrame : Obligations.FrameFaultsReportTheFrame := by
  intro lv s t hs h hfault
  rw [exec_nextCommand hs] at h
  cases h
  refine ⟨nextFrame_pos_le lv s, ?_⟩
  refine nextFrame_fault_elim hs (P := fun t => (t.err.cause ∈ [.frameHdrShort, .lenLt4, .lenGtRemain, .unkStopReport] →
    t.err.info = t.pos lv) ∧ (t.err.cause = .padAbsent → t.err.info.toNat = (t.pos lv).toNat + frameLen t lv)
    ∧ (t.err.cause = .padNonzero → ∃ j, j ≤ 2 ∧ t.err.info.toNat = (t.pos lv).toNat + frameLen t lv + j
        ∧ bufRead t ((t.pos lv).toNat + frameLen t lv + j) ≠ 0
        ∧ ∀ k, k < j → bufRead t ((t.pos lv).toNat + frameLen t lv + k) = 0))
    (fun p kind cause info _ hbad => ?_) (fun p ty _ => ⟨fun _ => ?_, nofun, nofun⟩) hfault
  · have hpos (e : Trap) (u : State) : (fatal e u).pos lv = u.pos lv := by cases lv <;> rfl
    have hlen (e : Trap) (u : State) : frameLen (fatal e u) lv = frameLen u lv := by cases lv <;> rfl
    have hread (e : Trap) (u : State) (a : Nat) : bufRead (fatal e u) a = bufRead u a := rfl
    simp only [hpos, hlen, hread, fatal_err]
    obtain ⟨-, ⟨hc, hinfo⟩ | ⟨rfl, hinfo⟩ | ⟨rfl, hinfo⟩⟩ := parseFrame_bad hbad
    · refine ⟨fun _ => hinfo, ?_, ?_⟩ <;> rintro rfl <;> simp at hc
    · exact ⟨by simp, fun _ => hinfo, nofun⟩
    · exact ⟨by simp, nofun, fun _ => hinfo⟩
  · cases lv <;> rfl

/-! ## The end of a walk -/

theorem endWalk_endWalk (s : State) (lv : Level) : endWalk (endWalk s lv) lv = endWalk s lv := by cases lv <;> rfl

theorem parseFrame_endWalk (s : State) (lv : Level) : parseFrame (endWalk s lv) lv = parseFrame s lv := by
  refine parseFrame_congr ?_ ?_ ?_ fun _ _ => ?_ <;> cases lv <;> rfl

theorem endWalk_stop (s : State) (lv : Level) : (endWalk s lv).stop lv = s.stop lv := by cases lv <;> rfl

/-- D35: a pass that ended the walk ends it again: by `STOP`, or by the same empty window. -/
theorem framePass_again {s t : State} {lv : Level} (h : framePass s lv = .stop t) (ht : t.res lv = .finished) :
    framePass t lv = .stop t := by
  have hstopped {u : State} (hu : u.stop lv = true) : framePass (endWalk u lv) lv = .stop (endWalk u lv) := by
    rw [framePass_of_stop (by rwa [endWalk_stop]), endWalk_endWalk]
  have hfatal (e : Trap) (u : State) : (fatal e u).res lv ≠ .finished := by cases lv <;> exact nofun
  have hreturn (u : State) (ty fl ln vo vl nx) (kn : Bool) : (returnFrame u lv ty fl ln vo vl nx kn).res lv ≠ .finished := by
    cases lv <;> cases kn <;> exact nofun
  obtain rfl | ⟨-, _, _, _, -, rfl⟩ | ⟨-, _, _, _, _, _, _, -, rfl | ⟨-, -, rfl⟩ | ⟨-, -, rfl⟩⟩ := framePass_stop h
  · cases hstop : s.stop lv with
    | true => exact hstopped hstop
    | false =>
      cases hp : parseFrame s lv with
      | finished => rw [framePass_of_finished (by rwa [endWalk_stop]) (by rwa [parseFrame_endWalk]), endWalk_endWalk]
      | bad kind cause info =>
        rw [framePass_of_bad hstop hp] at h
        exact absurd ht (Pass.stop.inj h ▸ hfatal _ _)
      | frame ty fl ln vo vl nx =>
        cases hk : known s lv ty with
        | true =>
          rw [framePass_of_known hstop hp hk] at h
          exact absurd ht (Pass.stop.inj h ▸ hreturn _ _ _ _ _ _ _ _)
        | false =>
          rw [framePass_of_unknown hstop hp hk] at h
          unfold policy at h
          split at h
          · exact absurd ht (Pass.stop.inj h ▸ hfatal _ _)
          · split at h
            · exact Pass.stop.inj h ▸ hstopped (by cases lv <;> rfl)
            · split at h
              · cases h
              · exact absurd ht (Pass.stop.inj h ▸ hreturn _ _ _ _ _ _ _ _)
  · exact absurd ht (hfatal _ _)
  · exact absurd ht (hreturn _ _ _ _ _ _ _ _)
  · exact absurd ht (hfatal _ _)
  · exact hstopped (by cases lv <;> rfl)

/-- Settles O32: the last pass of the first command is the only pass of the second. -/
theorem endIsRepeated : Obligations.EndIsRepeated := by
  intro s t lv hs h ht
  rw [exec_nextCommand hs] at h
  cases h
  obtain ⟨p, -, hpass⟩ := nextFrame_last_pass lv s
  have hagain := framePass_again hpass ht
  have herr : (nextFrame lv s).err.kind = .none := by
    by_contra hne
    have hframe := nextFrame_faultFrame hs hne
    rw [FaultFrame] at hframe
    rw [hframe] at ht
    cases lv <;> cases ht
  exact exec_nextCommand_of_stop herr hagain

/-! ## A known frame -/

theorem ofNat_pos_add_four (s : State) (lv : Level) : BitVec.ofNat 32 ((s.pos lv).toNat + 4) = s.pos lv + 4 := ofNat_toNat_add _ 4

theorem frameLen_sub_four {s : State} {lv : Level} (h : wellFramed s lv) :
    BitVec.ofNat 16 (frameLen s lv - 4) = rd16 s ((s.pos lv).toNat + 2) - 4 := by
  obtain ⟨h4, -⟩ := h
  refine BitVec.eq_of_toNat_eq ?_
  have hlt := (rd16 s ((s.pos lv).toNat + 2)).isLt
  rw [frameLen] at h4 ⊢
  rw [BitVec.toNat_ofNat, BitVec.toNat_sub_of_le (by simpa [BitVec.le_def] using h4)]
  exact Nat.mod_eq_of_lt (by omega)

/-- R87, R88, R90: a framing command on a well-framed frame of a known type. -/
theorem exec_nextCommand_known {s : State} {lv : Level} {ty : Half} (hs : s.err.kind = .none) (hstop : s.stop lv = false)
    (hframed : wellFramed s lv) (hty : headerType s lv (s.pos lv).toNat = ty) (hk : known s lv ty = true) :
    exec (nextCommand lv) s = .next (returnFrame s lv ty (headerFlags s lv (s.pos lv).toNat) (rd16 s ((s.pos lv).toNat + 2))
      (s.pos lv + 4) (rd16 s ((s.pos lv).toNat + 2) - 4) (frameNext s lv) true) := by
  obtain ⟨-, -, -, -, -, -, hparse⟩ := parseFrameChecksInOrder s lv
  obtain ⟨ty', fl, hp, -⟩ := hparse hframed
  obtain ⟨rfl, rfl, hln, -⟩ := parseFrame_frame hp
  rw [hty] at hp
  have hpass := framePass_of_known hstop hp hk
  rw [hln, ofNat_pos_add_four, frameLen_sub_four hframed] at hpass
  exact exec_nextCommand_of_stop hs hpass

/-- Settles O30: the chunk's type goes through its 16-bit form and back. -/
theorem chkNextReturnsAKnownChunk : Obligations.ChkNextReturnsAKnownChunk := by
  intro s hs hstop hframed hk
  refine (exec_nextCommand_known (lv := .chunk) hs hstop hframed rfl hk).trans ?_
  simp [returnFrame, State.setPos, State.setFrame, State.setRes, headerType, headerFlags]

/-- Settles O31: a parameter has no flags. -/
theorem prmNextReturnsAKnownParameter : Obligations.PrmNextReturnsAKnownParameter := by
  intro s hs hstop hframed hk
  exact exec_nextCommand_known (lv := .param) hs hstop hframed rfl hk

end Sys2Proof.Machine
end

section
/-! Proofs of the statements on every command and every step: the cursors (10_state.md rule R18), the configuration (rules R15, R24,
R25), the bytes written (20_memory.md rule R35(b)) and the invariant (10_state.md rule R27). -/

namespace Sys2Proof.Machine

open Sys2Proof.Statements

/-! ## The cursors -/

/-- Settles O58: the commands named are the only ones whose completion writes the cursor; a fault of another writes none. -/
theorem cursorsMoveOnlyByTheirCommands : Obligations.CursorsMoveOnlyByTheirCommands := by
  intro i s t h
  cases exec_ran h with
  | nop | refused | faulted => exact ⟨fun _ => rfl, fun _ => rfl, fun _ _ => rfl, fun _ _ => rfl⟩
  | start hi => exact ⟨fun hne => by simp [hi] at hne, fun hne => absurd hi hne, fun hne => by simp [hi] at hne,
      fun hne => absurd hi hne⟩
  | completed _ _ hc =>
    cases hc with
    | hdrDec => exact ⟨fun hne => by simp at hne, fun _ => rfl, fun _ _ => rfl, fun _ _ => rfl⟩
    | chkNext =>
      obtain ⟨hend0, hend1, -⟩ := nextFrame_keeps .chunk s
      exact ⟨fun hne => by simp at hne, fun _ => hend0, fun _ _ => nextFrame_chunk_pos1 s, fun _ _ => hend1⟩
    | prmNext =>
      obtain ⟨hend0, hend1, -⟩ := nextFrame_keeps .param s
      exact ⟨fun _ => nextFrame_param_pos0 s, fun _ => hend0, fun hne => by simp at hne, fun _ _ => hend1⟩
    | prmEnter k => exact ⟨fun _ => rfl, fun _ => rfl, fun _ hne => absurd rfl (hne k), fun _ hne => absurd rfl (hne k)⟩
    | _ => exact ⟨fun _ => rfl, fun _ => rfl, fun _ _ => rfl, fun _ _ => rfl⟩

/-- Settles O59: of the commands that move a cursor (`cursorsMoveOnlyByTheirCommands`), `HDR.DEC` moves `POS0` from 0, and the framing
commands move theirs over frames. -/
theorem cursorsOnlyMoveForward : Obligations.CursorsOnlyMoveForward := by
  intro i s t _ h hstart
  obtain ⟨hpos0, -, hpos1, -⟩ := cursorsMoveOnlyByTheirCommands i s t h
  cases exec_ran h with
  | start hi => exact absurd hi hstart
  | nop | refused | faulted => exact ⟨le_rfl, fun _ => le_rfl⟩
  | completed _ _ hc =>
    cases hc with
    | hdrDec hpos =>
      rw [hpos]
      exact ⟨Nat.zero_le _, fun hk => (hpos1 (by simp) hk).symm ▸ le_rfl⟩
    | chkNext => exact ⟨nextFrame_pos_le .chunk s, fun hk => (hpos1 (by simp) hk).symm ▸ le_rfl⟩
    | prmNext => exact ⟨(hpos0 (by simp)).symm ▸ le_rfl, fun _ => nextFrame_pos_le .param s⟩
    | prmEnter k => exact ⟨le_rfl, fun hk => absurd rfl (hk k)⟩
    | _ => exact ⟨le_rfl, fun _ => le_rfl⟩

/-! ## One access -/

/-- What an access of the host comes to. -/
inductive Taken (s : State) : State → Prop
  | read (v : Option Word) : Taken s { s with hostRead := v }
  | command (i : Instr) (t : State) : exec i s = .next t → Taken s t
  | illegal (w : Word) : Taken s (fatalUnlessFatal ⟨.illegalCommand, .illegalEncoding, w, 0⟩ s)
  | register (r : Reg) (v : Word) : Taken s (writeReg r v s)
  | ignored : Taken s s
  | byte (a : Nat) (b : Byte) : Taken s (bufWrite a [b] s)
  | reset : Taken s (hostReset s)

theorem takeAccess_taken {a : HostAccess} {s t : State} (h : takeAccess a s = .next t) : Taken s t := by
  cases a with
  | regRead | bufRead => cases h; exact .read _
  | bufWrite => cases h; exact .byte _ _
  | reset => cases h; exact .reset
  | regWrite slot v =>
    obtain ⟨i, -, hi⟩ | rfl | ⟨r, -, rfl⟩ | rfl := hostRegWrite_cases h
    · exact .command i t hi
    · exact .illegal v
    · exact .register r v
    · exact .ignored

theorem step_taken {s t : State} (h : step s = .next t) : t = s ∨ ∃ rest, Taken { s with pending := rest } t := by
  cases hp : s.pending with
  | nil =>
    rw [step_nil hp] at h
    cases h
    exact .inl rfl
  | cons a rest =>
    rw [step_cons hp] at h
    exact .inr ⟨rest, takeAccess_taken h⟩

/-! ## The configuration -/

/-- What no command touches: the configuration, the parameters and the host's side. -/
def SameConfiguration (s t : State) : Prop :=
  (t.padTol = s.padTol ∧ t.cknown = s.cknown ∧ t.pknown = s.pknown ∧ t.pending = s.pending ∧ t.hostRead = s.hostRead
    ∧ t.epoch = s.epoch) ∧ t.maxPacket = s.maxPacket

theorem sameConfiguration_withView (s : State) (v : CallView) : SameConfiguration s (s.withView v) :=
  ⟨⟨rfl, rfl, rfl, rfl, rfl, rfl⟩, rfl⟩

theorem exec_sameConfiguration {i : Instr} {s t : State} (h : exec i s = .next t) : SameConfiguration s t := by
  cases exec_ran h with
  | nop | start | refused | faulted => exact ⟨⟨rfl, rfl, rfl, rfl, rfl, rfl⟩, rfl⟩
  | completed _ _ hc =>
    cases hc with
    | chkNext => rw [nextFrame_frame]; exact sameConfiguration_withView s _
    | prmNext => rw [nextFrame_frame]; exact sameConfiguration_withView s _
    | _ => exact ⟨⟨rfl, rfl, rfl, rfl, rfl, rfl⟩, rfl⟩

@[simp] theorem writeReg_maxPacket (r : Reg) (v : Word) (s : State) : (writeReg r v s).maxPacket = s.maxPacket := by
  cases r
  case len => rw [writeReg, writeLen_eq]; split <;> [rfl; split] <;> rfl
  all_goals rfl

theorem fatalUnlessFatal_eq (e : Trap) (s : State) :
    fatalUnlessFatal e s = if s.err.kind = .none then fatal e s else s := by
  by_cases h : s.err.kind = .none
  · rw [fatalUnlessFatal_of_not_fatal h, if_pos h]
  · rw [fatalUnlessFatal_of_fatal h, if_neg h]

theorem taken_parameters {s t : State} (h : Taken s t) : t.maxPacket = s.maxPacket ∧ t.nPreg = s.nPreg := by
  cases h with
  | read | ignored | byte => exact ⟨rfl, rfl⟩
  | command i _ hi =>
    obtain ⟨⟨-, -, hpk, -⟩, hmax⟩ := exec_sameConfiguration hi
    exact ⟨hmax, State.nPreg_congr hpk⟩
  | illegal w => rw [fatalUnlessFatal_eq]; split <;> exact ⟨rfl, rfl⟩
  | register r v => exact ⟨writeReg_maxPacket r v s, writeReg_nPreg r v s⟩
  | reset => exact ⟨rfl, hostReset_nPreg s⟩

/-- Settles O57: the commands by `exec_ran`, the accesses by `step_taken`. -/
theorem commandsKeepTheConfiguration : Obligations.CommandsKeepTheConfiguration := by
  refine ⟨fun i s t h => (exec_sameConfiguration h).1, fun s t h => ?_⟩
  obtain rfl | ⟨rest, htaken⟩ := step_taken h
  · exact ⟨rfl, rfl⟩
  · exact taken_parameters (s := { s with pending := rest }) htaken

/-! ## The bytes written -/

/-- An append writes the bytes from the old `LEN` to the new one, inside the buffer. -/
theorem pushBytes_writes {s : State} {bytes : List Byte} (hs : Inv s) (hfit : s.len.toNat + bytes.length ≤ s.maxPacket) :
    (∀ a, ¬ (s.len.toNat ≤ a ∧ a < (pushBytes bytes s).len.toNat) → bufRead (pushBytes bytes s) a = bufRead s a)
      ∧ ∀ a, s.len.toNat ≤ a ∧ a < (pushBytes bytes s).len.toNat → a < s.maxPacket := by
  rw [pushBytes_len_toNat hs.capacity.2 hfit]
  exact ⟨fun a ha => bufRead_pushBytes_outside (by omega), fun a ha => by omega⟩

/-- `CloseFrame` writes the padding at `LEN` and the length field of the frame, which lies below `LEN`. -/
theorem patchAndPad_writes {s : State} {start l : Nat} (hs : Inv s) (hstart : start + 4 ≤ s.len.toNat)
    (hfit : s.len.toNat + pad l ≤ s.maxPacket) :
    (∀ a, ¬ ((s.len.toNat ≤ a ∧ a < (patchAndPad start l s).len.toNat) ∨ a = start + 2 ∨ a = start + 3) →
        bufRead (patchAndPad start l s) a = bufRead s a)
      ∧ ∀ a, (s.len.toNat ≤ a ∧ a < (patchAndPad start l s).len.toNat) ∨ a = start + 2 ∨ a = start + 3 → a < s.maxPacket := by
  rw [patchAndPad_len_toNat hs.capacity.2 hfit]
  exact ⟨fun a ha => bufRead_patchAndPad_outside (by omega) (by omega) (by omega), fun a ha => by omega⟩

theorem bufRead_nextFrame (lv : Level) (s : State) (a : Nat) : bufRead (nextFrame lv s) a = bufRead s a := by
  rw [nextFrame_frame]
  exact bufRead_congr rfl rfl rfl a

theorem Completes.writes {i : Instr} {s t : State} (hs : Inv s) (h : Completes s i t) :
    (∀ a, ¬ mayWrite i s t a → bufRead t a = bufRead s a) ∧ ∀ a, mayWrite i s t a → a < s.maxPacket := by
  obtain ⟨hcap, -⟩ := hs.capacity
  obtain ⟨hcopen, hpopen, -⟩ := hs.openFrames
  cases h with
  | hdrEnc hlen =>
    have hzero : s.len.toNat = 0 := by rw [hlen]; rfl
    exact pushBytes_writes hs (by rw [hzero, headerBytes_length]; omega)
  | bufPut b hfit => exact pushBytes_writes hs hfit
  | chkOpen type flags _ _ hfit => exact pushBytes_writes (bytes := [type, flags, 0, 0]) hs hfit
  | prmOpen type _ hfit => exact pushBytes_writes (bytes := be16 type ++ [0, 0]) hs hfit
  | chkClose hc _ hfit => exact patchAndPad_writes hs (hcopen hc) hfit
  | prmClose hp hfit => exact patchAndPad_writes hs (hpopen hp) hfit
  | csumPatch => exact ⟨fun a ha => bufRead_patchChecksum_outside ha, fun a ha => by obtain ⟨-, hhi⟩ := ha; omega⟩
  | chkNext => exact ⟨fun a _ => bufRead_nextFrame .chunk s a, nofun⟩
  | prmNext => exact ⟨fun a _ => bufRead_nextFrame .param s a, nofun⟩
  | _ => exact ⟨fun a _ => bufRead_congr rfl rfl rfl a, nofun⟩

theorem causeKind_ne_none {c : ErrCause} (h : c ≠ .none) : causeKind c ≠ .none ∧ causeKind c ≠ .checksumMismatch := by
  cases c with
  | none => exact absurd rfl h
  | _ => decide

theorem cause_ne_none_of_mem_causesOf {i : Instr} {c : ErrCause} (h : c ∈ causesOf i) : c ≠ .none := by
  rintro rfl
  cases i <;> simp [causesOf] at h

/-- A command that leaves the unit FATAL has written no byte. -/
theorem exec_fault_writes_nothing {i : Instr} {s t : State} (h : exec i s = .next t) (ht : t.err.kind ≠ .none) (a : Nat) :
    bufRead t a = bufRead s a := by
  by_cases hs : s.err.kind = .none
  · obtain ⟨hframe, -⟩ := faultsArePrecise i s t hs h ht
    rw [hframe]
    exact bufRead_congr rfl rfl rfl a
  · cases exec_ran h with
    | nop | start | refused | faulted => exact bufRead_congr rfl rfl rfl a
    | completed _ hs' => exact absurd hs' hs

/-- Settles O56: a completing command's bytes are those of its append, its close or its patch; a fault keeps the buffer. -/
theorem commandsWriteOnlyTheirBytes : Obligations.CommandsWriteOnlyTheirBytes := by
  intro i s t hs h
  refine ⟨?_, exec_fault_writes_nothing h, ?_⟩
  · cases exec_ran h with
    | nop | start | refused | faulted => exact fun a _ => bufRead_congr rfl rfl rfl a
    | completed _ _ hc => exact (hc.writes hs).1
  · intro a ha hgood
    cases exec_ran h with
    | nop hi | start hi => subst hi; exact absurd ha nofun
    | refused hf => exact absurd hgood hf
    | faulted e _ hcause hkind =>
      rw [fatal_err] at hgood
      obtain ⟨hne, -⟩ := causeKind_ne_none (cause_ne_none_of_mem_causesOf hcause)
      exact absurd (hkind.symm.trans hgood) hne
    | completed _ _ hc => exact (hc.writes hs).2 a ha

/-! ## The invariant, operation by operation -/

/-- The invariant does not look at these fields. -/
theorem Inv.of_eq {s t : State} (hs : Inv s)
    (h : t = { s with srcPort := t.srcPort, dstPort := t.dstPort, vtag := t.vtag, cksum := t.cksum, crcAcc := t.crcAcc,
                      crcOut := t.crcOut, val := t.val, ckDone := t.ckDone, ckBad := t.ckBad, padTol := t.padTol,
                      cknown := t.cknown, epoch := t.epoch, pending := t.pending, hostRead := t.hostRead }) : Inv t := by
  rw [h]
  exact ⟨hs.capacity, hs.registry, hs.buffer, hs.cursors, hs.chunkFrame, hs.paramFrame, hs.result0, hs.result1, hs.fatal,
    hs.openFrames, hs.error⟩

theorem resultCoherent_clear {r : Res} (h : r = .none ∨ r = .finished) (kn : Bool) : ResultCoherent r false kn := by
  unfold ResultCoherent
  obtain rfl | rfl := h <;> simp

/-- R27(b), (c): a frame group that is cleared is coherent wherever the cursor is. -/
theorem Inv.fatal_entered {s : State} (hs : Inv s) {e : Trap} (hcause : e.cause ≠ .none) (hkind : e.kind = causeKind e.cause) :
    Inv (Machine.fatal e s) where
  capacity := hs.capacity
  registry := hs.registry
  buffer := hs.buffer
  cursors := hs.cursors
  chunkFrame := ⟨nofun, fun _ => rfl⟩
  paramFrame := ⟨nofun, fun _ => rfl⟩
  result0 := resultCoherent_clear (.inl rfl) _
  result1 := resultCoherent_clear (.inl rfl) _
  fatal := fun _ => ⟨rfl, rfl, rfl, rfl, rfl⟩
  openFrames := hs.openFrames
  error := by
    obtain ⟨hne, hck⟩ := causeKind_ne_none hcause
    exact ⟨fun h => hck (hkind.symm.trans h), hkind, fun h => absurd (hkind.symm.trans h) hne⟩

/-- R54: a call begins over `[0, v)`, whatever the state before it was in its registers. -/
theorem inv_startActions {s : State} {v : Word} (hcap : CapacityLegal s) (hreg : RegistryLegal s) (hbuf : BufferLegal s)
    (hv : v.toNat ≤ s.maxPacket) : Inv (startActions { s with len := v }) where
  capacity := hcap
  registry := hreg
  buffer := hbuf
  cursors := ⟨Nat.zero_le _, le_rfl, Nat.zero_le _, le_rfl, hv⟩
  chunkFrame := ⟨nofun, fun _ => rfl⟩
  paramFrame := ⟨nofun, fun _ => rfl⟩
  result0 := resultCoherent_clear (.inl rfl) _
  result1 := resultCoherent_clear (.inl rfl) _
  fatal := fun h => absurd rfl h
  openFrames := ⟨nofun, nofun, nofun⟩
  error := ⟨nofun, rfl, fun _ => ⟨rfl, rfl⟩⟩

theorem Inv.started {s : State} (hs : Inv s) : Inv (startActions s) := by
  obtain ⟨-, -, -, -, hlen⟩ := hs.cursors
  exact inv_startActions (v := s.len) hs.capacity hs.registry hs.buffer hlen

theorem Inv.bytesWritten {s : State} (hs : Inv s) (a : Nat) (bytes : List Byte) : Inv (bufWrite a bytes s) :=
  ⟨hs.capacity, hs.registry, bufferLegal_bufWrite a bytes hs.buffer, hs.cursors, hs.chunkFrame, hs.paramFrame, hs.result0,
    hs.result1, hs.fatal, hs.openFrames, hs.error⟩

/-- An append that fits raises `LEN` inside the capacity; what frames are open then has to be said of the new `LEN`. -/
theorem Inv.appended {s : State} (hs : Inv s) {bytes : List Byte} (hfit : s.len.toNat + bytes.length ≤ s.maxPacket)
    (cstart pstart : Word) (copen popen : Bool)
    (hopen : (copen = true → cstart.toNat + 4 ≤ s.len.toNat + bytes.length)
      ∧ (popen = true → pstart.toNat + 4 ≤ s.len.toNat + bytes.length)
      ∧ (copen = true → popen = true → cstart.toNat + 4 ≤ pstart.toNat)) :
    Inv { pushBytes bytes s with cstart := cstart, pstart := pstart, copen := copen, popen := popen } where
  capacity := hs.capacity
  registry := hs.registry
  buffer := bufferLegal_pushBytes bytes hs.buffer
  cursors := by
    obtain ⟨hpos0, hend0, hpos1, hend1, -⟩ := hs.cursors
    have hlen := pushBytes_len_toNat hs.capacity.2 hfit
    refine ⟨hpos0, ?_, hpos1, ?_, ?_⟩
    · exact hend0.trans (hlen ▸ Nat.le_add_right _ _)
    · exact hend1.trans (hlen ▸ Nat.le_add_right _ _)
    · exact hlen ▸ hfit
  chunkFrame := hs.chunkFrame
  paramFrame := hs.paramFrame
  result0 := hs.result0
  result1 := hs.result1
  fatal := hs.fatal
  openFrames := by
    rw [← pushBytes_len_toNat hs.capacity.2 hfit] at hopen
    exact hopen
  error := hs.error

/-! ## The invariant along the framing loop -/

theorem Inv.pos_le_windowEnd {s : State} (hs : Inv s) (lv : Level) : (s.pos lv).toNat ≤ (s.windowEnd lv).toNat := by
  obtain ⟨hpos0, -, hpos1, -, -⟩ := hs.cursors
  cases lv with
  | chunk => exact hpos0
  | param => exact hpos1

theorem Inv.windowEnd_le {s : State} (hs : Inv s) (lv : Level) : (s.windowEnd lv).toNat ≤ s.len.toNat := by
  obtain ⟨-, hend0, -, hend1, -⟩ := hs.cursors
  cases lv with
  | chunk => exact hend0
  | param => exact hend1

/-- A cursor that moves forward inside its window stays behind the frame in hand. -/
theorem Inv.cursorMoved {s : State} (hs : Inv s) {lv : Level} {p : Word} (hlo : (s.pos lv).toNat ≤ p.toNat)
    (hhi : p.toNat ≤ (s.windowEnd lv).toNat) : Inv (s.setPos lv p) := by
  obtain ⟨hpos0, hend0, hpos1, hend1, hlen⟩ := hs.cursors
  obtain ⟨hcf, hcf'⟩ := hs.chunkFrame
  obtain ⟨hpf, hpf'⟩ := hs.paramFrame
  cases lv with
  | chunk =>
    refine ⟨hs.capacity, hs.registry, hs.buffer, ⟨hhi, hend0, hpos1, hend1, hlen⟩, ⟨fun hv => ?_, hcf'⟩, hs.paramFrame,
      hs.result0, hs.result1, hs.fatal, hs.openFrames, hs.error⟩
    obtain ⟨hln, hvl, hvo, hin⟩ := hcf hv
    exact ⟨hln, hvl, hvo, hin.trans hlo⟩
  | param =>
    refine ⟨hs.capacity, hs.registry, hs.buffer, ⟨hpos0, hend0, hhi, hend1, hlen⟩, hs.chunkFrame, ⟨fun hv => ?_, hpf'⟩,
      hs.result0, hs.result1, hs.fatal, hs.openFrames, hs.error⟩
    obtain ⟨hln, hvl, hvo, hin⟩ := hpf hv
    exact ⟨hln, hvl, hvo, hin.trans hlo⟩

theorem Inv.ahead {s : State} (hs : Inv s) {lv : Level} {p : Word} (hp : Ahead s lv p) : Inv (s.setPos lv p) :=
  hs.cursorMoved hp.1 (hp.le_windowEnd (hs.pos_le_windowEnd lv))

/-- The walk's end clears the level's frame; a unit that is not FATAL offers anything it likes. -/
theorem Inv.walkEnded {s : State} (hs : Inv s) (herr : s.err.kind = .none) (lv : Level) : Inv (endWalk s lv) := by
  cases lv with
  | chunk => exact ⟨hs.capacity, hs.registry, hs.buffer, hs.cursors, ⟨nofun, fun _ => rfl⟩, hs.paramFrame,
      resultCoherent_clear (.inr rfl) _, hs.result1, fun h => absurd herr h, hs.openFrames, hs.error⟩
  | param => exact ⟨hs.capacity, hs.registry, hs.buffer, hs.cursors, hs.chunkFrame, ⟨nofun, fun _ => rfl⟩,
      hs.result0, resultCoherent_clear (.inr rfl) _, fun h => absurd herr h, hs.openFrames, hs.error⟩

theorem Inv.stopSet {s : State} (hs : Inv s) (lv : Level) (v : Bool) : Inv (s.setStop lv v) := by
  cases lv <;> exact ⟨hs.capacity, hs.registry, hs.buffer, hs.cursors, hs.chunkFrame, hs.paramFrame, hs.result0, hs.result1,
    hs.fatal, hs.openFrames, hs.error⟩

theorem resultCoherent_frame (kn : Bool) : ResultCoherent (if kn then .frame else .notice) true kn := by
  unfold ResultCoherent
  cases kn <;> simp

/-- R27(b): a parsed frame lies behind the cursor that moved past it. -/
theorem Inv.frameReturned {s : State} (hs : Inv s) (herr : s.err.kind = .none) {lv : Level} {ty : Half} {fl : Byte} {ln : Half}
    {vo : Word} {vl : Half} {nx : Word} (hp : parseFrame s lv = .frame ty fl ln vo vl nx) (kn : Bool) :
    Inv (returnFrame s lv ty fl ln vo vl nx kn) := by
  obtain ⟨-, -, -, h4, -⟩ := parseFrame_frame hp
  obtain ⟨hnx, hvo, hvl, hend⟩ := parseFrame_next_toNat hp
  have hmoved := hs.cursorMoved (lv := lv) (p := nx) (by omega) hend
  have hframe : 4 ≤ ln.toNat ∧ vl.toNat = ln.toNat - 4 ∧ 4 ≤ vo.toNat ∧ vo.toNat + vl.toNat + pad ln.toNat ≤ nx.toNat := by omega
  cases lv with
  | chunk => exact ⟨hs.capacity, hs.registry, hs.buffer, hmoved.cursors, ⟨fun _ => hframe, nofun⟩, hmoved.paramFrame,
      resultCoherent_frame kn, hs.result1, fun h => absurd herr h, hs.openFrames, hs.error⟩
  | param => exact ⟨hs.capacity, hs.registry, hs.buffer, hmoved.cursors, hmoved.chunkFrame, ⟨fun _ => hframe, nofun⟩,
      hs.result0, resultCoherent_frame kn, fun h => absurd herr h, hs.openFrames, hs.error⟩

theorem Inv.framed {s : State} (hs : Inv s) (herr : s.err.kind = .none) (lv : Level) : Inv (nextFrame lv s) := by
  have herr' (p : Word) : (s.setPos lv p).err.kind = .none := by rwa [State.setPos_err]
  refine nextFrame_elim (fun p hp => ?ended) (fun p hp => ?stopped) (fun p ty fl ln vo vl nx kn hp hparse => ?returned)
    (fun p kind cause info hp hbad => ?bad) (fun p ty hp => ?unknown)
  case ended => exact (hs.ahead hp).walkEnded (herr' p) lv
  case stopped => exact ((hs.ahead hp).stopSet lv true).walkEnded (by rw [State.setStop_err]; exact herr' p) lv
  case returned => exact (hs.ahead hp).frameReturned (herr' p) hparse kn
  case bad =>
    obtain ⟨hkind, hcause⟩ := parseFrame_bad hbad
    refine (hs.ahead hp).fatal_entered ?_ hkind
    obtain ⟨hc, -⟩ | ⟨rfl, -⟩ | ⟨rfl, -⟩ := hcause
    · rintro rfl
      simp at hc
    · exact nofun
    · exact nofun
  case unknown => exact (hs.ahead hp).fatal_entered nofun rfl

/-! ## The invariant, command by command -/

/-- R89: the level-1 window is part of the value in hand, which lies behind the chunk cursor. -/
theorem Inv.paramsEntered {s : State} (hs : Inv s) (herr : s.err.kind = .none) {k : Half} (hvalid : s.cf.valid = true)
    (hk : k.toNat ≤ s.cf.vlen.toNat) : Inv (enterParams k s) := by
  obtain ⟨hpos0, hend0, -, -, hlen⟩ := hs.cursors
  obtain ⟨-, -, -, hin⟩ := hs.chunkFrame.1 hvalid
  have hlt := s.len.isLt
  have hp : (enterParams k s).pos1.toNat = s.cf.voff.toNat + k.toNat := by
    rw [enterParams_pos1, BitVec.toNat_ofNat]; omega
  have he : (enterParams k s).end1.toNat = s.cf.voff.toNat + s.cf.vlen.toNat := by
    rw [enterParams_end1, BitVec.toNat_ofNat]; omega
  refine ⟨hs.capacity, hs.registry, hs.buffer, ⟨hpos0, hend0, ?_, ?_, hlen⟩, hs.chunkFrame, ⟨nofun, fun _ => rfl⟩, hs.result0,
    resultCoherent_clear (.inl rfl) _, fun h => absurd herr h, hs.openFrames, hs.error⟩
  · rw [hp, he]; omega
  · rw [he]; exact (show _ ≤ s.len.toNat by omega)

theorem Inv.completed {s t : State} {i : Instr} (hs : Inv s) (herr : s.err.kind = .none) (h : Completes s i t) : Inv t := by
  obtain ⟨hcopen, hpopen, hboth⟩ := hs.openFrames
  cases h with
  | crcInit | crcByte | crcFin | csumVerify | valU8 | valU16 | valU32 => exact hs.of_eq rfl
  | csumPatch => exact (hs.bytesWritten 8 (be32 (packetChecksum s))).of_eq rfl
  | chkNext => exact hs.framed herr .chunk
  | prmNext => exact hs.framed herr .param
  | prmEnter k hvalid hk => exact hs.paramsEntered herr hvalid hk
  | hdrDec hpos hend =>
    have hmoved : Inv (s.setPos .chunk 12) := hs.cursorMoved (by rw [State.pos_chunk, hpos]; exact Nat.zero_le _) hend
    exact ⟨hmoved.capacity, hmoved.registry, hmoved.buffer, hmoved.cursors, hmoved.chunkFrame, hmoved.paramFrame, hmoved.result0,
      hmoved.result1, fun h => absurd herr h, hmoved.openFrames, hmoved.error⟩
  | hdrEnc hlen =>
    have hzero : s.len.toNat = 0 := by rw [hlen]; rfl
    have hcap := hs.capacity.1
    exact hs.appended (bytes := headerBytes s) (by rw [hzero, headerBytes_length]; omega) s.cstart s.pstart s.copen s.popen
      ⟨fun h => (hcopen h).trans (Nat.le_add_right _ _), fun h => (hpopen h).trans (Nat.le_add_right _ _), hboth⟩
  | bufPut b hfit =>
    exact hs.appended (bytes := [b]) hfit s.cstart s.pstart s.copen s.popen
      ⟨fun h => (hcopen h).trans (Nat.le_add_right _ _), fun h => (hpopen h).trans (Nat.le_add_right _ _), hboth⟩
  | chkOpen type flags _ hp hfit =>
    exact hs.appended (bytes := [type, flags, 0, 0]) hfit s.len s.pstart true s.popen
      ⟨fun _ => le_rfl, fun h => absurd (hp.symm.trans h) nofun, fun _ h => absurd (hp.symm.trans h) nofun⟩
  | prmOpen type _ hfit =>
    have hbytes : (be16 type ++ [0, 0]).length = 4 := rfl
    exact hs.appended (bytes := be16 type ++ [0, 0]) (hbytes ▸ hfit) s.cstart s.len s.copen true
      ⟨fun h => (hcopen h).trans (Nat.le_add_right _ _), fun _ => le_rfl, fun h _ => hcopen h⟩
  | chkClose _ hp hfit =>
    exact (hs.bytesWritten (s.cstart.toNat + 2) (be16 (BitVec.ofNat 16 (s.len.toNat - s.cstart.toNat)))).appended
      (by rwa [List.length_replicate]) s.cstart s.pstart false s.popen
      ⟨nofun, fun h => absurd (hp.symm.trans h) nofun, nofun⟩
  | prmClose _ hfit =>
    exact (hs.bytesWritten (s.pstart.toNat + 2) (be16 (BitVec.ofNat 16 (s.len.toNat - s.pstart.toNat)))).appended
      (by rwa [List.length_replicate]) s.cstart s.pstart s.copen false
      ⟨fun h => (hcopen h).trans (Nat.le_add_right _ _), nofun, nofun⟩

theorem Inv.executed {s t : State} {i : Instr} (hs : Inv s) (h : exec i s = .next t) : Inv t := by
  cases exec_ran h with
  | nop | refused => exact hs
  | start => exact hs.started
  | faulted e _ hcause hkind => exact hs.fatal_entered (cause_ne_none_of_mem_causesOf hcause) hkind
  | completed _ herr hc => exact hs.completed herr hc

/-! ## The invariant, access by access -/

theorem Inv.faultOffered {s : State} (hs : Inv s) {e : Trap} (hcause : e.cause ≠ .none) (hkind : e.kind = causeKind e.cause) :
    Inv (Machine.fatalUnlessFatal e s) := by
  rw [fatalUnlessFatal_eq]
  split
  · exact hs.fatal_entered hcause hkind
  · exact hs

theorem Inv.lenWritten {s : State} (hs : Inv s) (v : Word) : Inv (writeLen v s) := by
  rw [writeLen_eq]
  split
  · next hv => exact inv_startActions hs.capacity hs.registry hs.buffer hv
  · split
    · exact hs.fatal_entered nofun rfl
    · exact hs

theorem Inv.regWritten {s : State} (hs : Inv s) (r : Reg) (v : Word) : Inv (writeReg r v s) := by
  cases r with
  | len => exact hs.lenWritten v
  | ctrl | srcPort | dstPort | vtag | cknown => exact hs.of_eq rfl
  | pknown i =>
    have hreg : RegistryLegal (Machine.writeReg (.pknown i) v s) := by
      unfold RegistryLegal
      rw [writeReg_nPreg]
      exact hs.registry
    exact ⟨hs.capacity, hreg, hs.buffer, hs.cursors, hs.chunkFrame, hs.paramFrame, hs.result0, hs.result1, hs.fatal,
      hs.openFrames, hs.error⟩
  | _ => exact hs

theorem Inv.wasReset {s : State} (hs : Inv s) : Inv (hostReset s) :=
  inv_reset_with (s.epoch + 1) s.pending s.hostRead hs.capacity (by rw [List.length_replicate]; exact hs.registry)

theorem Inv.taken {s t : State} (hs : Inv s) (h : Taken s t) : Inv t := by
  cases h with
  | read => exact hs.of_eq rfl
  | command i _ hi => exact hs.executed hi
  | illegal w => exact hs.faultOffered nofun rfl
  | register r v => exact hs.regWritten r v
  | ignored => exact hs
  | byte a b => exact hs.bytesWritten a [b]
  | reset => exact hs.wasReset

/-- Settles O54: taking an access off the list is no change to the invariant, and every access keeps it. -/
theorem everyStepKeepsTheInvariant : Obligations.EveryStepKeepsTheInvariant := by
  intro s t hs h
  obtain rfl | ⟨rest, htaken⟩ := step_taken h
  · exact hs
  · exact Inv.taken (s := { s with pending := rest }) (hs.of_eq rfl) htaken

end Sys2Proof.Machine
end

section
/-! Proofs of the statements on what commands depend on: a decode call on its inputs (10_state.md rule R29), and every command on the
registers and the bytes below `LEN` (20_memory.md rule R35(a)). -/

namespace Sys2Proof.Machine

open Sys2Proof.Statements

/-! ## Two runs of one command -/

/-- Two effects are the same fault, or two completions in related states. -/
def RelatedEffects (R : State → State → Prop) : Effect → Effect → Prop
  | .ok s, .ok t => R s t
  | .error e, .error f => e = f
  | _, _ => False

/-- Related states are taken to related states by a command whose rule has related effects on them. -/
theorem command_related {R : State → State → Prop} {rule : State → Effect} {s t s' t' : State} (hR : R s t) (herr : t.err = s.err)
    (hfatal : ∀ e, R (fatal e s) (fatal e t)) (hrule : RelatedEffects R (rule s) (rule t)) (hs : command rule s = .next s')
    (ht : command rule t = .next t') : R s' t' := by
  by_cases hf : s.err.kind = .none
  · cases hrs : rule s with
    | ok u =>
      cases hrt : rule t with
      | ok v =>
        rw [hrs, hrt] at hrule
        cases hs.symm.trans (command_ok hf hrs)
        cases ht.symm.trans (command_ok (herr ▸ hf) hrt)
        exact hrule
      | error f => rw [hrs, hrt] at hrule; exact hrule.elim
    | error e =>
      cases hrt : rule t with
      | ok v => rw [hrs, hrt] at hrule; exact hrule.elim
      | error f =>
        rw [hrs, hrt] at hrule
        cases (hrule : e = f)
        cases hs.symm.trans (command_error hf hrs)
        cases ht.symm.trans (command_error (herr ▸ hf) hrt)
        exact hfatal e
  · cases hs.symm.trans (command_fatal hf)
    cases ht.symm.trans (command_fatal (herr ▸ hf))
    exact hR

theorem relatedEffects_ite {R : State → State → Prop} {c d : Prop} [Decidable c] [Decidable d] {e f e' f' : Effect} (h : d ↔ c)
    (hthen : c → RelatedEffects R e e') (helse : ¬ c → RelatedEffects R f f') :
    RelatedEffects R (if c then e else f) (if d then e' else f') := by
  by_cases hc : c
  · rw [if_pos hc, if_pos (h.2 hc)]; exact hthen hc
  · rw [if_neg hc, if_neg (mt h.1 hc)]; exact helse hc

/-! ## The same inputs and the same call so far -/

/-- The two states agree on the inputs of a call and on what the call has produced. -/
structure SameCall (s t : State) : Prop where
  inputs : SameCallInputs s t
  view : callView t = callView s

/-- The two states have the same call view. -/
def SameView (s t : State) : Prop := callView t = callView s

/-- An update that writes the call view from the call view. -/
theorem sameView_of_update {f : State → State} (hf : ∀ (s t : State) (v : CallView), callView (f (t.withView v)) = callView (f (s.withView v)))
    {s t : State} (h : SameView s t) : SameView (f s) (f t) := by
  have hft := hf s t (callView s)
  rwa [State.withView_callView, ← (show callView t = callView s from h), State.withView_callView] at hft

theorem SameView.fatal {s t : State} (h : SameView s t) (e : Trap) : SameView (fatal e s) (fatal e t) :=
  sameView_of_update (f := Machine.fatal e) (fun _ _ _ => rfl) h

theorem SameView.setPos {s t : State} (h : SameView s t) (lv : Level) (p : Word) : SameView (s.setPos lv p) (t.setPos lv p) :=
  sameView_of_update (f := (·.setPos lv p)) (fun _ _ _ => by cases lv <;> rfl) h

theorem SameView.endWalk {s t : State} (h : SameView s t) (lv : Level) : SameView (endWalk s lv) (endWalk t lv) :=
  sameView_of_update (f := (Machine.endWalk · lv)) (fun _ _ _ => by cases lv <;> rfl) h

theorem SameView.setStop {s t : State} (h : SameView s t) (lv : Level) (v : Bool) : SameView (s.setStop lv v) (t.setStop lv v) :=
  sameView_of_update (f := (·.setStop lv v)) (fun _ _ _ => by cases lv <;> rfl) h

theorem SameView.returnFrame {s t : State} (h : SameView s t) (lv : Level) (ty : Half) (fl : Byte) (ln : Half) (vo : Word) (vl : Half)
    (nx : Word) (kn : Bool) : SameView (returnFrame s lv ty fl ln vo vl nx kn) (returnFrame t lv ty fl ln vo vl nx kn) :=
  sameView_of_update (f := (Machine.returnFrame · lv ty fl ln vo vl nx kn)) (fun _ _ _ => by cases lv <;> rfl) h

/-- R54: what a call starts with is a function of `LEN`. -/
theorem startActions_sameView {s t : State} (hlen : t.len = s.len) : SameView (startActions s) (startActions t) := by
  have hview (u : State) : callView (startActions u)
      = ⟨0, u.len, 0, u.len, .clear, .clear, 0, false, false, false, false, false, .none, .none, .clear⟩ := rfl
  rw [SameView, hview, hview, hlen]

theorem SameView.err {s t : State} (h : SameView s t) : t.err = s.err := congrArg CallView.err h

theorem SameView.level {s t : State} (h : SameView s t) (lv : Level) :
    t.pos lv = s.pos lv ∧ t.windowEnd lv = s.windowEnd lv ∧ t.stop lv = s.stop lv := by
  cases lv with
  | chunk => exact ⟨congrArg CallView.pos0 h, congrArg CallView.end0 h, congrArg CallView.stop0 h⟩
  | param => exact ⟨congrArg CallView.pos1 h, congrArg CallView.end1 h, congrArg CallView.stop1 h⟩

theorem SameView.frame {s t : State} (h : SameView s t) (lv : Level) : t.frameValid lv = s.frameValid lv
    ∧ t.frameKnown lv = s.frameKnown lv ∧ t.frameType lv = s.frameType lv ∧ t.frameVoff lv = s.frameVoff lv
    ∧ t.frameVlen lv = s.frameVlen lv := by
  have hcf : t.cf = s.cf := congrArg CallView.cf h
  have hpf : t.pf = s.pf := congrArg CallView.pf h
  cases lv with
  | chunk => simp only [State.frameValid, State.frameKnown, State.frameType, State.frameVoff, State.frameVlen, hcf, and_self]
  | param => simp only [State.frameValid, State.frameKnown, State.frameType, State.frameVoff, State.frameVlen, hpf, and_self]

theorem SameCallInputs.setPos {s t : State} (h : SameCallInputs s t) (lv : Level) (p : Word) :
    SameCallInputs (s.setPos lv p) (t.setPos lv p) := by
  cases lv <;> exact ⟨h.len, h.bytes, h.padTol, h.cknown, h.pknown⟩

theorem known_congr {s t : State} (hck : t.cknown = s.cknown) (hpk : t.pknown = s.pknown) (lv : Level) (ty : Half) :
    known t lv ty = known s lv ty := by
  cases lv with
  | chunk => simp only [known, chunkKnown, hck]
  | param => simp only [known, paramKnown, hpk]

/-- One pass of the loop on both states: they end in the same view, or skip the same frame. -/
theorem framePass_sameCall {s t : State} {lv : Level} (h : SameCall s t) (hend : (s.windowEnd lv).toNat ≤ s.len.toNat) :
    (∃ u v, framePass s lv = .stop u ∧ framePass t lv = .stop v ∧ SameView u v)
      ∨ ∃ p, framePass s lv = .skip (s.setPos lv p) ∧ framePass t lv = .skip (t.setPos lv p) := by
  obtain ⟨hin, hview⟩ := h
  replace hview : SameView s t := hview
  obtain ⟨hpos, hwin, hstop⟩ := hview.level lv
  have hparse : parseFrame t lv = parseFrame s lv :=
    parseFrame_congr hpos hwin hin.padTol fun a ha => hin.bytes a (by omega)
  cases hs : s.stop lv with
  | true => exact .inl ⟨_, _, framePass_of_stop hs, framePass_of_stop (hstop.trans hs), hview.endWalk lv⟩
  | false =>
    have ht : t.stop lv = false := hstop.trans hs
    cases hp : parseFrame s lv with
    | finished => exact .inl ⟨_, _, framePass_of_finished hs hp, framePass_of_finished ht (hparse.trans hp), hview.endWalk lv⟩
    | bad kind cause info =>
      exact .inl ⟨_, _, framePass_of_bad hs hp, framePass_of_bad ht (hparse.trans hp), hview.fatal _⟩
    | frame ty fl ln vo vl nx =>
      have hknown := known_congr hin.cknown hin.pknown lv ty
      cases hk : known s lv ty with
      | true =>
        exact .inl ⟨_, _, framePass_of_known hs hp hk, framePass_of_known ht (hparse.trans hp) (hknown.trans hk),
          hview.returnFrame ..⟩
      | false =>
        rw [framePass_of_unknown hs hp hk, framePass_of_unknown ht (hparse.trans hp) (hknown.trans hk), policy, policy]
        split
        · exact .inl ⟨_, _, rfl, rfl, hview.fatal _⟩
        · split
          · exact .inl ⟨_, _, rfl, rfl, (hview.setStop lv true).endWalk lv⟩
          · split
            · exact .inr ⟨nx, rfl, rfl⟩
            · exact .inl ⟨_, _, rfl, rfl, hview.returnFrame ..⟩

/-- R29 for the framing loop. -/
theorem nextFrame_sameView {lv : Level} {s t : State} (h : SameCall s t) (hend : (s.windowEnd lv).toNat ≤ s.len.toNat) :
    SameView (nextFrame lv s) (nextFrame lv t) := by
  revert t
  refine nextFrame_induct (P := fun s u => (s.windowEnd lv).toNat ≤ s.len.toNat → ∀ {t}, SameCall s t → SameView u (nextFrame lv t))
    (fun s u hpass hend t h => ?stop) (fun s s' u hpass ih hend t h => ?skip) s hend
  case stop =>
    obtain ⟨u', v, hu, hv, hview⟩ | ⟨p, hp, -⟩ := framePass_sameCall h hend
    · cases hpass.symm.trans hu
      rw [nextFrame_eq, hv]
      exact hview
    · cases hpass.symm.trans hp
  case skip =>
    obtain ⟨u', v, hu, -⟩ | ⟨p, hp, hp'⟩ := framePass_sameCall h hend
    · cases hpass.symm.trans hu
    · cases hpass.symm.trans hp
      rw [nextFrame_eq, hp']
      exact ih (by rwa [State.setPos_windowEnd, State.setPos_len]) ⟨h.inputs.setPos lv p, SameView.setPos h.view lv p⟩

/-! ## The decode commands -/

theorem rd16_congr {s t : State} {a : Nat} (h : ∀ x, a ≤ x → x < a + 2 → bufRead t x = bufRead s x) : rd16 t a = rd16 s a := by
  rw [rd16, rd16, h a, h (a + 1)] <;> omega

/-- R27(b): the value in hand lies behind the level's cursor, so below `LEN`. -/
theorem Inv.value_below_len {s : State} (hs : Inv s) {lv : Level} (hvalid : s.frameValid lv = true) :
    (s.frameVoff lv).toNat + (s.frameVlen lv).toNat ≤ s.len.toNat := by
  have hpos := hs.pos_le_windowEnd lv
  have hend := hs.windowEnd_le lv
  cases lv with
  | chunk =>
    obtain ⟨-, -, -, hin⟩ := hs.chunkFrame.1 hvalid
    exact (Nat.le_of_add_right_le hin).trans (hpos.trans hend)
  | param =>
    obtain ⟨-, -, -, hin⟩ := hs.paramFrame.1 hvalid
    exact (Nat.le_of_add_right_le hin).trans (hpos.trans hend)

theorem extractField_sameView {s t : State} (i : Instr) {lv : Level} {off : Half} {n : Nat} {read : State → Nat → Word} (hs : Inv s)
    (h : SameCall s t) (hread : ∀ a, (∀ x, a ≤ x → x < a + n → bufRead t x = bufRead s x) → read t a = read s a) :
    RelatedEffects SameView (extractField i lv off n (read s (valueOffset s lv off)) s)
      (extractField i lv off n (read t (valueOffset t lv off)) t) := by
  obtain ⟨hvalid, -, -, hvoff, hvlen⟩ := SameView.frame h.view lv
  have hoffset : valueOffset t lv off = valueOffset s lv off := by rw [valueOffset, valueOffset, hvoff]
  rw [extractField_eq, extractField_eq, hvlen, hoffset]
  refine relatedEffects_ite (by rw [hvalid]) (fun hv => relatedEffects_ite Iff.rfl (fun _ => rfl) fun hin => ?_) fun _ => rfl
  have hbelow := hs.value_below_len hv
  rw [hread (valueOffset s lv off) fun x _ hx => h.inputs.bytes x (by unfold valueOffset at hx; omega)]
  exact sameView_of_update (f := fun u => { u with val := read s (valueOffset s lv off) }) (fun _ _ _ => rfl) h.view

theorem rejectValue_sameView {s t : State} (i : Instr) (kind : ErrKind) (cause : ErrCause) (lv : Level) (h : SameView s t) :
    RelatedEffects SameView (rejectValue i kind cause lv s) (rejectValue i kind cause lv t) := by
  obtain ⟨hvalid, hknown, htype, hvoff, -⟩ := h.frame lv
  unfold rejectValue frameStart
  rw [hvalid, hknown, htype, hvoff]
  exact relatedEffects_ite Iff.rfl (fun _ => rfl) fun _ => rfl

/-- R64: the checksum depends on `LEN` and the bytes below it. -/
theorem packetChecksum_sameInputs {s t : State} (hlen : t.len = s.len) (hbytes : ∀ a, a < s.len.toNat → bufRead t a = bufRead s a)
    (h12 : 12 ≤ s.len.toNat) : packetChecksum t = packetChecksum s ∧ rd32 t 8 = rd32 s 8 := by
  have hbefore : bufBytes t 0 8 = bufBytes s 0 8 := bufBytes_congr fun a _ _ => hbytes a (by omega)
  have hbehind : bufBytes t 12 (s.len.toNat - 12) = bufBytes s 12 (s.len.toNat - 12) := bufBytes_congr fun a _ _ => hbytes a (by omega)
  exact ⟨by rw [packetChecksum, packetChecksum, hlen, hbefore, hbehind], rd32_eq_iff.2 fun x _ _ => hbytes x (by omega)⟩

/-- R29 for one command. -/
theorem exec_sameView {i : Instr} {s t s' t' : State} (hi : decodeCommand i = true) (hs : Inv s) (h : SameCall s t)
    (hs' : exec i s = .next s') (ht' : exec i t = .next t') : SameView s' t' := by
  obtain ⟨hin, hview⟩ := h
  have h : SameCall s t := ⟨hin, hview⟩
  replace hview : SameView s t := hview
  have hrelated {rule : State → Effect} (hrule : RelatedEffects SameView (rule s) (rule t)) (hs' : command rule s = .next s')
      (ht' : command rule t = .next t') : SameView s' t' :=
    command_related hview hview.err hview.fatal hrule hs' ht'
  obtain ⟨hpos, hwin, -⟩ := hview.level .chunk
  cases i with
  | nop => cases hs'; cases ht'; exact hview
  | start =>
    cases hs'; cases ht'
    exact startActions_sameView hin.len
  | chkNext => exact hrelated (rule := fun s => .ok (nextFrame .chunk s)) (nextFrame_sameView h (hs.windowEnd_le .chunk)) hs' ht'
  | prmNext => exact hrelated (rule := fun s => .ok (nextFrame .param s)) (nextFrame_sameView h (hs.windowEnd_le .param)) hs' ht'
  | hdrDec =>
    rw [exec, execHdrDec] at hs' ht'
    refine hrelated ?_ hs' ht'
    have hpos0 : t.pos0 = s.pos0 := hpos
    have hvalid : t.hdrValid = s.hdrValid := congrArg CallView.hdrValid hview
    have hrem : curRemaining t .chunk = curRemaining s .chunk := by rw [curRemaining, curRemaining, hpos, hwin]
    refine relatedEffects_ite (by rw [hpos0, hvalid]) (fun _ => rfl) fun _ => ?_
    by_cases h12 : 12 ≤ curRemaining s .chunk
    · rw [curRead_of_le h12, curRead_of_le (hrem ▸ h12), hpos]
      exact sameView_of_update (f := fun u => loadHeader (u.setPos .chunk _) _) (fun _ _ _ => rfl) hview
    · rw [curRead_of_lt (not_le.1 h12), curRead_of_lt (hrem ▸ not_le.1 h12), hpos0]
      rfl
  | csumVerify =>
    rw [exec, execCsumVerify] at hs' ht'
    refine hrelated ?_ hs' ht'
    rw [hin.len]
    refine relatedEffects_ite Iff.rfl (fun _ => rfl) fun hlen => ?_
    have h12 : 12 ≤ s.len.toNat := not_lt.1 hlen
    obtain ⟨hsum, hword⟩ := packetChecksum_sameInputs hin.len hin.bytes h12
    rw [packetCrc_eq h12, packetCrc_eq (hin.len ▸ h12), hsum, hword]
    exact sameView_of_update (f := fun u => { u with ckDone := true, ckBad := decide (packetChecksum s ≠ rd32 s 8) })
      (fun _ _ _ => rfl) hview
  | prmEnter k =>
    rw [exec, execPrmEnter] at hs' ht'
    have hcf : t.cf = s.cf := congrArg CallView.cf hview
    refine hrelated ?_ hs' ht'
    rw [hcf]
    refine relatedEffects_ite Iff.rfl (fun _ => rfl) fun _ => relatedEffects_ite Iff.rfl (fun _ => rfl) fun _ => ?_
    exact sameView_of_update (f := enterParams k) (fun _ _ _ => rfl) hview
  | valU8 lv off =>
    rw [exec, execValU8] at hs' ht'
    refine hrelated ?_ hs' ht'
    refine extractField_sameView _ (read := fun s a => (rd8 s a).setWidth 32) hs h fun a ha => ?_
    rw [rd8, rd8, ha a le_rfl (by omega)]
  | valU16 lv off =>
    rw [exec, execValU16] at hs' ht'
    refine hrelated ?_ hs' ht'
    refine extractField_sameView _ (read := fun s a => (rd16 s a).setWidth 32) hs h fun a ha => ?_
    rw [rd16_congr ha]
  | valU32 lv off =>
    rw [exec, execValU32] at hs' ht'
    refine hrelated ?_ hs' ht'
    exact extractField_sameView _ (read := rd32) hs h fun a ha => rd32_eq_iff.2 ha
  | valReject lv =>
    rw [exec, execValReject] at hs' ht'
    refine hrelated ?_ hs' ht'
    exact rejectValue_sameView _ _ _ lv hview
  | valBadlen lv =>
    rw [exec, execValBadlen] at hs' ht'
    refine hrelated ?_ hs' ht'
    exact rejectValue_sameView _ _ _ lv hview
  | crcInit | crcByte | crcFin | hdrEnc | csumPatch | bufPut | chkOpen | chkClose | prmOpen | prmClose => cases hi

/-- A decode command writes no byte. -/
theorem exec_decode_keeps_bytes {i : Instr} {s t : State} (hi : decodeCommand i = true) (h : exec i s = .next t) (a : Nat) :
    bufRead t a = bufRead s a := by
  cases exec_ran h with
  | nop | start | refused | faulted => exact bufRead_congr rfl rfl rfl a
  | completed _ _ hc =>
    cases hc with
    | chkNext => exact bufRead_nextFrame .chunk s a
    | prmNext => exact bufRead_nextFrame .param s a
    | hdrDec | csumVerify | prmEnter | valU8 | valU16 | valU32 => exact bufRead_congr rfl rfl rfl a
    | _ => cases hi

theorem exec_decode_keeps_len {i : Instr} {s t : State} (hi : decodeCommand i = true) (h : exec i s = .next t) : t.len = s.len :=
  exec_keeps_len (by cases i <;> first | rfl | cases hi) h

theorem exec_sameCall {i : Instr} {s t s' t' : State} (hi : decodeCommand i = true) (hs : Inv s) (h : SameCall s t)
    (hs' : exec i s = .next s') (ht' : exec i t = .next t') : SameCall s' t' := by
  obtain ⟨⟨hpad, hck, hpk, -⟩, -⟩ := exec_sameConfiguration hs'
  obtain ⟨⟨hpad', hck', hpk', -⟩, -⟩ := exec_sameConfiguration ht'
  have hlen := exec_decode_keeps_len hi hs'
  refine ⟨⟨?_, fun a ha => ?_, ?_, ?_, ?_⟩, exec_sameView hi hs h hs' ht'⟩
  · rw [exec_decode_keeps_len hi ht', hlen, h.inputs.len]
  · rw [exec_decode_keeps_bytes hi ht', exec_decode_keeps_bytes hi hs', h.inputs.bytes a (hlen ▸ ha)]
  · rw [hpad', hpad, h.inputs.padTol]
  · rw [hck', hck, h.inputs.cknown]
  · rw [hpk', hpk, h.inputs.pknown]

theorem runCommands_cons {i : Instr} {is : List Instr} {s t : State} (h : exec i s = .next t) :
    runCommands (i :: is) s = runCommands is t := by rw [runCommands, h]

/-- R29 along a sequence of decode commands. -/
theorem runCommands_sameView {cmds : List Instr} (hcmds : ∀ i ∈ cmds, decodeCommand i = true) :
    ∀ {s t : State}, Inv s → SameCall s t → callView (runCommands cmds s) = callView (runCommands cmds t) := by
  induction cmds with
  | nil => exact fun _ h => h.view.symm
  | cons i is ih =>
    intro s t hs h
    obtain ⟨hi, his⟩ := List.forall_mem_cons.1 hcmds
    obtain ⟨s', hs'⟩ := exec_next i s
    obtain ⟨t', ht'⟩ := exec_next i t
    rw [runCommands_cons hs', runCommands_cons ht']
    exact ih his (hs.executed hs') (exec_sameCall hi hs h hs' ht')

/-- Settles O60: `START` makes the views equal, and each command keeps them so. -/
theorem decodeCallDependsOnItsInputsOnly : Obligations.DecodeCallDependsOnItsInputsOnly := by
  intro cmds s t hcmds hs h
  rw [runCommands_cons (exec_start s), runCommands_cons (exec_start t)]
  exact runCommands_sameView hcmds hs.started
    ⟨⟨h.len, h.bytes, h.padTol, h.cknown, h.pknown⟩, startActions_sameView h.len⟩

/-! ## All commands and the bytes below `LEN` -/

/-- The other state is the first with another buffer and epoch. -/
theorem AgreeBelowLen.eq_with {s t : State} (h : AgreeBelowLen s t) : ∃ m e, t = { s with buf := m, epoch := e } :=
  ⟨t.buf, t.epoch, h.registers⟩

theorem AgreeBelowLen.sameCall {s t : State} (h : AgreeBelowLen s t) : SameCall s t := by
  obtain ⟨m, e, rfl⟩ := h.eq_with
  exact ⟨⟨rfl, h.bytes, rfl, rfl, rfl⟩, rfl⟩

/-- An update of registers alone, from registers alone, keeps the agreement. -/
theorem AgreeBelowLen.update {f : State → State} (hf : ∀ (s : State) (m : Memory) (e : Nat),
      f { s with buf := m, epoch := e } = { f s with buf := m, epoch := e })
    (hkeeps : ∀ s, (f s).buf = s.buf ∧ (f s).epoch = s.epoch ∧ (f s).maxPacket = s.maxPacket ∧ (f s).len = s.len) {s t : State}
    (h : AgreeBelowLen s t) : AgreeBelowLen (f s) (f t) := by
  have hread (u : State) (a : Nat) : bufRead (f u) a = bufRead u a := by
    obtain ⟨hbuf, hepoch, hmax, -⟩ := hkeeps u
    exact bufRead_congr hbuf hmax hepoch a
  obtain ⟨-, -, -, hlen⟩ := hkeeps s
  refine ⟨?_, fun a ha => by rw [hread, hread]; exact h.bytes a (hlen ▸ ha)⟩
  obtain ⟨m, e, rfl⟩ := h.eq_with
  rw [hf]

theorem AgreeBelowLen.setPos {s t : State} (h : AgreeBelowLen s t) (lv : Level) (p : Word) :
    AgreeBelowLen (s.setPos lv p) (t.setPos lv p) :=
  h.update (f := (·.setPos lv p)) (fun _ _ _ => by cases lv <;> rfl) fun _ => by cases lv <;> exact ⟨rfl, rfl, rfl, rfl⟩

/-- A header below `LEN` reads the same. -/
theorem AgreeBelowLen.loadHeader {s t : State} (h : AgreeBelowLen s t) {a : Nat} (ha : a + 12 ≤ s.len.toNat) :
    AgreeBelowLen (loadHeader s a) (loadHeader t a) := by
  have hsrc : rd16 t a = rd16 s a := rd16_congr fun x _ _ => h.bytes x (by omega)
  have hdst : rd16 t (a + 2) = rd16 s (a + 2) := rd16_congr fun x _ _ => h.bytes x (by omega)
  have htag : rd32 t (a + 4) = rd32 s (a + 4) := rd32_eq_iff.2 fun x _ _ => h.bytes x (by omega)
  have hsum : rd32 t (a + 8) = rd32 s (a + 8) := rd32_eq_iff.2 fun x _ _ => h.bytes x (by omega)
  rw [Machine.loadHeader, Machine.loadHeader, hsrc, hdst, htag, hsum]
  exact h.update (f := fun u => { u with
    srcPort := rd16 s a, dstPort := rd16 s (a + 2), vtag := rd32 s (a + 4), cksum := rd32 s (a + 8), hdrValid := true })
    (fun _ _ _ => rfl) fun _ => ⟨rfl, rfl, rfl, rfl⟩

/-- The same bytes written at the same offset leave the same bytes below `LEN`. -/
theorem AgreeBelowLen.bufWrite {s t : State} (h : AgreeBelowLen s t) (a : Nat) (bytes : List Byte)
    (hcap : s.len.toNat ≤ s.maxPacket) : AgreeBelowLen (bufWrite a bytes s) (bufWrite a bytes t) := by
  have hmax : t.maxPacket = s.maxPacket := by rw [h.registers]
  refine ⟨?_, fun x hx => ?_⟩
  · obtain ⟨m, e, rfl⟩ := h.eq_with
    rfl
  · rw [bufWrite_len] at hx
    by_cases hin : a ≤ x ∧ x < a + bytes.length
    · rw [bufRead_bufWrite_inside hin.1 hin.2 (by omega), bufRead_bufWrite_inside hin.1 hin.2 (by omega)]
    · rw [bufRead_bufWrite_outside (by omega), bufRead_bufWrite_outside (by omega), h.bytes x hx]

theorem AgreeBelowLen.pushBytes {s t : State} (hs : Inv s) (h : AgreeBelowLen s t) {bytes : List Byte}
    (hfit : s.len.toNat + bytes.length ≤ s.maxPacket) : AgreeBelowLen (pushBytes bytes s) (pushBytes bytes t) := by
  have hlen : t.len = s.len := h.sameCall.inputs.len
  have hmax : t.maxPacket = s.maxPacket := by rw [h.registers]
  refine ⟨?_, fun x hx => ?_⟩
  · obtain ⟨m, e, rfl⟩ := h.eq_with
    rfl
  · rw [pushBytes_len_toNat hs.capacity.2 hfit] at hx
    rw [bufRead_pushBytes, bufRead_pushBytes, hlen]
    by_cases hin : s.len.toNat ≤ x
    · rw [bufRead_bufWrite_inside hin hx (by omega), bufRead_bufWrite_inside hin hx (by omega)]
    · rw [bufRead_bufWrite_outside (by omega), bufRead_bufWrite_outside (by omega), h.bytes x (by omega)]

theorem appendThen_agree {s t : State} (hs : Inv s) (h : AgreeBelowLen s t) (bytes : List Byte) {done done' : State → State}
    (hdone : ∀ {u v}, AgreeBelowLen u v → AgreeBelowLen (done u) (done' v)) :
    RelatedEffects AgreeBelowLen (appendThen bytes done s) (appendThen bytes done' t) := by
  have hlen : t.len = s.len := h.sameCall.inputs.len
  have hmax : t.maxPacket = s.maxPacket := by rw [h.registers]
  rw [appendThen_eq, appendThen_eq, hlen, hmax]
  exact relatedEffects_ite Iff.rfl (fun hfit => hdone (h.pushBytes hs hfit)) fun _ => rfl

theorem closeFrame_agree {s t : State} (hs : Inv s) (h : AgreeBelowLen s t) (start : Word) {done : State → State}
    (hdone : ∀ {u v}, AgreeBelowLen u v → AgreeBelowLen (done u) (done v)) :
    RelatedEffects AgreeBelowLen (closeFrame start done s) (closeFrame start done t) := by
  have hlen : t.len = s.len := h.sameCall.inputs.len
  have hmax : t.maxPacket = s.maxPacket := by rw [h.registers]
  obtain ⟨-, -, -, -, hcap⟩ := hs.cursors
  rw [closeFrame_eq, closeFrame_eq, hlen, hmax]
  refine relatedEffects_ite Iff.rfl (fun _ => rfl) fun _ => relatedEffects_ite Iff.rfl (fun hfit => hdone ?_) fun _ => rfl
  exact (h.bufWrite _ _ hcap).pushBytes (hs.bytesWritten _ _) (by rwa [List.length_replicate])

/-- The decode commands that write nothing outside the call view. -/
theorem exec_decode_frame {i : Instr} {s t : State} (hi : decodeCommand i = true) (hstart : i ≠ .start) (hhdr : i ≠ .hdrDec) (hsum : i ≠ .csumVerify)
    (h : exec i s = .next t) : t = s.withView (callView t) := by
  cases exec_ran h with
  | nop | refused | faulted => rfl
  | start hi => exact absurd hi hstart
  | completed _ _ hc =>
    cases hc with
    | chkNext => exact nextFrame_frame .chunk s
    | prmNext => exact nextFrame_frame .param s
    | prmEnter | valU8 | valU16 | valU32 => rfl
    | hdrDec => exact absurd rfl hhdr
    | csumVerify => exact absurd rfl hsum
    | _ => cases hi

theorem exec_decode_agree {i : Instr} {s t s' t' : State} (hi : decodeCommand i = true) (hstart : i ≠ .start)
    (hhdr : i ≠ .hdrDec) (hsum : i ≠ .csumVerify) (hs : Inv s) (h : AgreeBelowLen s t) (hs' : exec i s = .next s') (ht' : exec i t = .next t') : AgreeBelowLen s' t' := by
  have hview := exec_sameView hi hs h.sameCall hs' ht'
  refine ⟨?_, (exec_sameCall hi hs h.sameCall hs' ht').inputs.bytes⟩
  have hframe := exec_decode_frame hi hstart hhdr hsum hs'
  have hframe' := exec_decode_frame hi hstart hhdr hsum ht'
  rw [show callView t' = callView s' from hview] at hframe'
  obtain ⟨m, e, rfl⟩ := h.eq_with
  rw [hframe', hframe]
  rfl

/-- Settles O55: the decode commands by R29's argument and their frame; the others command by command, their rules being the same
updates of registers and the same writes of bytes in both states. -/
theorem noCommandReadsBeyondLen : Obligations.NoCommandReadsBeyondLen := by
  intro i s t s' t' hs h hs' ht'
  have hrelated {rule : State → Effect} (hrule : RelatedEffects AgreeBelowLen (rule s) (rule t)) (hs' : command rule s = .next s')
      (ht' : command rule t = .next t') : AgreeBelowLen s' t' :=
    command_related h (by rw [h.registers]) (fun e => h.update (f := fatal e) (fun _ _ _ => rfl) fun _ => ⟨rfl, rfl, rfl, rfl⟩) hrule hs' ht'
  have hlen : t.len = s.len := h.sameCall.inputs.len
  have hcopen : t.copen = s.copen := by rw [h.registers]
  have hpopen : t.popen = s.popen := by rw [h.registers]
  cases i with
  | start =>
    cases hs'; cases ht'
    exact h.update (f := startActions) (fun _ _ _ => rfl) fun _ => ⟨rfl, rfl, rfl, rfl⟩
  | nop | chkNext | prmEnter | prmNext | valU8 | valU16 | valU32 | valReject | valBadlen =>
    exact exec_decode_agree (by rfl) (by nofun) (by nofun) (by nofun) hs h hs' ht'
  | crcInit =>
    rw [exec, execCrcInit] at hs' ht'
    refine hrelated ?_ hs' ht'
    exact h.update (f := fun s => { s with crcAcc := crcOnes }) (fun _ _ _ => rfl) fun _ => ⟨rfl, rfl, rfl, rfl⟩
  | crcByte b =>
    rw [exec, execCrcByte] at hs' ht'
    refine hrelated ?_ hs' ht'
    exact h.update (f := fun s => { s with crcAcc := crcUpd s.crcAcc b }) (fun _ _ _ => rfl) fun _ => ⟨rfl, rfl, rfl, rfl⟩
  | crcFin =>
    rw [exec, execCrcFin] at hs' ht'
    refine hrelated ?_ hs' ht'
    exact h.update (f := fun s => { s with crcOut := s.crcAcc ^^^ crcOnes }) (fun _ _ _ => rfl) fun _ => ⟨rfl, rfl, rfl, rfl⟩
  | hdrDec =>
    rw [exec, execHdrDec] at hs' ht'
    refine hrelated ?_ hs' ht'
    obtain ⟨hpos, hwin, -⟩ := SameView.level h.sameCall.view .chunk
    have hpos0 : t.pos0 = s.pos0 := hpos
    have hrem : curRemaining t .chunk = curRemaining s .chunk := by rw [curRemaining, curRemaining, hpos, hwin]
    rw [hpos0, show t.hdrValid = s.hdrValid by rw [h.registers]]
    refine relatedEffects_ite Iff.rfl (fun _ => rfl) fun _ => ?_
    by_cases h12 : 12 ≤ curRemaining s .chunk
    · rw [curRead_of_le h12, curRead_of_le (hrem ▸ h12), hpos]
      obtain ⟨hle, -⟩ := pos_add_remaining (by decide) h12
      exact (h.setPos .chunk _).loadHeader (hle.trans (hs.windowEnd_le .chunk))
    · rw [curRead_of_lt (not_le.1 h12), curRead_of_lt (hrem ▸ not_le.1 h12)]
      rfl
  | csumVerify =>
    rw [exec, execCsumVerify] at hs' ht'
    refine hrelated ?_ hs' ht'
    rw [hlen]
    refine relatedEffects_ite Iff.rfl (fun _ => rfl) fun hshort => ?_
    have h12 : 12 ≤ s.len.toNat := not_lt.1 hshort
    obtain ⟨hsum, hword⟩ := packetChecksum_sameInputs hlen h.bytes h12
    rw [packetCrc_eq h12, packetCrc_eq (hlen ▸ h12), hsum, hword]
    exact h.update (f := fun u => { u with
      crcAcc := packetChecksum s ^^^ crcOnes, crcOut := packetChecksum s, ckDone := true
      ckBad := decide (packetChecksum s ≠ rd32 s 8) }) (fun _ _ _ => rfl) fun _ => ⟨rfl, rfl, rfl, rfl⟩
  | hdrEnc =>
    rw [exec, execHdrEnc] at hs' ht'
    refine hrelated ?_ hs' ht'
    rw [hlen, show headerBytes t = headerBytes s by rw [h.registers]; rfl]
    refine relatedEffects_ite Iff.rfl (fun _ => rfl) fun hzero => h.pushBytes hs ?_
    obtain ⟨hcap, -⟩ := hs.capacity
    rw [headerBytes_length, not_not.1 hzero]
    exact (Nat.zero_add 12).symm ▸ hcap
  | csumPatch =>
    rw [exec, execCsumPatch] at hs' ht'
    refine hrelated ?_ hs' ht'
    rw [hcopen, hpopen, hlen]
    refine relatedEffects_ite Iff.rfl (fun _ => rfl) fun _ => relatedEffects_ite Iff.rfl (fun _ => rfl) fun hshort => ?_
    have h12 : 12 ≤ s.len.toNat := not_lt.1 hshort
    obtain ⟨hsum, -⟩ := packetChecksum_sameInputs hlen h.bytes h12
    obtain ⟨-, -, -, -, hcap⟩ := hs.cursors
    rw [packetCrc_eq h12, packetCrc_eq (hlen ▸ h12), hsum]
    exact (h.bufWrite 8 (be32 (packetChecksum s)) hcap).update (f := fun u => { u with
      cksum := packetChecksum s, crcAcc := packetChecksum s ^^^ crcOnes, crcOut := packetChecksum s })
      (fun _ _ _ => rfl) fun _ => ⟨rfl, rfl, rfl, rfl⟩
  | bufPut b =>
    rw [exec, execBufPut] at hs' ht'
    exact hrelated (appendThen_agree hs h [b] id) hs' ht'
  | chkOpen type flags =>
    rw [exec, execChkOpen] at hs' ht'
    refine hrelated ?_ hs' ht'
    rw [hcopen, hpopen, hlen]
    refine relatedEffects_ite Iff.rfl (fun _ => rfl) fun _ => appendThen_agree hs h _ fun hu => ?_
    exact hu.update (f := fun u => { u with cstart := s.len, copen := true }) (fun _ _ _ => rfl) fun _ => ⟨rfl, rfl, rfl, rfl⟩
  | chkClose =>
    rw [exec, execChkClose] at hs' ht'
    refine hrelated ?_ hs' ht'
    rw [hcopen, hpopen, show t.cstart = s.cstart by rw [h.registers]]
    refine relatedEffects_ite Iff.rfl (fun _ => rfl) fun _ => closeFrame_agree hs h _ fun hu => ?_
    exact hu.update (f := fun u => { u with copen := false }) (fun _ _ _ => rfl) fun _ => ⟨rfl, rfl, rfl, rfl⟩
  | prmOpen type =>
    rw [exec, execPrmOpen] at hs' ht'
    refine hrelated ?_ hs' ht'
    rw [hpopen, hlen]
    refine relatedEffects_ite Iff.rfl (fun _ => rfl) fun _ => appendThen_agree hs h _ fun hu => ?_
    exact hu.update (f := fun u => { u with pstart := s.len, popen := true }) (fun _ _ _ => rfl) fun _ => ⟨rfl, rfl, rfl, rfl⟩
  | prmClose =>
    rw [exec, execPrmClose] at hs' ht'
    refine hrelated ?_ hs' ht'
    rw [hpopen, show t.pstart = s.pstart by rw [h.registers]]
    refine relatedEffects_ite Iff.rfl (fun _ => rfl) fun _ => closeFrame_agree hs h _ fun hu => ?_
    exact hu.update (f := fun u => { u with popen := false }) (fun _ _ _ => rfl) fun _ => ⟨rfl, rfl, rfl, rfl⟩

end Sys2Proof.Machine
end

section
/-! Proofs of the statements on walks over frames on the wire (30_encoding.md rules R41 to R43, 43_tlv_decode.md rules R87 to R90). -/

namespace Sys2Proof.Machine

open Sys2Proof.Statements

/-! ## Runs of bytes in the buffer -/

@[simp] theorem bufBytes_length (s : State) (a n : Nat) : (bufBytes s a n).length = n := by simp [bufBytes]

theorem bufBytes_add (s : State) (a m n : Nat) : bufBytes s a (m + n) = bufBytes s a m ++ bufBytes s (a + m) n := by
  simp [bufBytes, List.range_add, Nat.add_assoc, Function.comp_def]

/-- A run that holds two lists holds the second behind the first. -/
theorem bufBytes_eq_append {s : State} {a n : Nat} {xs ys : List Byte} (h : bufBytes s a n = xs ++ ys) :
    n = xs.length + ys.length ∧ bufBytes s a xs.length = xs ∧ bufBytes s (a + xs.length) ys.length = ys := by
  have hn : n = xs.length + ys.length := by simpa using congrArg List.length h
  rw [hn, bufBytes_add] at h
  obtain ⟨hxs, hys⟩ := List.append_inj h (bufBytes_length s a xs.length)
  exact ⟨hn, hxs, hys⟩

theorem bufRead_of_bufBytes_replicate {s : State} {a n j : Nat} {b : Byte} (h : bufBytes s a n = List.replicate n b) (hj : j < n) :
    bufRead s (a + j) = b := by
  have hmem : bufRead s (a + j) ∈ bufBytes s a n := List.mem_map.2 ⟨j, List.mem_range.2 hj, rfl⟩
  rw [h] at hmem
  exact List.eq_of_mem_replicate hmem

/-! ## A frame on the wire -/

/-- R41 to R43: a frame with its two leading bytes (a chunk's type and flags, a parameter's type), its value and its padding. -/
def frameBytes (header value : List Byte) : List Byte :=
  header ++ be16 (BitVec.ofNat 16 (4 + value.length)) ++ value ++ List.replicate (pad (4 + value.length)) 0

theorem chunkBytes_eq (c : ChunkPlan) : chunkBytes c = frameBytes [c.type, c.flags] (chunkValue c) := rfl

theorem paramBytes_eq (p : ParamImage) : paramBytes p = frameBytes (be16 p.type) p.value := rfl

theorem be16_length (v : Half) : (be16 v).length = 2 := rfl

theorem frameBytes_length {header value : List Byte} (h : header.length = 2) :
    (frameBytes header value).length = 4 + value.length + pad (4 + value.length) := by
  simp only [frameBytes, List.length_append, List.length_replicate, be16_length, h]

/-- What a frame on the wire at the cursor of a level comes to for the decoder, and what stands behind it. -/
structure FrameAtCursor (s : State) (lv : Level) (header value rest : List Byte) : Prop where
  header : bufBytes s (s.pos lv).toNat 2 = header
  body : bufBytes s (s.pos lv + 4).toNat (rd16 s ((s.pos lv).toNat + 2) - 4).toNat = value
  framed : wellFramed s lv
  valueEnd : (s.pos lv + 4).toNat + value.length ≤ (s.windowEnd lv).toNat
  rest : bufBytes s (frameNext s lv).toNat ((s.windowEnd lv).toNat - (frameNext s lv).toNat) = rest

theorem frameAtCursor {s : State} {lv : Level} {header value rest : List Byte} (hheader : header.length = 2)
    (hlen : 4 + value.length ≤ 65535)
    (h : bufBytes s (s.pos lv).toNat (curRemaining s lv) = frameBytes header value ++ rest) :
    FrameAtCursor s lv header value rest := by
  have hsize := frameBytes_length (value := value) hheader
  obtain ⟨hrem, hframe, hrest⟩ := bufBytes_eq_append h
  rw [frameBytes] at hframe
  obtain ⟨-, hbody, hpad⟩ := bufBytes_eq_append hframe
  obtain ⟨-, hhead, hvalue⟩ := bufBytes_eq_append hbody
  obtain ⟨-, htype, hlength⟩ := bufBytes_eq_append hhead
  simp only [List.length_append, List.length_replicate, be16_length, hheader] at hpad hvalue htype hlength
  have hfield : rd16 s ((s.pos lv).toNat + 2) = BitVec.ofNat 16 (4 + value.length) := rd16_of_bufBytes_eq_be16 hlength
  have hframeLen : frameLen s lv = 4 + value.length := by
    rw [frameLen, hfield, BitVec.toNat_ofNat]; exact Nat.mod_eq_of_lt (by omega)
  have hinside : 4 + value.length + pad (4 + value.length) ≤ curRemaining s lv := by omega
  obtain ⟨hend, hlt⟩ := pos_add_remaining (by omega) hinside
  have hnext : (frameNext s lv).toNat = (s.pos lv).toNat + (4 + value.length) + pad (4 + value.length) := by
    rw [frameNext, hframeLen, BitVec.toNat_ofNat]; exact Nat.mod_eq_of_lt (by omega)
  have hvoff : (s.pos lv + 4).toNat = (s.pos lv).toNat + 4 := by
    rw [← ofNat_pos_add_four, BitVec.toNat_ofNat]; exact Nat.mod_eq_of_lt (by omega)
  have hvlen : (rd16 s ((s.pos lv).toNat + 2) - 4).toNat = value.length := by
    have hfour : (4 : Half).toNat = 4 := rfl
    have hfield' : (rd16 s ((s.pos lv).toNat + 2)).toNat = 4 + value.length := hframeLen
    rw [BitVec.toNat_sub_of_le (by rw [BitVec.le_def]; omega)]
    omega
  have hzero : ∀ j, j < pad (frameLen s lv) → bufRead s ((s.pos lv).toNat + frameLen s lv + j) = 0 := by
    rw [hframeLen, show (s.pos lv).toNat + (4 + value.length) = (s.pos lv).toNat + (2 + 2 + value.length) by omega]
    exact fun j hj => bufRead_of_bufBytes_replicate hpad hj
  refine ⟨htype, ?_, ⟨by omega, by rwa [hframeLen], .inr hzero⟩, by omega, ?_⟩
  · rw [hvoff, hvlen]; exact hvalue
  · have hbehind : (s.windowEnd lv).toNat - (frameNext s lv).toNat = rest.length := by
      unfold curRemaining at hrem; omega
    rw [hbehind, hnext, show (s.pos lv).toNat + (4 + value.length) + pad (4 + value.length)
      = (s.pos lv).toNat + (frameBytes header value).length by omega]
    exact hrest

/-! ## The chunk walk -/

theorem curRemaining_eq_zero_of_bufBytes {s : State} {lv : Level} (h : bufBytes s (s.pos lv).toNat (curRemaining s lv) = []) :
    curRemaining s lv = 0 := by simpa using congrArg List.length h

/-- R87: an empty window ends the walk. -/
theorem exec_nextCommand_end {s : State} {lv : Level} (hs : s.err.kind = .none) (hstop : s.stop lv = false)
    (hrem : curRemaining s lv = 0) : exec (nextCommand lv) s = .next (endWalk s lv) :=
  exec_nextCommand_of_stop hs (framePass_of_finished hstop (if_pos hrem))

theorem walkChunks_frame {s t : State} (n : Nat) (h : exec .chkNext s = .next t) (ht : t.res0 = .frame) :
    walkChunks (n + 1) s = (walkChunks n t).map fun r => (currentChunk t :: r.1, r.2) := by simp [walkChunks, h, ht]

theorem walkChunks_end {s t : State} (n : Nat) (h : exec .chkNext s = .next t) (ht : t.res0 = .finished) :
    walkChunks (n + 1) s = some ([], t) := by simp [walkChunks, h, ht]

/-- R88: the state `CHK.NEXT` leaves on a known chunk; `exec_chkNext_chunk` ties it to the command. -/
def chunkReturned (s : State) : State :=
  { s with
    pos0 := frameNext s .chunk
    res0 := .frame
    cf := { type := rd8 s s.pos0.toNat, flags := rd8 s (s.pos0.toNat + 1), length := rd16 s (s.pos0.toNat + 2), voff := s.pos0 + 4,
            vlen := rd16 s (s.pos0.toNat + 2) - 4, valid := true, known := true } }

/-- R88 on a chunk on the wire: the chunk in hand is the chunk, and the rest of the window is left. -/
theorem exec_chkNext_chunk {s : State} {c : ChunkPlan} {rest : List Byte} (hs : s.err.kind = .none) (hstop : s.stop0 = false)
    (hlen : chunkLength c ≤ 65535) (hk : known s .chunk (c.type.setWidth 16) = true)
    (h : bufBytes s s.pos0.toNat (curRemaining s .chunk) = chunkBytes c ++ rest) :
    exec .chkNext s = .next (chunkReturned s) ∧ currentChunk (chunkReturned s) = chunkImage c
      ∧ (s.pos0 + 4).toNat + (chunkValue c).length ≤ s.end0.toNat
      ∧ bufBytes (chunkReturned s) (chunkReturned s).pos0.toNat (curRemaining (chunkReturned s) .chunk) = rest := by
  have hat : FrameAtCursor s .chunk [c.type, c.flags] (chunkValue c) rest := frameAtCursor rfl hlen h
  obtain ⟨htype, hflags⟩ : bufRead s s.pos0.toNat = c.type ∧ bufRead s (s.pos0.toNat + 1) = c.flags := by
    simpa [bufBytes, List.range_succ] using hat.header
  refine ⟨chkNextReturnsAKnownChunk s hs hstop hat.framed (by rwa [rd8, htype]), ?_, hat.valueEnd, hat.rest⟩
  have hvalue : bufBytes (chunkReturned s) (s.pos0 + 4).toNat (rd16 s (s.pos0.toNat + 2) - 4).toNat = chunkValue c := hat.body
  rw [currentChunk, chunkImage]
  exact congr (congr (congrArg _ htype) hflags) hvalue

/-- Settles O42: by induction on the chunks, each returned by `CHK.NEXT` with the window's rest left for the others. -/
theorem decoderReturnsTheChunks : Obligations.DecoderReturnsTheChunks := by
  intro s cs
  induction cs generalizing s with
  | nil =>
    intro hs hstop _ _ h
    have hrem := curRemaining_eq_zero_of_bufBytes (lv := .chunk) h
    exact ⟨endWalk s .chunk, walkChunks_end 0 (exec_nextCommand_end (lv := .chunk) hs hstop hrem) rfl, hs, rfl, hrem⟩
  | cons c cs ih =>
    intro hs hstop hlen hk h
    obtain ⟨hlenc, hlens⟩ := List.forall_mem_cons.1 hlen
    obtain ⟨hkc, hks⟩ := List.forall_mem_cons.1 hk
    obtain ⟨hexec, himage, -, hrest⟩ := exec_chkNext_chunk hs hstop hlenc hkc h
    obtain ⟨t, hwalk, hend⟩ := ih (chunkReturned s) hs hstop hlens hks hrest
    refine ⟨t, ?_, hend⟩
    rw [List.length_cons, walkChunks_frame _ hexec rfl, hwalk, himage]
    rfl

/-! ## The parameter walk -/

theorem walkParams_frame {s t : State} (n : Nat) (h : exec .prmNext s = .next t) (ht : t.res1 = .frame) :
    walkParams (n + 1) s = (walkParams n t).map fun r => (currentParam t :: r.1, r.2) := by simp [walkParams, h, ht]

theorem walkParams_end {s t : State} (n : Nat) (h : exec .prmNext s = .next t) (ht : t.res1 = .finished) :
    walkParams (n + 1) s = some ([], t) := by simp [walkParams, h, ht]

/-- R90: the state `PRM.NEXT` leaves on a known parameter; `exec_prmNext_param` ties it to the command. -/
def paramReturned (s : State) : State :=
  { s with
    pos1 := frameNext s .param
    res1 := .frame
    pf := { type := rd16 s s.pos1.toNat, length := rd16 s (s.pos1.toNat + 2), voff := s.pos1 + 4,
            vlen := rd16 s (s.pos1.toNat + 2) - 4, valid := true, known := true } }

theorem exec_prmNext_param {s : State} {p : ParamImage} {rest : List Byte} (hs : s.err.kind = .none) (hstop : s.stop1 = false)
    (hlen : 4 + p.value.length ≤ 65535) (hk : known s .param p.type = true)
    (h : bufBytes s s.pos1.toNat (curRemaining s .param) = paramBytes p ++ rest) :
    exec .prmNext s = .next (paramReturned s) ∧ currentParam (paramReturned s) = p
      ∧ bufBytes (paramReturned s) (paramReturned s).pos1.toNat (curRemaining (paramReturned s) .param) = rest := by
  have hat : FrameAtCursor s .param (be16 p.type) p.value rest := frameAtCursor rfl hlen h
  have htype : rd16 s s.pos1.toNat = p.type := rd16_of_bufBytes_eq_be16 hat.header
  refine ⟨prmNextReturnsAKnownParameter s hs hstop hat.framed (by rwa [htype]), ?_, hat.rest⟩
  have hvalue : bufBytes (paramReturned s) (s.pos1 + 4).toNat (rd16 s (s.pos1.toNat + 2) - 4).toNat = p.value := hat.body
  rw [currentParam]
  exact congr (congrArg ParamImage.mk htype) hvalue

/-- R90, R106: the parameter walk, with any bound above the number of parameters; only registers of the level change. -/
theorem walkParams_returns {ps : List ParamImage} : ∀ {s : State} {n : Nat}, ps.length < n → s.err.kind = .none → s.stop1 = false →
    (∀ p ∈ ps, 4 + p.value.length ≤ 65535) → (∀ p ∈ ps, known s .param p.type = true) →
    bufBytes s s.pos1.toNat (curRemaining s .param) = ps.flatMap paramBytes →
    ∃ t, walkParams n s = some (ps, t) ∧ t = { s with pos1 := t.pos1, pf := t.pf, res1 := .finished } ∧ curRemaining t .param = 0 := by
  induction ps with
  | nil =>
    intro s n hn hs hstop _ _ h
    obtain ⟨n, rfl⟩ := Nat.exists_eq_add_one_of_ne_zero (Nat.ne_of_gt hn)
    have hrem := curRemaining_eq_zero_of_bufBytes (lv := .param) h
    exact ⟨endWalk s .param, walkParams_end n (exec_nextCommand_end (lv := .param) hs hstop hrem) rfl, rfl, hrem⟩
  | cons p ps ih =>
    intro s n hn hs hstop hlen hk h
    obtain ⟨n, rfl⟩ := Nat.exists_eq_add_one_of_ne_zero (Nat.ne_of_gt (Nat.zero_lt_of_lt hn))
    obtain ⟨hlenp, hlens⟩ := List.forall_mem_cons.1 hlen
    obtain ⟨hkp, hks⟩ := List.forall_mem_cons.1 hk
    obtain ⟨hexec, himage, hrest⟩ := exec_prmNext_param hs hstop hlenp hkp h
    obtain ⟨t, hwalk, hframe, hrem⟩ := ih (s := paramReturned s) (Nat.lt_of_succ_lt_succ hn) hs hstop hlens hks hrest
    refine ⟨t, ?_, hframe, hrem⟩
    rw [walkParams_frame _ hexec rfl, hwalk, himage]
    rfl

/-! ## The nested walk -/

theorem walkNested_cons {s t u v : State} {k : Nat} {ks : List Nat} {ps : List ParamImage} (hnext : exec .chkNext s = .next t)
    (hres : t.res0 = .frame) (henter : exec (.prmEnter (BitVec.ofNat 16 k)) t = .next u)
    (hwalk : walkParams (curRemaining u .param / 4 + 1) u = some (ps, v)) :
    walkNested (k :: ks) s = (walkNested ks v).map fun r => ((currentChunk t, ps) :: r.1, r.2) := by
  simp [walkNested, hnext, hres, henter, hwalk]

/-- Each parameter on the wire takes at least 4 bytes. -/
theorem four_mul_length_le (ps : List ParamImage) : 4 * ps.length ≤ (ps.flatMap paramBytes).length := by
  induction ps with
  | nil => exact le_rfl
  | cons p ps ih =>
    have hp := frameBytes_length (value := p.value) (be16_length p.type)
    rw [List.flatMap_cons, List.length_append, List.length_cons, paramBytes_eq, hp]
    omega

/-- R89: behind `CHK.NEXT` on a chunk, `PRM.ENTER` past the leading bytes leaves a window that holds the parameters. -/
theorem exec_prmEnter_chunk {s : State} {c : ChunkPlan} (hs : s.err.kind = .none) (hvalid : s.cf.valid = true)
    (hlen : chunkLength c ≤ 65535) (himage : currentChunk s = chunkImage c)
    (hin : s.cf.voff.toNat + (chunkValue c).length < 2 ^ 32) :
    ∃ u, exec (.prmEnter (BitVec.ofNat 16 c.lead.length)) s = .next u
      ∧ u = { s with pos1 := u.pos1, end1 := u.end1, stop1 := false, pf := ParamFrame.clear, res1 := .none }
      ∧ bufBytes u u.pos1.toNat (curRemaining u .param) = c.params.flatMap paramBytes := by
  have hvalue : bufBytes s s.cf.voff.toNat s.cf.vlen.toNat = c.lead ++ c.params.flatMap paramBytes := congrArg ChunkImage.value himage
  have hlong : chunkLength c = 4 + (c.lead.length + (c.params.flatMap paramBytes).length) := by
    rw [chunkLength, chunkValue, List.length_append]
  obtain ⟨hvlen, -, hparams⟩ := bufBytes_eq_append hvalue
  have hk : (BitVec.ofNat 16 c.lead.length).toNat = c.lead.length := by
    rw [BitVec.toNat_ofNat]; exact Nat.mod_eq_of_lt (by omega)
  rw [chunkValue, List.length_append] at hin
  obtain ⟨henter, -⟩ := prmEnterSetsTheParameterWindow s (BitVec.ofNat 16 c.lead.length) hs
  refine ⟨_, henter hvalid (by omega), rfl, ?_⟩
  have hpos : (s.cf.voff + (BitVec.ofNat 16 c.lead.length).setWidth 32).toNat = s.cf.voff.toNat + c.lead.length := by
    rw [← ofNat_toNat_add_toNat, BitVec.toNat_ofNat, hk]; exact Nat.mod_eq_of_lt (by omega)
  have hend : (s.cf.voff + s.cf.vlen.setWidth 32).toNat = s.cf.voff.toNat + s.cf.vlen.toNat := by
    rw [← ofNat_toNat_add_toNat, BitVec.toNat_ofNat]; exact Nat.mod_eq_of_lt (by omega)
  simp only [curRemaining, State.windowEnd_param, State.pos_param, hpos, hend]
  rw [show s.cf.voff.toNat + s.cf.vlen.toNat - (s.cf.voff.toNat + c.lead.length) = (c.params.flatMap paramBytes).length by omega]
  exact hparams

/-- The parameters of a chunk are no longer than the chunk. -/
theorem param_length_le {c : ChunkPlan} (hlen : chunkLength c ≤ 65535) : ∀ p ∈ c.params, 4 + p.value.length ≤ 65535 := by
  intro p hp
  have hpart : (paramBytes p).length ≤ (c.params.flatMap paramBytes).length := by
    obtain ⟨before, behind, hsplit⟩ := List.append_of_mem hp
    rw [hsplit, List.flatMap_append, List.flatMap_cons, List.length_append, List.length_append]
    omega
  rw [paramBytes_eq, frameBytes_length (be16_length p.type)] at hpart
  rw [chunkLength, chunkValue, List.length_append] at hlen
  omega

/-- R104, R106: the nested walk over chunks of known types with parameters of known types. -/
theorem walkNested_returns {cs : List ChunkPlan} : ∀ {s : State}, s.err.kind = .none → s.stop0 = false →
    (∀ c ∈ cs, chunkLength c ≤ 65535) → (∀ c ∈ cs, known s .chunk (c.type.setWidth 16) = true) →
    (∀ c ∈ cs, ∀ p ∈ c.params, known s .param p.type = true) →
    bufBytes s s.pos0.toNat (curRemaining s .chunk) = cs.flatMap chunkBytes →
    ∃ u, walkNested (cs.map (·.lead.length)) s = some (cs.map fun c => (chunkImage c, c.params), u) ∧ u.err.kind = .none
      ∧ u.res0 = .finished ∧ curRemaining u .chunk = 0 := by
  induction cs with
  | nil =>
    intro s hs hstop _ _ _ h
    obtain ⟨u, hwalk, hend⟩ := decoderReturnsTheChunks s [] hs hstop nofun nofun h
    exact ⟨u, by rw [List.map_nil, walkNested, show walkChunks 1 s = some ([], u) from hwalk]; rfl, hend⟩
  | cons c cs ih =>
    intro s hs hstop hlen hk hkp h
    obtain ⟨hlenc, hlens⟩ := List.forall_mem_cons.1 hlen
    obtain ⟨hkc, hks⟩ := List.forall_mem_cons.1 hk
    obtain ⟨hkpc, hkps⟩ := List.forall_mem_cons.1 hkp
    obtain ⟨hexec, himage, hin, hrest⟩ := exec_chkNext_chunk hs hstop hlenc hkc h
    obtain ⟨u, henter, hu, hparams⟩ := exec_prmEnter_chunk (s := chunkReturned s) hs rfl hlenc himage
      (Nat.lt_of_le_of_lt hin s.end0.isLt)
    have hfuel : c.params.length < curRemaining u .param / 4 + 1 := by
      have hbytes := four_mul_length_le c.params
      rw [← hparams, bufBytes_length] at hbytes
      omega
    have hknown : ∀ p ∈ c.params, known u .param p.type = true := by rw [hu]; exact hkpc
    obtain ⟨v, hwalk, hv, -⟩ := walkParams_returns hfuel (by rw [hu]; exact hs) (by rw [hu]) (param_length_le hlenc) hknown hparams
    have hv' : v = { chunkReturned s with
        pos1 := v.pos1, end1 := v.end1, stop1 := false, pf := v.pf, res1 := .finished } := by
      rw [hu] at hv
      rw [hv]
    obtain ⟨w, hnested, hend⟩ := ih (s := v) (by rw [hv']; exact hs) (by rw [hv']; exact hstop) hlens (by rw [hv']; exact hks)
      (by rw [hv']; exact hkps) (by rw [hv']; exact hrest)
    refine ⟨w, ?_, hend⟩
    rw [List.map_cons, walkNested_cons hexec rfl henter hwalk, hnested, himage]
    rfl

end Sys2Proof.Machine
end

section
/-! Proofs of the statements on runs of the encoder commands and of the host's sequences (44_tlv_encode.md rules R96 to R102,
45_entry_points.md rules R104 to R106, 42_header_codec.md rule R74). -/

namespace Sys2Proof.Machine

open Sys2Proof.Statements

/-! ## Runs -/

/-- The machine goes from `s` to `t` in `n` steps, whatever it does then. -/
def Runs (n : Nat) (s t : State) : Prop := ∀ k, core.run (n + k) s = core.run k t

theorem Runs.refl (s : State) : Runs 0 s s := fun k => by rw [Nat.zero_add]

theorem Runs.trans {m n : Nat} {s t u : State} (h : Runs m s t) (h' : Runs n t u) : Runs (m + n) s u := fun k => by
  rw [Nat.add_assoc, h, h']

theorem Runs.run_eq {n : Nat} {s t : State} (h : Runs n s t) : core.run n s = .next t := h 0

theorem runs_access {s t : State} {a : HostAccess} {rest : List HostAccess} (h : s.pending = a :: rest)
    (ht : takeAccess a { s with pending := rest } = .next t) : Runs 1 s t := fun k => by
  rw [Nat.add_comm]
  exact run_succ (M := core) k ((step_cons h).trans ht)

/-- R37, R47: an issued command is decoded to itself and executed. -/
theorem runs_issue {s t : State} {i : Instr} {rest : List HostAccess} (h : s.pending = issue i :: rest)
    (ht : exec i { s with pending := rest } = .next t) : Runs 1 s t := fun k => by
  rw [Nat.add_comm]
  exact run_issue k h (decodeOfEncodeIsTheCommand i) ht

/-! ## Appended bytes -/

/-- There is room for `n` bytes at `LEN`, and `LEN` does not wrap behind them. -/
def Room (n : Nat) (s : State) : Prop := s.len.toNat + n ≤ s.maxPacket ∧ s.len.toNat + n < 2 ^ 32

theorem Room.of_inv {s : State} (hs : Inv s) {n : Nat} (h : s.len.toNat + n ≤ s.maxPacket) : Room n s := by
  obtain ⟨-, hcap⟩ := hs.capacity
  exact ⟨h, by omega⟩

/-- From `s` to `t` the bytes were appended at `LEN`, with nothing below written and no register but of the encoder. -/
structure Appended (bytes : List Byte) (s t : State) : Prop where
  frame : t = { s with buf := t.buf, len := t.len, cstart := t.cstart, pstart := t.pstart, copen := t.copen, popen := t.popen,
                       pending := t.pending }
  len : t.len.toNat = s.len.toNat + bytes.length
  bytes : bufBytes t s.len.toNat bytes.length = bytes
  below : ∀ a, a < s.len.toNat → bufRead t a = bufRead s a

theorem Appended.nil (s : State) : Appended [] s s := ⟨rfl, rfl, rfl, fun _ _ => rfl⟩

theorem Appended.err {bytes : List Byte} {s t : State} (h : Appended bytes s t) : t.err = s.err := by rw [h.frame]

theorem Appended.trans {xs ys : List Byte} {s t u : State} (h : Appended xs s t) (h' : Appended ys t u) :
    Appended (xs ++ ys) s u := by
  have hlen := h.len
  have hlen' := h'.len
  refine ⟨?_, by rw [List.length_append]; omega, ?_, fun a ha => ?_⟩
  · rw [h'.frame, h.frame]
  · rw [List.length_append, bufBytes_add, ← hlen, h'.bytes,
      bufBytes_congr (s := t) fun x _ hx => h'.below x (by omega), h.bytes]
  · rw [h'.below a (by omega), h.below a ha]

theorem Room.left {m n : Nat} {s : State} (h : Room (m + n) s) : Room m s := by
  obtain ⟨hfit, hwrap⟩ := h
  exact ⟨by omega, by omega⟩

theorem Appended.room {bytes : List Byte} {s t : State} (h : Appended bytes s t) {n : Nat} (hroom : Room (bytes.length + n) s) :
    Room n t := by
  obtain ⟨hfit, hwrap⟩ := hroom
  have hmax : t.maxPacket = s.maxPacket := by rw [h.frame]
  have hlen := h.len
  exact ⟨by omega, by omega⟩

theorem toNat_add_ofNat {v : Word} {n : Nat} (h : v.toNat + n < 2 ^ 32) : (v + BitVec.ofNat 32 n).toNat = v.toNat + n := by
  rw [← ofNat_toNat_add, BitVec.toNat_ofNat]
  exact Nat.mod_eq_of_lt h

/-! ## One encoder command -/

theorem runs_bufPut {s : State} {b : Byte} {rest : List HostAccess} (hs : s.err.kind = .none) (hroom : Room 1 s)
    (h : s.pending = issue (.bufPut b) :: rest) :
    ∃ t, Runs 1 s t ∧ Appended [b] s t ∧ t = { s with buf := t.buf, len := t.len, pending := rest } := by
  obtain ⟨hfit, hwrap⟩ := hroom
  obtain ⟨t, hexec, ht, hbyte, hsame⟩ := (bufPutAppendsTheByte.2 { s with pending := rest } b hs).1 hfit
  have hframe : t = { s with buf := t.buf, len := t.len, pending := rest } := by rw [ht]
  refine ⟨t, runs_issue h hexec, ⟨by rw [hframe], ?_, ?_, fun a ha => hsame a (Nat.ne_of_lt ha)⟩, hframe⟩
  · rw [ht]
    exact toNat_add_ofNat hwrap
  · exact congrArg (fun x => [x]) hbyte

/-- R49: bytes put one after the other. -/
theorem runs_puts {bytes : List Byte} : ∀ {s : State} {rest : List HostAccess}, s.err.kind = .none → Room bytes.length s →
    s.pending = (bytes.map Instr.bufPut).map issue ++ rest →
    ∃ t, Runs bytes.length s t ∧ Appended bytes s t ∧ t = { s with buf := t.buf, len := t.len, pending := rest } := by
  induction bytes with
  | nil => exact fun {s rest} _ _ h => ⟨s, Runs.refl s, Appended.nil s, by rw [show rest = s.pending from h.symm]⟩
  | cons b bs ih =>
    intro s rest hs hroom h
    rw [List.length_cons, Nat.add_comm] at hroom
    obtain ⟨t, hrun, happ, ht⟩ := runs_bufPut hs hroom.left h
    obtain ⟨u, hrun', happ', hu⟩ := ih (rest := rest) (happ.err ▸ hs) (happ.room hroom) (by rw [ht]; rfl)
    refine ⟨u, ?_, happ.trans happ', by rw [hu, ht]⟩
    rw [List.length_cons, Nat.add_comm]
    exact hrun.trans hrun'

theorem runs_chkOpen {s : State} {type flags : Byte} {rest : List HostAccess} (hs : s.err.kind = .none) (hc : s.copen = false)
    (hp : s.popen = false) (hroom : Room 4 s) (h : s.pending = issue (.chkOpen type flags) :: rest) :
    ∃ t, Runs 1 s t ∧ Appended [type, flags, 0, 0] s t
      ∧ t = { s with buf := t.buf, len := t.len, cstart := s.len, copen := true, pending := rest } := by
  obtain ⟨hfit, hwrap⟩ := hroom
  obtain ⟨t, hexec, ht, hbytes, hsame⟩ := (chkOpenAppendsTheChunkHeader { s with pending := rest } type flags hs).1 hc hp hfit
  have hframe : t = { s with buf := t.buf, len := t.len, cstart := s.len, copen := true, pending := rest } := by rw [ht]
  refine ⟨t, runs_issue h hexec, ⟨by rw [hframe], ?_, hbytes, fun a ha => hsame a (.inl ha)⟩, hframe⟩
  rw [ht]
  exact toNat_add_ofNat hwrap

theorem runs_prmOpen {s : State} {type : Half} {rest : List HostAccess} (hs : s.err.kind = .none)
    (hp : s.popen = false) (hroom : Room 4 s) (h : s.pending = issue (.prmOpen type) :: rest) :
    ∃ t, Runs 1 s t ∧ Appended (be16 type ++ [0, 0]) s t
      ∧ t = { s with buf := t.buf, len := t.len, pstart := s.len, popen := true, pending := rest } := by
  obtain ⟨hfit, hwrap⟩ := hroom
  obtain ⟨t, hexec, ht, hbytes, hsame⟩ := (prmOpenAppendsTheParameterHeader { s with pending := rest } type hs).1 hp hfit
  have hframe : t = { s with buf := t.buf, len := t.len, pstart := s.len, popen := true, pending := rest } := by rw [ht]
  refine ⟨t, runs_issue h hexec, ⟨by rw [hframe], ?_, hbytes, fun a ha => hsame a (.inl ha)⟩, hframe⟩
  rw [ht]
  exact toNat_add_ofNat hwrap

/-! ## Closing a frame -/

theorem be16_rd16 (s : State) (a : Nat) : be16 (rd16 s a) = bufBytes s a 2 := by
  have hhigh : (rd16 s a).extractLsb' 8 8 = bufRead s a := BitVec.extractLsb'_append_eq_left
  have hlow : (rd16 s a).extractLsb' 0 8 = bufRead s (a + 1) := BitVec.extractLsb'_append_eq_right
  rw [be16, hhigh, hlow]
  rfl

section Close

variable {header body : List Byte} {s t : State} {start : Word} {l : Nat}

/-- With a body appended to the header opened at the `LEN` of `s`, the frame's length and room for its padding. -/
theorem Appended.closing (hheader : header.length = 2) (h : Appended (header ++ [0, 0] ++ body) s t) (hstart : start = s.len)
    (hroom : Room (frameBytes header body).length s) :
    start.toNat + 4 ≤ t.len.toNat ∧ t.len.toNat - start.toNat = 4 + body.length
      ∧ t.len.toNat + pad (t.len.toNat - start.toNat) ≤ t.maxPacket := by
  subst hstart
  have hlen : t.len.toNat = s.len.toNat + (4 + body.length) := by
    rw [h.len]
    simp only [List.length_append, List.length_cons, List.length_nil, hheader]
  have hl : t.len.toNat - s.len.toNat = 4 + body.length := by omega
  obtain ⟨hfit, -⟩ := hroom
  rw [frameBytes_length hheader] at hfit
  have hmax : t.maxPacket = s.maxPacket := by rw [h.frame]
  exact ⟨by omega, hl, by rw [hl]; omega⟩

/-- R101: closing makes it the frame on the wire: the length is patched and the padding appended. -/
theorem Appended.close {u : State} (hheader : header.length = 2) (h : Appended (header ++ [0, 0] ++ body) s t)
    (hstart : start = s.len) (hroom : Room (frameBytes header body).length s) (hl : l = 4 + body.length)
    (hframe : u = { t with buf := u.buf, len := t.len + BitVec.ofNat 32 (pad l), copen := u.copen, popen := u.popen,
                           pending := u.pending })
    (hfield : rd16 u (start.toNat + 2) = BitVec.ofNat 16 l)
    (hzeros : bufBytes u t.len.toNat (pad l) = List.replicate (pad l) 0)
    (hsame : ∀ a, a < t.len.toNat ∨ t.len.toNat + pad l ≤ a → a ≠ start.toNat + 2 → a ≠ start.toNat + 3 →
      bufRead u a = bufRead t a) : Appended (frameBytes header body) s u := by
  subst hstart hl
  have hsize : (frameBytes header body).length = 2 + (2 + (body.length + pad (4 + body.length))) := by
    rw [frameBytes_length hheader]; omega
  have hlen : t.len.toNat = s.len.toNat + 2 + 2 + body.length := by
    rw [h.len]
    simp only [List.length_append, List.length_cons, List.length_nil, hheader]
    omega
  obtain ⟨-, hhead, hbody⟩ := bufBytes_eq_append h.bytes
  obtain ⟨-, htype, -⟩ := bufBytes_eq_append hhead
  simp only [List.length_append, List.length_cons, List.length_nil, hheader] at htype hbody
  have htype' : bufBytes u s.len.toNat 2 = header :=
    (bufBytes_congr fun x _ _ => hsame x (by omega) (by omega) (by omega)).trans htype
  have hbody' : bufBytes u (s.len.toNat + 2 + 2) body.length = body :=
    (bufBytes_congr fun x _ _ => hsame x (by omega) (by omega) (by omega)).trans hbody
  have hlength : bufBytes u (s.len.toNat + 2) 2 = be16 (BitVec.ofNat 16 (4 + body.length)) := by rw [← be16_rd16, hfield]
  refine ⟨by rw [hframe, h.frame], ?_, ?_, fun a ha => ?_⟩
  · obtain ⟨-, hwrap⟩ := hroom
    rw [hframe, toNat_add_ofNat (by omega)]
    omega
  · rw [hsize, bufBytes_add, bufBytes_add, bufBytes_add, htype', hlength, hbody', ← hlen, hzeros, frameBytes]
    simp only [List.append_assoc]
  · rw [hsame a (by omega) (by omega) (by omega), h.below a ha]

theorem runs_prmClose {rest : List HostAccess} (hheader : header.length = 2) (ht : t.err.kind = .none) (hp : t.popen = true)
    (hstart : t.pstart = s.len) (happ : Appended (header ++ [0, 0] ++ body) s t) (hlong : 4 + body.length ≤ 65535)
    (hroom : Room (frameBytes header body).length s) (h : t.pending = issue .prmClose :: rest) :
    ∃ u, Runs 1 t u ∧ Appended (frameBytes header body) s u
      ∧ u = { t with buf := u.buf, len := u.len, popen := false, pending := rest } := by
  obtain ⟨hhead, hl, hfit⟩ := happ.closing hheader hstart hroom
  obtain ⟨hclose, -⟩ := prmClosePatchesAndPads { t with pending := rest } ht
  obtain ⟨u, hexec, hu, hfield, hzeros, hsame⟩ := hclose hp hhead (hl.trans_le hlong) hfit
  exact ⟨u, runs_issue h hexec, happ.close hheader hstart hroom hl (by rw [hu]) hfield hzeros hsame, by rw [hu]⟩

theorem runs_chkClose {rest : List HostAccess} (hheader : header.length = 2) (ht : t.err.kind = .none) (hc : t.copen = true)
    (hp : t.popen = false) (hstart : t.cstart = s.len) (happ : Appended (header ++ [0, 0] ++ body) s t)
    (hlong : 4 + body.length ≤ 65535) (hroom : Room (frameBytes header body).length s)
    (h : t.pending = issue .chkClose :: rest) :
    ∃ u, Runs 1 t u ∧ Appended (frameBytes header body) s u
      ∧ u = { t with buf := u.buf, len := u.len, copen := false, pending := rest } := by
  obtain ⟨hhead, hl, hfit⟩ := happ.closing hheader hstart hroom
  obtain ⟨hclose, -⟩ := chkClosePatchesAndPads { t with pending := rest } ht
  obtain ⟨u, hexec, hu, hfield, hzeros, hsame⟩ := hclose hc hp hhead (hl.trans_le hlong) hfit
  exact ⟨u, runs_issue h hexec, happ.close hheader hstart hroom hl (by rw [hu]) hfield hzeros hsame, by rw [hu]⟩

end Close

/-! ## Parameters and chunks -/

theorem Room.of_le {m n : Nat} {s : State} (h : Room n s) (hmn : m ≤ n) : Room m s := by
  obtain ⟨hfit, hwrap⟩ := h
  exact ⟨by omega, by omega⟩

/-- R106: one parameter, inside a chunk or not. -/
theorem runs_param {s : State} {p : ParamImage} {rest : List HostAccess} (hs : s.err.kind = .none) (hp : s.popen = false)
    (hlong : 4 + p.value.length ≤ 65535) (hroom : Room (paramBytes p).length s)
    (h : s.pending = (paramCommands p).map issue ++ rest) :
    ∃ t, Runs (paramCommands p).length s t ∧ Appended (paramBytes p) s t
      ∧ t = { s with buf := t.buf, len := t.len, pstart := t.pstart, pending := rest } := by
  have hsize : (paramBytes p).length = (be16 p.type ++ [0, 0]).length + p.value.length + pad (4 + p.value.length) :=
    frameBytes_length (be16_length p.type)
  have hpending : s.pending = issue (.prmOpen p.type) :: ((p.value.map Instr.bufPut).map issue ++ (issue .prmClose :: rest)) := by
    rw [h, paramCommands]
    simp
  obtain ⟨t, hrun, happ, ht⟩ := runs_prmOpen hs hp (hroom.of_le (hsize ▸ by simp [be16_length]; omega)) hpending
  obtain ⟨u, hrun', happ', hu⟩ := runs_puts (bytes := p.value) (rest := issue .prmClose :: rest) (happ.err ▸ hs)
    (happ.room (hroom.of_le (by omega))) (by rw [ht])
  have hu' : u = { s with buf := u.buf, len := u.len, pstart := s.len, popen := true, pending := issue .prmClose :: rest } := by
    rw [hu, ht]
  obtain ⟨v, hrun'', happ'', hv⟩ := runs_prmClose (s := s) (rest := rest) (be16_length p.type) (by rw [hu']; exact hs) (by rw [hu'])
    (by rw [hu']) (happ.trans happ') hlong hroom (by rw [hu'])
  refine ⟨v, ?_, happ'', ?_⟩
  · have hcount : (paramCommands p).length = 1 + p.value.length + 1 := by
      simp only [paramCommands, List.length_append, List.length_cons, List.length_map, List.length_nil]
      omega
    rw [hcount]
    exact (hrun.trans hrun').trans hrun''
  · rw [hv, hu', hp]

theorem runs_params {ps : List ParamImage} : ∀ {s : State} {rest : List HostAccess}, s.err.kind = .none → s.popen = false →
    (∀ p ∈ ps, 4 + p.value.length ≤ 65535) → Room (ps.flatMap paramBytes).length s →
    s.pending = (ps.flatMap paramCommands).map issue ++ rest →
    ∃ t, Runs (ps.flatMap paramCommands).length s t ∧ Appended (ps.flatMap paramBytes) s t
      ∧ t = { s with buf := t.buf, len := t.len, pstart := t.pstart, pending := rest } := by
  induction ps with
  | nil => exact fun {s rest} _ _ _ _ h => ⟨s, Runs.refl s, Appended.nil s, by rw [show rest = s.pending from h.symm]⟩
  | cons p ps ih =>
    intro s rest hs hp hlong hroom h
    obtain ⟨hlongp, hlongs⟩ := List.forall_mem_cons.1 hlong
    rw [List.flatMap_cons, List.length_append] at hroom
    rw [List.flatMap_cons, List.map_append, List.append_assoc] at h
    obtain ⟨t, hrun, happ, ht⟩ := runs_param hs hp hlongp hroom.left h
    obtain ⟨u, hrun', happ', hu⟩ := ih (rest := rest) (happ.err ▸ hs) (by rw [ht]; exact hp) hlongs (happ.room hroom) (by rw [ht])
    rw [List.flatMap_cons, List.flatMap_cons, List.length_append]
    exact ⟨u, hrun.trans hrun', happ.trans happ', by rw [hu, ht]⟩

/-- R105: one chunk, its leading bytes and its parameters. -/
theorem runs_chunk {s : State} {c : ChunkPlan} {rest : List HostAccess} (hs : s.err.kind = .none) (hc : s.copen = false)
    (hp : s.popen = false) (hlong : chunkLength c ≤ 65535) (hroom : Room (chunkBytes c).length s)
    (h : s.pending = (chunkCommands c).map issue ++ rest) :
    ∃ t, Runs (chunkCommands c).length s t ∧ Appended (chunkBytes c) s t
      ∧ t = { s with buf := t.buf, len := t.len, cstart := t.cstart, pstart := t.pstart, pending := rest } := by
  have hsize : (chunkBytes c).length = 4 + (c.lead.length + (c.params.flatMap paramBytes).length) + pad (chunkLength c) := by
    rw [chunkBytes_eq, frameBytes_length rfl, chunkLength, chunkValue, List.length_append]
  have hpending : s.pending = issue (.chkOpen c.type c.flags) :: ((c.lead.map Instr.bufPut).map issue
      ++ ((c.params.flatMap paramCommands).map issue ++ (issue .chkClose :: rest))) := by
    rw [h, chunkCommands]
    simp
  obtain ⟨t, hrun, happ, ht⟩ := runs_chkOpen hs hc hp (hroom.of_le (by omega)) hpending
  have hroomt : Room (c.lead.length + (c.params.flatMap paramBytes).length) t :=
    happ.room (hroom.of_le (by rw [hsize, show [c.type, c.flags, 0, 0].length = 4 from rfl]; omega))
  obtain ⟨u, hrun', happ', hu⟩ := runs_puts (happ.err ▸ hs) hroomt.left (by rw [ht])
  obtain ⟨v, hrun'', happ'', hv⟩ := runs_params (rest := issue .chkClose :: rest) (happ'.err ▸ happ.err ▸ hs)
    (by rw [hu, ht]; exact hp) (param_length_le hlong) (happ'.room hroomt) (by rw [hu])
  have hv' : v = { s with buf := v.buf, len := v.len, cstart := s.len, copen := true, pstart := v.pstart,
                          pending := issue .chkClose :: rest } := by
    rw [hv, hu, ht]
  have hbody : Appended ([c.type, c.flags] ++ [0, 0] ++ chunkValue c) s v := by
    have hall := (happ.trans happ').trans happ''
    rwa [List.append_assoc] at hall
  obtain ⟨w, hrun''', happ''', hw⟩ := runs_chkClose (s := s) (rest := rest) rfl (by rw [hv']; exact hs) (by rw [hv'])
    (by rw [hv']; exact hp) (by rw [hv']) hbody hlong hroom (by rw [hv'])
  refine ⟨w, ?_, happ''', ?_⟩
  · have hcount : (chunkCommands c).length = 1 + c.lead.length + (c.params.flatMap paramCommands).length + 1 := by
      simp only [chunkCommands, List.length_append, List.length_cons, List.length_map, List.length_nil]
      omega
    rw [hcount]
    exact ((hrun.trans hrun').trans hrun'').trans hrun'''
  · rw [hw, hv', hc]

theorem runs_chunks {cs : List ChunkPlan} : ∀ {s : State} {rest : List HostAccess}, s.err.kind = .none → s.copen = false →
    s.popen = false → (∀ c ∈ cs, chunkLength c ≤ 65535) → Room (cs.flatMap chunkBytes).length s →
    s.pending = (cs.flatMap chunkCommands).map issue ++ rest →
    ∃ t, Runs (cs.flatMap chunkCommands).length s t ∧ Appended (cs.flatMap chunkBytes) s t
      ∧ t = { s with buf := t.buf, len := t.len, cstart := t.cstart, pstart := t.pstart, pending := rest } := by
  induction cs with
  | nil => exact fun {s rest} _ _ _ _ _ h => ⟨s, Runs.refl s, Appended.nil s, by rw [show rest = s.pending from h.symm]⟩
  | cons c cs ih =>
    intro s rest hs hc hp hlong hroom h
    obtain ⟨hlongc, hlongs⟩ := List.forall_mem_cons.1 hlong
    rw [List.flatMap_cons, List.length_append] at hroom
    rw [List.flatMap_cons, List.map_append, List.append_assoc] at h
    obtain ⟨t, hrun, happ, ht⟩ := runs_chunk hs hc hp hlongc hroom.left h
    obtain ⟨u, hrun', happ', hu⟩ := ih (rest := rest) (happ.err ▸ hs) (by rw [ht]; exact hc) (by rw [ht]; exact hp) hlongs
      (happ.room hroom) (by rw [ht])
    rw [List.flatMap_cons, List.flatMap_cons, List.length_append]
    exact ⟨u, hrun.trans hrun', happ.trans happ', by rw [hu, ht]⟩

/-- Settles O41: the runs of the chunks one after the other, each appending its bytes (`runs_chunk`). -/
theorem encoderWritesTheWireFormat : Obligations.EncoderWritesTheWireFormat := by
  intro s cs rest hs herr hc hp hlong hfit h
  obtain ⟨t, hrun, happ, ht⟩ := runs_chunks herr hc hp hlong (.of_inv hs hfit) h
  exact ⟨t, hrun.run_eq, by rw [ht], by rw [ht]; exact herr, by rw [ht]; exact hc, by rw [ht]; exact hp, happ.len, happ.bytes,
    happ.below⟩

end Sys2Proof.Machine
end

section
/-! Proofs of the round trips: what the host's encode sequences build, its decode sequences return (44_tlv_encode.md rule R102,
45_entry_points.md rules R104 to R106, 42_header_codec.md rule R74). -/

namespace Sys2Proof.Machine

open Sys2Proof.Statements

/-! ## Beginning a call -/

/-- R17, R49: `.len n` begins a call over `[0, n)`. -/
theorem runs_setLen {s : State} {n : Nat} {rest : List HostAccess} (hn : n ≤ s.maxPacket) (hwrap : n < 2 ^ 32)
    (h : s.pending = setLen n :: rest) :
    Runs 1 s (startActions { s with len := BitVec.ofNat 32 n, pending := rest }) := by
  obtain ⟨hwrite, -, -⟩ := lenChangesAsItsRuleSays
  obtain ⟨hlegal, -, -⟩ := hwrite { s with pending := rest } (BitVec.ofNat 32 n)
  have hvalue : (BitVec.ofNat 32 n).toNat = n := by rw [BitVec.toNat_ofNat]; exact Nat.mod_eq_of_lt hwrap
  exact runs_access h (hlegal (hvalue.trans_le hn))

/-- The state behind `.len 0`; `runs_setLen_zero` ties it to the access. -/
def emptied (s : State) (rest : List HostAccess) : State := startActions { s with len := 0, pending := rest }

theorem runs_setLen_zero {s : State} {rest : List HostAccess} (h : s.pending = setLen 0 :: rest) : Runs 1 s (emptied s rest) :=
  runs_setLen (Nat.zero_le _) (by decide) h

theorem room_emptied {s : State} {n : Nat} (hs : Inv s) (hn : n ≤ s.maxPacket) (rest : List HostAccess) :
    Room n (emptied s rest) := by
  have hzero : (emptied s rest).len.toNat = 0 := rfl
  refine .of_inv (inv_startActions hs.capacity hs.registry hs.buffer (Nat.zero_le _)) ?_
  show (emptied s rest).len.toNat + n ≤ s.maxPacket
  rwa [hzero, Nat.zero_add]

theorem runs_start {s : State} {rest : List HostAccess} (h : s.pending = issue .start :: rest) :
    Runs 1 s (startActions { s with pending := rest }) := runs_issue h (exec_start _)

theorem Appended.taken {bytes : List Byte} {s t : State} (h : Appended bytes s t) (rest : List HostAccess) :
    Appended bytes s { t with pending := rest } :=
  ⟨by rw [h.frame], h.len, h.bytes, h.below⟩

/-- A call that begins behind an encode from an empty buffer has the encoded bytes as both its windows. -/
theorem Appended.started_window {bytes : List Byte} {s t : State} (h : Appended bytes s t) (hs : s.len = 0) (lv : Level) :
    t.len.toNat = bytes.length ∧ bufBytes (startActions t) 0 bytes.length = bytes
      ∧ bufBytes (startActions t) ((startActions t).pos lv).toNat (curRemaining (startActions t) lv) = bytes := by
  have hzero : s.len.toNat = 0 := by rw [hs]; rfl
  have hlen := h.len
  have hbytes := h.bytes
  rw [hzero] at hlen hbytes
  rw [Nat.zero_add] at hlen
  have hstarted : bufBytes (startActions t) 0 bytes.length = bytes := (bufBytes_congr fun _ _ _ => bufRead_congr rfl rfl rfl _).trans hbytes
  have hpos : ((startActions t).pos lv).toNat = 0 := by cases lv <;> rfl
  have hend : ((startActions t).windowEnd lv).toNat = t.len.toNat := by cases lv <;> rfl
  exact ⟨hlen, hstarted, by rwa [curRemaining, hpos, hend, hlen]⟩

/-- Settles O43: the walk for a window that holds the list (`walkParams_returns`), and the run of R106's commands, which from an empty
buffer leaves such a window. -/
theorem decoderReturnsTheParameters : Obligations.DecoderReturnsTheParameters := by
  refine ⟨fun s ps herr hstop hlong hk h => ?decode, fun s ps rest hs hlong hfit hk h => ?encode⟩
  case decode =>
    obtain ⟨t, hwalk, ht, hrem⟩ := walkParams_returns (Nat.lt_succ_self _) herr hstop hlong hk h
    exact ⟨t, hwalk, by rw [ht]; exact herr, by rw [ht], hrem⟩
  case encode =>
    have hpending : s.pending = setLen 0 :: ((ps.flatMap paramCommands).map issue ++ (issue .start :: rest)) := by
      rw [h, encodeParamList]
      simp
    have hrun := runs_setLen_zero hpending
    obtain ⟨t, hrun', happ, ht⟩ := runs_params (rest := issue .start :: rest) rfl rfl hlong (room_emptied hs hfit _) rfl
    have hrun'' := runs_start (s := t) (rest := rest) (by rw [ht])
    obtain ⟨hlen, hbytes, hwindow⟩ := (happ.taken rest).started_window rfl .param
    have hknown : ∀ p ∈ ps, known (startActions { t with pending := rest }) .param p.type = true := by rw [ht]; exact hk
    obtain ⟨u, hwalk, hu, hrem⟩ := walkParams_returns (Nat.lt_succ_self _) rfl rfl hlong hknown hwindow
    refine ⟨startActions { t with pending := rest }, u, ?_, rfl, hlen, hbytes, hwalk, by rw [hu]; rfl, by rw [hu], hrem⟩
    rw [show (ps.flatMap paramCommands).length + 2 = 1 + (ps.flatMap paramCommands).length + 1 by omega]
    exact ((hrun.trans hrun').trans hrun'').run_eq

/-- Settles O44: the run of R105's commands from an empty buffer leaves a window that holds the chunks, over which both walks return
them. -/
theorem encodedChunksDecode : Obligations.EncodedChunksDecode := by
  intro s cs rest hs hlong hfit hk h
  have hpending : s.pending = setLen 0 :: ((cs.flatMap chunkCommands).map issue ++ (issue .start :: rest)) := by
    rw [h]
    simp
  have hrun := runs_setLen_zero hpending
  obtain ⟨t, hrun', happ, ht⟩ := runs_chunks (rest := issue .start :: rest) rfl rfl rfl hlong (room_emptied hs hfit _) rfl
  have hrun'' := runs_start (s := t) (rest := rest) (by rw [ht])
  obtain ⟨-, -, hwindow⟩ := (happ.taken rest).started_window rfl .chunk
  have hknown (lv : Level) (ty : Half) : known (startActions { t with pending := rest }) lv ty = known s lv ty := by
    rw [ht]; exact known_congr rfl rfl lv ty
  refine ⟨startActions { t with pending := rest }, ?_, ?_, fun hkp => ?_⟩
  · rw [show (cs.flatMap chunkCommands).length + 2 = 1 + (cs.flatMap chunkCommands).length + 1 by omega]
    exact ((hrun.trans hrun').trans hrun'').run_eq
  · exact decoderReturnsTheChunks _ cs rfl rfl hlong (by simpa only [hknown] using hk) hwindow
  · exact walkNested_returns rfl rfl hlong (by simpa only [hknown] using hk) (by simpa only [hknown] using hkp) hwindow

/-! ## The header on the wire -/

theorem be32_append_bytes (b0 b1 b2 b3 : Byte) : be32 (b0 ++ b1 ++ b2 ++ b3) = [b0, b1, b2, b3] := by
  rw [be32]
  simp only [List.cons.injEq, and_true]
  refine ⟨?_, ?_, ?_, BitVec.extractLsb'_append_eq_right⟩ <;> ext k hk <;>
    simp only [BitVec.getElem_extractLsb', BitVec.getLsbD_append] <;> grind

theorem be32_rd32 (s : State) (a : Nat) : be32 (rd32 s a) = bufBytes s a 4 := be32_append_bytes _ _ _ _

/-- R40: 8 bytes that hold the two ports and the tag read as these. -/
theorem header_fields {s : State} {src dst : Half} {tag : Word} (h : bufBytes s 0 8 = be16 src ++ be16 dst ++ be32 tag) :
    rd16 s 0 = src ∧ rd16 s 2 = dst ∧ rd32 s 4 = tag := by
  obtain ⟨-, hports, htag⟩ := bufBytes_eq_append h
  obtain ⟨-, hsrc, hdst⟩ := bufBytes_eq_append hports
  exact ⟨rd16_of_bufBytes_eq_be16 hsrc, rd16_of_bufBytes_eq_be16 hdst, rd32_of_bufBytes_eq_be32 htag⟩

/-- R71: the header's bytes: the three registers, and four zeros in the checksum field. -/
theorem runs_hdrEnc {s : State} {rest : List HostAccess} (hs : s.err.kind = .none) (hlen : s.len = 0) (hcap : 12 ≤ s.maxPacket)
    (h : s.pending = issue .hdrEnc :: rest) :
    ∃ t, Runs 1 s t ∧ Appended (be16 s.srcPort ++ be16 s.dstPort ++ be32 s.vtag ++ [0, 0, 0, 0]) s t
      ∧ t = { s with buf := t.buf, len := t.len, pending := rest } := by
  have hzero : s.len.toNat = 0 := by rw [hlen]; rfl
  obtain ⟨t, hexec, ht, hbytes, -⟩ := (hdrEncAppendsTheHeader { s with pending := rest } hs hcap).1 hlen
  have hframe : t = { s with buf := t.buf, len := t.len, pending := rest } := by rw [ht]
  refine ⟨t, runs_issue h hexec, ⟨by rw [hframe], ?_, ?_, fun a ha => absurd ha (by omega)⟩, hframe⟩
  · rw [ht, hzero]
    rfl
  · rw [hzero]
    exact hbytes

/-! ## The packet: patched, and its header decoded -/

/-- The state behind `CSUM.PATCH`, `START` and `HDR.DEC`; `runs_patchDecode` ties it to the commands. -/
def patchDecode (s : State) (rest : List HostAccess) : State :=
  { startActions (patchChecksum { s with pending := rest }) with
    srcPort := rd16 s 0, dstPort := rd16 s 2, vtag := rd32 s 4, pos0 := 12, hdrValid := true }

theorem bufRead_patchDecode (s : State) (rest : List HostAccess) (a : Nat) :
    bufRead (patchDecode s rest) a = bufRead (patchChecksum s) a := bufRead_congr rfl rfl rfl a

theorem packetChecksum_patchDecode (s : State) (rest : List HostAccess) : packetChecksum (patchDecode s rest) = packetChecksum s :=
  (packetChecksum_congr rfl fun a _ => bufRead_patchDecode s rest a).trans (packetChecksum_patchChecksum s)

theorem rd32_patchDecode {s : State} (hcap : 12 ≤ s.maxPacket) (rest : List HostAccess) :
    rd32 (patchDecode s rest) 8 = packetChecksum s :=
  (rd32_eq_iff.2 fun a _ _ => bufRead_patchDecode s rest a).trans (rd32_patchChecksum hcap)

theorem runs_patchDecode {s : State} {rest : List HostAccess} (hs : s.err.kind = .none) (hc : s.copen = false) (hp : s.popen = false)
    (hcap : 12 ≤ s.maxPacket) (hlen : 12 ≤ s.len.toNat)
    (h : s.pending = issue .csumPatch :: issue .start :: issue .hdrDec :: rest) : Runs 3 s (patchDecode s rest) := by
  have hpatch : Runs 1 s (patchChecksum { s with pending := issue .start :: issue .hdrDec :: rest }) :=
    runs_issue h (exec_csumPatch hs hc hp hlen)
  have hstart := runs_start (s := patchChecksum { s with pending := issue .start :: issue .hdrDec :: rest }) rfl
  have hdec := (hdrDecLoadsTheHeader (startActions (patchChecksum { s with pending := rest })) rfl).1 rfl rfl hlen
  refine (hpatch.trans hstart).trans (runs_issue rfl (hdec.trans (congrArg Host.Outcome.next ?_)))
  have hread (a : Nat) : bufRead (startActions (patchChecksum { s with pending := rest })) a = bufRead (patchChecksum s) a :=
    bufRead_congr rfl rfl rfl a
  have hsame (a : Nat) (ha : a < 8) : bufRead (startActions (patchChecksum { s with pending := rest })) a = bufRead s a :=
    (hread a).trans (bufRead_patchChecksum_outside (by omega))
  rw [patchDecode, rd16_congr (a := 0) fun x _ hx => hsame x (by omega), rd16_congr (a := 2) fun x _ hx => hsame x (by omega),
    rd32_eq_iff.2 fun x (_ : 4 ≤ x) hx => hsame x (by omega),
    (rd32_eq_iff.2 fun x (_ : 8 ≤ x) _ => hread x).trans (rd32_patchChecksum hcap)]
  rfl

/-- The state behind `HDR.ENC`, an encode of chunks, `CSUM.PATCH`, `START` and `HDR.DEC`, from an empty buffer. -/
structure PacketDecoded (s : State) (chunks : List Byte) (t : State) : Prop where
  err : t.err.kind = .none
  srcPort : t.srcPort = s.srcPort
  dstPort : t.dstPort = s.dstPort
  vtag : t.vtag = s.vtag
  cksum : t.cksum = packetChecksum t
  crcOut : t.crcOut = packetChecksum t
  stored : rd32 t 8 = packetChecksum t
  hdrValid : t.hdrValid = true
  stop0 : t.stop0 = false
  pos0 : t.pos0 = 12
  end0 : t.end0 = t.len
  len : t.len.toNat = 12 + chunks.length
  chunks : bufBytes t 12 chunks.length = chunks
  cknown : t.cknown = s.cknown
  pknown : t.pknown = s.pknown

theorem runs_packet {s : State} {cs : List ChunkPlan} {rest : List HostAccess} (hs : s.err.kind = .none) (hc : s.copen = false)
    (hp : s.popen = false) (hlen : s.len = 0) (hlong : ∀ c ∈ cs, chunkLength c ≤ 65535)
    (hroom : Room (12 + (cs.flatMap chunkBytes).length) s)
    (h : s.pending = issue .hdrEnc :: ((cs.flatMap chunkCommands).map issue
      ++ (issue .csumPatch :: issue .start :: issue .hdrDec :: rest))) :
    ∃ t, Runs (1 + (cs.flatMap chunkCommands).length + 3) s t ∧ PacketDecoded s (cs.flatMap chunkBytes) t ∧ t.pending = rest := by
  have hzero : s.len.toNat = 0 := by rw [hlen]; rfl
  have hcap : 12 ≤ s.maxPacket := by obtain ⟨hfit, -⟩ := hroom; omega
  obtain ⟨t, hrun, hheader, ht⟩ := runs_hdrEnc hs hlen hcap h
  obtain ⟨u, hrun', hbody, hu⟩ := runs_chunks (rest := issue .csumPatch :: issue .start :: issue .hdrDec :: rest)
    (by rw [ht]; exact hs) (by rw [ht]; exact hc) (by rw [ht]; exact hp) hlong (hheader.room hroom) (by rw [ht])
  have hut : u = { s with buf := u.buf, len := u.len, cstart := u.cstart, pstart := u.pstart,
                          pending := issue .csumPatch :: issue .start :: issue .hdrDec :: rest } := by rw [hu, ht]
  have happ := hheader.trans hbody
  have hulen : u.len.toNat = 12 + (cs.flatMap chunkBytes).length := by
    rw [happ.len, hzero, List.length_append, Nat.zero_add]
    rfl
  have hbytes := happ.bytes
  rw [hzero] at hbytes
  obtain ⟨-, hhead, hchunks⟩ := bufBytes_eq_append hbytes
  obtain ⟨-, hports, -⟩ := bufBytes_eq_append hhead
  obtain ⟨hsrc, hdst, htag⟩ := header_fields hports
  have hucap : 12 ≤ u.maxPacket := by rw [hut]; exact hcap
  have hrun'' := runs_patchDecode (rest := rest) (by rw [hut]; exact hs) (by rw [hut]; exact hc) (by rw [hut]; exact hp) hucap
    (by omega) (by rw [hut])
  have hsum := packetChecksum_patchDecode u rest
  refine ⟨patchDecode u rest, (hrun.trans hrun').trans hrun'', ?_, rfl⟩
  exact
    { err := rfl
      srcPort := hsrc
      dstPort := hdst
      vtag := htag
      cksum := hsum.symm
      crcOut := hsum.symm
      stored := (rd32_patchDecode hucap rest).trans hsum.symm
      hdrValid := rfl
      stop0 := rfl
      pos0 := rfl
      end0 := rfl
      len := hulen
      chunks := (bufBytes_congr fun a _ _ =>
        (bufRead_patchDecode u rest a).trans (bufRead_patchChecksum_outside (by omega))).trans hchunks
      cknown := show u.cknown = s.cknown by rw [hut]
      pknown := show u.pknown = s.pknown by rw [hut] }

/-- Settles O24: the packet of no chunks. -/
theorem headerRoundTrip : Obligations.HeaderRoundTrip := by
  intro s rest hcap h
  have hrun := runs_setLen_zero h
  obtain ⟨t, hrun', ht, hrest⟩ := runs_packet (cs := []) (s := emptied s _) (rest := rest) rfl rfl rfl rfl (by simp)
    ⟨(Nat.zero_add 12).trans_le hcap, show 12 < 2 ^ 32 by decide⟩ rfl
  refine ⟨t, (hrun.trans hrun').run_eq, hrest, ht.err, ht.srcPort, ht.dstPort, ht.vtag, ht.cksum.trans ht.crcOut.symm, ht.cksum,
    ht.hdrValid, ht.pos0, ?_⟩
  rw [ht.end0]
  exact BitVec.eq_of_toNat_eq ht.len

/-- R72: the state behind `CSUM.VERIFY`; `runs_verified` ties it to the command. -/
def verified (s : State) (rest : List HostAccess) : State :=
  { s with crcAcc := packetChecksum s ^^^ crcOnes, crcOut := packetChecksum s, ckDone := true,
           ckBad := decide (packetChecksum s ≠ rd32 s 8), pending := rest }

theorem runs_verified {s : State} {rest : List HostAccess} (hs : s.err.kind = .none) (hlen : 12 ≤ s.len.toNat)
    (h : s.pending = issue .csumVerify :: rest) : Runs 1 s (verified s rest) :=
  runs_issue h ((csumVerifyComparesTheChecksum.2 { s with pending := rest } hs).1 hlen)

/-- R105: an empty buffer and the header registers, as the host sets them; `runs_prepared` ties it to the accesses. -/
def prepared (src dst : Half) (tag : Word) (s : State) (rest : List HostAccess) : State :=
  { emptied s rest with srcPort := src, dstPort := dst, vtag := tag }

theorem runs_prepared {s : State} {src dst : Half} {tag : Word} {rest : List HostAccess}
    (h : s.pending = setLen 0 :: .regWrite 13 (src.setWidth 32) :: .regWrite 14 (dst.setWidth 32) :: .regWrite 15 tag :: rest) :
    Runs 4 s (prepared src dst tag s rest) := by
  have hport (p : Half) : (p.setWidth 32).extractLsb' 0 16 = p := by ext k hk; simp [hk]; omega
  have hsrc := (runs_setLen_zero h).trans (runs_access rfl (takeAccess_write_reg .srcPort rfl nofun _))
  have hdst := hsrc.trans (runs_access rfl (takeAccess_write_reg .dstPort rfl nofun _))
  have htag := hdst.trans (runs_access rfl (takeAccess_write_reg .vtag rfl nofun _))
  simp only [writeReg, hport] at htag
  exact htag

/-- Settles O46: the packet is built and its header decoded (`runs_packet`); the stored checksum is the packet's, and behind the
header the window holds the chunks, which the walk returns (`decoderReturnsTheChunks`). -/
theorem packetRoundTrip : Obligations.PacketRoundTrip := by
  intro s src dst tag cs rest hs hlong hfit hk h
  obtain ⟨tail, htail⟩ : ∃ tail, tail = issue .hdrEnc :: ((cs.flatMap chunkCommands).map issue
      ++ (issue .csumPatch :: issue .start :: issue .hdrDec :: issue .csumVerify :: rest)) := ⟨_, rfl⟩
  have hprepared : Runs 4 s (prepared src dst tag s tail) := runs_prepared (by rw [h, encodePacket, htail]; simp)
  obtain ⟨t, hpacket, ht, hpending⟩ := runs_packet (s := prepared src dst tag s tail) rfl rfl rfl rfl hlong
    (room_emptied hs hfit tail) htail
  have hlen := ht.len
  have hverify := runs_verified ht.err (by omega) hpending
  have hwindow : bufBytes t t.pos0.toNat (curRemaining t .chunk) = cs.flatMap chunkBytes := by
    have hrem : curRemaining t .chunk = (cs.flatMap chunkBytes).length := by
      rw [curRemaining, State.windowEnd, State.pos, ht.end0, ht.pos0, hlen]
      exact Nat.add_sub_cancel_left 12 _
    rw [hrem, ht.pos0]
    exact ht.chunks
  have hknown : ∀ c ∈ cs, known (verified t rest) .chunk (c.type.setWidth 16) = true :=
    fun c hc => (known_congr ht.cknown ht.pknown .chunk _).trans (hk c hc)
  obtain ⟨u, hwalk⟩ := decoderReturnsTheChunks (verified t rest) cs ht.err ht.stop0 hlong hknown hwindow
  refine ⟨verified t rest, u, ?_, rfl, ht.srcPort, ht.dstPort, ht.vtag, ht.hdrValid, rfl, by simp [verified, ht.stored], hwalk⟩
  have hcount : (cs.flatMap chunkCommands).length + 9 = 4 + (1 + (cs.flatMap chunkCommands).length + 3) + 1 := by omega
  rw [hcount]
  exact ((hprepared.trans hpacket).trans hverify).run_eq

/-! ## A loaded packet -/

/-- R32: bytes written one by one are one run of bytes. -/
theorem runs_bufRun {bytes : List Byte} : ∀ {s : State} {a : Nat} {rest : List HostAccess}, s.pending = bufRun a bytes ++ rest →
    Runs bytes.length s { bufWrite a bytes s with pending := rest } := by
  induction bytes with
  | nil => exact fun {s a rest} h => by rw [show rest = s.pending from h.symm]; exact Runs.refl s
  | cons b bs ih =>
    intro s a rest h
    rw [List.length_cons, Nat.add_comm]
    exact (runs_access h rfl).trans (ih rfl)

/-- R104: a call over bytes loaded at offset 0; `runs_loaded` ties it to the accesses. -/
def loaded (bytes : List Byte) (s : State) (rest : List HostAccess) : State :=
  startActions { bufWrite 0 bytes s with len := BitVec.ofNat 32 bytes.length, pending := rest }

theorem runs_loaded {s : State} {bytes : List Byte} {rest : List HostAccess} (hfit : bytes.length ≤ s.maxPacket)
    (hwrap : bytes.length < 2 ^ 32) (h : s.pending = loadBytes bytes ++ rest) :
    Runs (bytes.length + 1) s (loaded bytes s rest) := by
  rw [loadBytes, List.append_assoc] at h
  exact (runs_bufRun h).trans (runs_setLen hfit hwrap rfl)

theorem bufBytes_loaded {s : State} {bytes : List Byte} (hfit : bytes.length ≤ s.maxPacket) (rest : List HostAccess) :
    bufBytes (loaded bytes s rest) 0 bytes.length = bytes :=
  (bufBytes_congr fun _ _ _ => bufRead_congr rfl rfl rfl _).trans
    (bufBytes_bufWrite (a := 0) ((Nat.zero_add _).trans_le hfit))

/-- R70: the state behind `HDR.DEC` at the beginning of a call; `runs_headerDecoded` ties it to the command. -/
def headerDecoded (s : State) (rest : List HostAccess) : State :=
  { s with srcPort := rd16 s 0, dstPort := rd16 s 2, vtag := rd32 s 4, cksum := rd32 s 8, pos0 := 12, hdrValid := true,
           pending := rest }

theorem runs_headerDecoded {s : State} {rest : List HostAccess} (hs : s.err.kind = .none) (hpos : s.pos0 = 0)
    (hvalid : s.hdrValid = false) (hend : 12 ≤ s.end0.toNat) (h : s.pending = issue .hdrDec :: rest) :
    Runs 1 s (headerDecoded s rest) :=
  runs_issue h ((hdrDecLoadsTheHeader { s with pending := rest } hs).1 hpos hvalid hend)

/-- R40: the header registers as `HDR.DEC` loads them are the first 12 bytes. -/
theorem header_bytes (s : State) : be16 (rd16 s 0) ++ be16 (rd16 s 2) ++ be32 (rd32 s 4) ++ be32 (rd32 s 8) = bufBytes s 0 12 := by
  rw [be16_rd16, be16_rd16, be32_rd32, be32_rd32, bufBytes_add s 0 8 4, bufBytes_add s 0 4 4, bufBytes_add s 0 2 2]

theorem bufBytes_eq_take_drop {s : State} {bytes : List Byte} {n : Nat} (hn : n ≤ bytes.length)
    (h : bufBytes s 0 bytes.length = bytes) : bufBytes s 0 n = bytes.take n ∧ bufBytes s n (bytes.length - n) = bytes.drop n := by
  obtain ⟨-, htake, hdrop⟩ := bufBytes_eq_append (h.trans (List.take_append_drop n bytes).symm)
  rw [List.length_take_of_le hn] at htake hdrop
  rw [List.length_drop, Nat.zero_add] at hdrop
  exact ⟨htake, hdrop⟩

/-- R64: the checksum of a packet held in the buffer. -/
theorem packetChecksum_of_bufBytes {s : State} {bytes : List Byte} (h12 : 12 ≤ bytes.length) (hlen : s.len.toNat = bytes.length)
    (h : bufBytes s 0 bytes.length = bytes) : packetChecksum s = crc32c (bytes.take 8 ++ [0, 0, 0, 0] ++ bytes.drop 12) := by
  obtain ⟨hfirst, -⟩ := bufBytes_eq_take_drop (n := 8) (by omega) h
  obtain ⟨-, hrest⟩ := bufBytes_eq_take_drop h12 h
  rw [packetChecksum, hlen, hfirst, hrest]

/-- Settles O45: the loaded bytes are read back by `HDR.DEC` as the header and by `CSUM.VERIFY` as the packet. -/
theorem loadedPacketDecodes : Obligations.LoadedPacketDecodes := by
  intro s bytes rest hs h12 hfit h
  have hwrap : bytes.length < 2 ^ 32 := by obtain ⟨-, hcap⟩ := hs.capacity; omega
  have hvalue : (BitVec.ofNat 32 bytes.length).toNat = bytes.length := (BitVec.toNat_ofNat _ _).trans (Nat.mod_eq_of_lt hwrap)
  rw [decodePacketStart, List.append_assoc] at h
  have hload := runs_loaded hfit hwrap h
  have hdecode := hload.trans (runs_headerDecoded (rest := issue .csumVerify :: rest) rfl rfl rfl (h12.trans_eq hvalue.symm) rfl)
  have hverify := hdecode.trans (runs_verified (rest := rest) rfl (h12.trans_eq hvalue.symm) rfl)
  have hbytes := bufBytes_loaded hfit ([issue .hdrDec, issue .csumVerify] ++ rest)
  obtain ⟨hheader, -⟩ := bufBytes_eq_take_drop h12 hbytes
  refine ⟨_, hverify.run_eq, rfl, rfl, hbytes, rfl, rfl, hvalue, (header_bytes _).trans hheader, ?_, rfl, decide_eq_true_iff⟩
  exact packetChecksum_of_bufBytes h12 hvalue hbytes

end Sys2Proof.Machine
end
